-- ==== Sys2Proof/Word.lean ====
section
/-! DEFINITION. The word type of FC-AFE: every register, command word and bus datum is 32 bits wide
(spec/10_state.md R21, spec/00_scope.md R7: bit 0 is the least significant bit). -/

namespace Sys2Proof

/-- A 32-bit register or bus word (R7, R21). -/
abbrev Word := BitVec 32

/-- A byte lane of a word (spec/20_memory.md R58). -/
abbrev Byte := BitVec 8

end Sys2Proof
end

