-- ==== Sys2Proof/Syntax.lean ====
section
/-! DEFINITION. The commands of FC-AFE: one constructor per row of spec/opcode_table.json (spec/30_encoding.md R71).
No command has an operand field (R73), so no constructor has an argument. -/

namespace Sys2Proof

/-- The eight commands of R71. -/
inductive Instr where
  /-- NOP, no operation (R200). -/
  | nop
  /-- NORM, `countsToRatio` (R101). -/
  | norm
  /-- BRIDGE, `ratioToUnknownBridgeResistance` (R105). -/
  | bridge
  /-- RTOT, `resistanceToTempC` (R110). -/
  | rtot
  /-- CONV, `tempCountsToC` (R116). -/
  | conv
  /-- IIR, `filterReadings` (R131). -/
  | iir
  /-- SEED, seeding of the filter state (R136). -/
  | seed
  /-- DCMD, `ratioToDcmBuckDutyCycle` (R181). -/
  | dcmd
  deriving DecidableEq, Repr

end Sys2Proof
end

