-- ==== Sys2Proof/WellFormed.lean ====
section
/-! DEFINITION. Well-formed commands. "No command has an immediate, a register-number field or an addressing mode"
(spec/30_encoding.md R73): there is nothing in a command that could be out of range, so every term of `Instr` is well
formed and no ill-formed term exists. What can be ill formed on this hardware is a command WORD (refused by the decoder,
R74), a bus access (refused by the bus, R55) and a host configuration (refused at launch, R151); their checks stand in
Decode.lean, Machine/Bus.lean and Machine/HostModel.lean. -/

namespace Sys2Proof

/-- Every command is well formed (R73). -/
def Instr.wellFormed : Instr → Bool
  | .nop | .norm | .bridge | .rtot | .conv | .iir | .seed | .dcmd => true

end Sys2Proof
end

