-- ==== Sys2Proof/Decode.lean ====
section
/-! DEFINITION. The command word (spec/30_encoding.md R70-R75): its fields, the decoder, the encoder. Decoding is total:
every 32-bit word is one of the eight commands or is rejected by name (R72, R74). -/

namespace Sys2Proof

/-- Why a word is not a command (R74). Both reasons raise `ILLEGAL_CMD`. -/
inductive DecodeError where
  /-- a bit of `RSV`, bits 31:4, is 1 -/
  | reservedBits
  /-- `RSV` is 0 and `OP` is 0x8 to 0xF -/
  | reservedOp
  deriving DecidableEq, Repr

/-- `OP`, bits 3:0 (R70). -/
def opField (w : Word) : BitVec 4 := w.extractLsb' 0 4

/-- `RSV`, bits 31:4, must be 0 (R70). -/
def rsvField (w : Word) : BitVec 28 := w.extractLsb' 4 28

/-- The opcode map of R71, as a list of the eight assigned codes. -/
def commandOf (op : BitVec 4) : Option Instr :=
  match op.toNat with
  | 0 => some .nop
  | 1 => some .norm
  | 2 => some .bridge
  | 3 => some .rtot
  | 4 => some .conv
  | 5 => some .iir
  | 6 => some .seed
  | 7 => some .dcmd
  | _ => none

/-- The decoder of R72: the reserved bits first, then the opcode. -/
def decode (w : Word) : Except DecodeError Instr :=
  if rsvField w = 0#28 then
    match commandOf (opField w) with
    | some i => .ok i
    | none => .error .reservedOp
  else .error .reservedBits

/-- The `OP` code of a command (R71). -/
def opcode : Instr → BitVec 4
  | .nop => 0x0#4
  | .norm => 0x1#4
  | .bridge => 0x2#4
  | .rtot => 0x3#4
  | .conv => 0x4#4
  | .iir => 0x5#4
  | .seed => 0x6#4
  | .dcmd => 0x7#4

/-- The word of a command: `RSV` = 0 above `OP` (R70, R71). -/
def encode (i : Instr) : Word := (0#28 : BitVec 28) ++ opcode i

/-- What the decoder reads from an instruction whose bits, numbered as spec/opcode_table.json numbers them, are the low
`nbits` bits of `w`. A command is exactly one 32-bit word (R75). -/
def decodeTableWord (nbits w : Nat) : Option Instr :=
  if w % 2 ^ nbits < 2 ^ 32 then
    match decode (BitVec.ofNat 32 (w % 2 ^ nbits)) with
    | .ok i => some i
    | .error _ => none
  else none

end Sys2Proof
end

