-- ==== Sys2Proof/Config.lean ====
section
/-! DEFINITION. What the platform fixes (the parameters of spec/00_scope.md R6) and the one free value of the model
(spec/10_state.md R34). The parameters are carried as plain data in the state, so that a statement about every state
is a statement about every choice of them (assumption log 1, 2). -/

namespace Sys2Proof

/-- `NORM_MODE` of R6: keep the low bits of the code, or take the whole code and clamp. -/
inductive NormMode where
  | mask
  | saturate
  deriving DecidableEq, Repr

/-- `FS_DIV` of R6: 4096 by default, 4095 allowed. -/
inductive FsDiv where
  | div4096
  | div4095
  deriving DecidableEq, Repr

/-- The parameters R6 leaves to the platform; no step changes them. -/
structure Params where
  normMode : NormMode
  fsDiv : FsDiv
  base : Nat
  deriving DecidableEq, Repr

/-- The value of the `n`-th free draw: what a read of a register that holds no value returns (R34: "a free draw, not
0"; fresh on every read, so `n` is a counter of the state). Nothing is known of it (assumption log 5). -/
opaque Config.freeWord : Nat → Word

end Sys2Proof
end

