-- ==== Sys2Proof/Machine/State.lean ====
section
/-! DEFINITION. The state of the machine as plain data: the block's registers, VALID and STATUS (spec/10_state.md R20),
the parameters (spec/00_scope.md R6), the host model's record (spec/42_host_fan_state_machine.md R150, R151, R161,
R162), and what the model needs to be driven: the host operations still to come, the values its reads have returned, and
the counter of free draws (assumption log 4, 5). -/

namespace Sys2Proof.Machine

/-- The seven data registers (R22) and the nine configuration registers (R24). -/
inductive Reg where
  | adcCode | ratio | res | temp | filt | vratio | duty
  | rKnown | nomOhms | nomTempK | beta | alpha | dcmVi | dcmL | dcmIo | dcmT
  deriving DecidableEq, Repr

/-- The contents of the registers (R21: 32 bits each). The content of a register whose VALID bit is 0 is no value of
the hardware and is never observed (R34). -/
structure Regs where
  adcCode : Word
  ratio : Word
  res : Word
  temp : Word
  filt : Word
  vratio : Word
  duty : Word
  rKnown : Word
  nomOhms : Word
  nomTempK : Word
  beta : Word
  alpha : Word
  dcmVi : Word
  dcmL : Word
  dcmIo : Word
  dcmT : Word
  deriving DecidableEq, Repr

/-- The fault causes of spec/60_exceptions.md R211, codes 0x1 to 0xA. Each latches the faulted state of R214: a next
state of the machine, not an end of the run. -/
inductive Cause where
  | illegalCmd
  | operandUnset
  | operandNonfinite
  | cfgTherm
  | cfgKnown
  | cfgAlpha
  | cfgDcm
  | ratioDomain
  | resRange
  | tempNonfinite
  deriving DecidableEq, Repr

/-- STATUS by its fields (R27); the reserved bits read as 0 and are not stored. `cause` is `none` for the code 0x0. -/
structure Status where
  fatal : Bool
  cause : Option Cause
  fop : BitVec 4
  rclLo : Bool
  rclHi : Bool
  rzero : Bool
  vcl : Bool
  dcl : Bool
  deriving DecidableEq, Repr

/-- The phase of the fan state machine (R150). -/
inductive Phase where
  | off
  | spinup
  | on
  deriving DecidableEq, Repr

/-- The host's `Config` record (R151); the spin-up time is an unsigned 32-bit number, the rest are binary32 values. -/
structure HostConfig where
  fanMinDutyCycle : Word
  fanMaxDutyCycle : Word
  fanSpinupDutyCycle : Word
  fanSpinupTimeMs : Word
  tempMinC : Word
  tempMaxC : Word
  tempHysteresisC : Word
  deriving DecidableEq, Repr

/-- The host model's state: its `Config` once loaded (R151), its `State` record (R150; `lastFilteredTempC` is the
block's FILT), the ratio its last fan call returned (R161), and whether its loop has been aborted (R162). -/
structure HostState where
  config : Option HostConfig
  phase : Phase
  lastChangeTimeMs : Word
  ratio : Word
  aborted : Bool
  deriving DecidableEq, Repr

/-- What the host can do (spec/70_reset_and_hazards.md R249) and the parts of its control cycle
(spec/42_host_fan_state_machine.md R154, R161). -/
inductive HostOp where
  /-- a bus read of `size` bytes at byte offset `off` of the window (R52) -/
  | read (off size : Nat)
  /-- a bus write of `size` bytes at byte offset `off` of the window (R53) -/
  | write (off size : Nat) (v : Word)
  /-- a bus read at a byte address of the platform, the window standing at BASE (R50) -/
  | readAt (addr size : Nat)
  /-- a bus write at a byte address of the platform (R50) -/
  | writeAt (addr size : Nat) (v : Word)
  /-- power-on, platform or watchdog reset (R240) -/
  | reset
  /-- the host starts with its `Config` (R150, R151) -/
  | launch (config : HostConfig)
  /-- `fanVoltageRatio(newTempC, currentMs)` (R154); `none`: the temperature that TEMP already holds (R161) -/
  | fanVoltageRatio (newTempC : Option Word) (currentMs : Word)
  /-- one control cycle on an ADC sample (R161) -/
  | controlCycle (code currentMs : Word)
  /-- CHECK, and the abort when FATAL is 1 (R77, R162) -/
  | checkFatal
  /-- read FILT and evaluate the phases, steps 2 to 4 of R154 -/
  | evalPhases (currentMs : Word)
  /-- `WR VRATIO, ratio` of R161 -/
  | writeRatio
  deriving DecidableEq, Repr

/-- The whole state. -/
structure State where
  regs : Regs
  valid : Word
  status : Status
  params : Params
  host : HostState
  pending : List HostOp
  reads : List Word
  draws : Nat
  deriving DecidableEq, Repr

/-- How the machine stops. A fault of the BLOCK is no stop: it is a next state (R212). -/
inductive Fault where
  /-- Raised by the step when the host's control loop has been aborted and no reset is pending: "an aborted loop makes
  no further step" (R162), a stuck agent. Safe: nothing is proved of what follows. -/
  | hostAborted
  deriving DecidableEq, Repr

/-- Why an access or a launch has no step. -/
inductive Refusal where
  /-- Raised by an arm of `exec` whose command has no meaning yet; no arm does. Safe. -/
  | notModelled (mnemonic : String)
  /-- Raised by a bus access outside the 128-byte window: "not an access to FC-AFE" (R50). Safe. -/
  | outsideWindow
  /-- Raised by a bus access that is not 4 bytes wide: "such an access has no step" (R55). Safe. -/
  | accessSize
  /-- Raised by a bus access whose offset is no multiple of 4: "such an access has no step" (R55). Safe. -/
  | accessMisaligned
  /-- Raised by a launch whose `Config` breaks an invariant or holds a NaN or an infinity (R151). Safe. -/
  | hostConfigInvalid
  /-- Raised by a second launch without a reset between: `Config` is "loaded once at startup" (R151). Safe. -/
  | hostAlreadyLaunched
  /-- Raised by a fan call before any `Config` is loaded (R151). Safe. -/
  | hostNotLaunched
  /-- Raised by a phase evaluation on a FILT that is not finite, which no fan call reaches: its IIR has just written a
  finite FILT (R9, R131, R154). Safe. -/
  | hostTemperatureNotFinite
  deriving DecidableEq, Repr

/-- The register contents after reset: the spec gives none ("holds no value", R37); the model names 0, and nothing can
observe it (assumption log 3). -/
def Regs.reset : Regs :=
  ⟨0, 0, 0, 0, 0, 0, 0, 0, 0, 0, 0, 0, 0, 0, 0, 0⟩

/-- STATUS = 0x00000000 (R37). -/
def Status.reset : Status :=
  ⟨false, none, 0, false, false, false, false, false⟩

/-- The host at startup: `phase=OFF`, `lastChangeTimeMs=0` (R150), no `Config` loaded yet, not aborted. -/
def HostState.startup : HostState :=
  ⟨none, .off, 0, 0, false⟩

/-- The default parameters of R6, with BASE, which R6 leaves open, at 0 (assumption log 1, 2). -/
def defaultParams : Params :=
  ⟨.mask, .div4096, 0⟩

/-- The machine right after reset (R37, R240), with the default parameters and nothing for the host to do yet. -/
def State.reset : State where
  regs := Regs.reset
  valid := 0
  status := Status.reset
  params := defaultParams
  host := HostState.startup
  pending := []
  reads := []
  draws := 0

end Sys2Proof.Machine
end

