-- ==== Sys2Proof/Machine/Ops.lean ====
section
/-! DEFINITION. The named operations over the state: reading and writing a register with its VALID bit
(spec/00_scope.md R13, spec/10_state.md R33), the STATUS and VALID words (R27, R33), fault entry (spec/60_exceptions.md
R212), the one frame in which every command runs (R14, R212, R214), and reset (spec/70_reset_and_hazards.md R240), the
only way out of the faulted state (there is no return from a fault, R215). -/

namespace Sys2Proof.Machine

/-- The content of a register. -/
def Regs.get (g : Regs) : Reg → Word
  | .adcCode => g.adcCode
  | .ratio => g.ratio
  | .res => g.res
  | .temp => g.temp
  | .filt => g.filt
  | .vratio => g.vratio
  | .duty => g.duty
  | .rKnown => g.rKnown
  | .nomOhms => g.nomOhms
  | .nomTempK => g.nomTempK
  | .beta => g.beta
  | .alpha => g.alpha
  | .dcmVi => g.dcmVi
  | .dcmL => g.dcmL
  | .dcmIo => g.dcmIo
  | .dcmT => g.dcmT

/-- Store a pattern, unchanged (R21), in a register. -/
def Regs.set (g : Regs) (r : Reg) (v : Word) : Regs :=
  match r with
  | .adcCode => { g with adcCode := v }
  | .ratio => { g with ratio := v }
  | .res => { g with res := v }
  | .temp => { g with temp := v }
  | .filt => { g with filt := v }
  | .vratio => { g with vratio := v }
  | .duty => { g with duty := v }
  | .rKnown => { g with rKnown := v }
  | .nomOhms => { g with nomOhms := v }
  | .nomTempK => { g with nomTempK := v }
  | .beta => { g with beta := v }
  | .alpha => { g with alpha := v }
  | .dcmVi => { g with dcmVi := v }
  | .dcmL => { g with dcmL := v }
  | .dcmIo => { g with dcmIo := v }
  | .dcmT => { g with dcmT := v }

/-- The byte offset of a register in the window (R22, R24, spec/20_memory.md R50). -/
def Reg.offset : Reg → Nat
  | .adcCode => 0x10
  | .ratio => 0x14
  | .res => 0x18
  | .temp => 0x1C
  | .filt => 0x20
  | .vratio => 0x24
  | .duty => 0x28
  | .rKnown => 0x40
  | .nomOhms => 0x44
  | .nomTempK => 0x48
  | .beta => 0x4C
  | .alpha => 0x50
  | .dcmVi => 0x54
  | .dcmL => 0x58
  | .dcmIo => 0x5C
  | .dcmT => 0x60

/-- The number of a register's VALID bit (R22, R24). -/
def Reg.validBit : Reg → Nat
  | .adcCode => 0
  | .ratio => 1
  | .res => 2
  | .temp => 3
  | .filt => 4
  | .vratio => 5
  | .duty => 6
  | .rKnown => 8
  | .nomOhms => 9
  | .nomTempK => 10
  | .beta => 11
  | .alpha => 12
  | .dcmVi => 13
  | .dcmL => 14
  | .dcmIo => 15
  | .dcmT => 16

/-- `reg[N]` (R13). -/
def State.get (s : State) (r : Reg) : Word := s.regs.get r

/-- `valid(N)` (R13, R33). -/
def State.isValid (s : State) (r : Reg) : Bool := s.valid.getLsbD r.validBit

/-- `reg[N] <- v`: writes the pattern and sets the register's VALID bit (R13, R33). -/
def State.setReg (s : State) (r : Reg) (v : Word) : State :=
  { s with regs := s.regs.set r v, valid := s.valid ||| (1#32 <<< r.validBit) }

/-- The 4-bit code of a cause (R211). -/
def Cause.code : Cause → BitVec 4
  | .illegalCmd => 0x1#4
  | .operandUnset => 0x2#4
  | .operandNonfinite => 0x3#4
  | .cfgTherm => 0x4#4
  | .cfgKnown => 0x5#4
  | .cfgAlpha => 0x6#4
  | .cfgDcm => 0x7#4
  | .ratioDomain => 0x8#4
  | .resRange => 0x9#4
  | .tempNonfinite => 0xA#4

/-- The code of the CAUSE field: 0x0, `NONE`, while no fault has occurred (R211). -/
def causeField : Option Cause → BitVec 4
  | none => 0x0#4
  | some c => c.code

/-- The word with `b` at bit `k` and 0 elsewhere. -/
def flagBit (b : Bool) (k : Nat) : Word := if b then 1#32 <<< k else 0#32

/-- STATUS as the word a read returns (R27): FATAL at bit 0, CAUSE at 7:4, FOP at 11:8, the flags at 16 to 20, every
other bit 0. -/
def Status.word (t : Status) : Word :=
  flagBit t.fatal 0 ||| ((causeField t.cause).zeroExtend 32 <<< 4) ||| (t.fop.zeroExtend 32 <<< 8) |||
    flagBit t.rclLo 16 ||| flagBit t.rclHi 17 ||| flagBit t.rzero 18 ||| flagBit t.vcl 19 ||| flagBit t.dcl 20

/-- Fault entry (R212): FATAL, CAUSE and FOP are written and nothing else changes. -/
def faultEntry (c : Cause) (op : BitVec 4) (s : State) : State :=
  { s with status := { s.status with fatal := true, cause := some c, fop := op } }

/-- The frame in which a command runs. While FATAL is 1 the command is ignored (R214); otherwise its body either commits
all its results at once (R14) or raises a fault, which enters the faulted state from the state before it (R212). -/
def perform (op : BitVec 4) (body : State → Except Cause State) (s : State) :
    Host.Outcome State Fault Refusal :=
  if s.status.fatal then .next s
  else
    match body s with
    | .ok t => .next t
    | .error c => .next (faultEntry c op s)

/-- Reset of the device (R240, R242): the reset state of R37 for the block, and the host starts afresh (R150). The
parameters are the platform's and stay; so do the operations to come and what the host has observed. -/
def resetDevice (s : State) : State :=
  { s with regs := Regs.reset, valid := 0, status := Status.reset, host := HostState.startup }

end Sys2Proof.Machine
end

