-- ==== Sys2Proof/Machine/Flags.lean ====
section
/-! DEFINITION. The five clamp flags of STATUS (spec/10_state.md R27, R28): each is written only by the commands that own
it, on completion, to 0 or 1. The flags are computed by the stages; these are their writes. -/

namespace Sys2Proof.Machine

/-- `STATUS.RCL_LO <- lo; STATUS.RCL_HI <- hi`, owned by NORM and CONV (R27). -/
def State.setRatioFlags (s : State) (lo hi : Bool) : State :=
  { s with status := { s.status with rclLo := lo, rclHi := hi } }

/-- `STATUS.RZERO <- z`, owned by RTOT and CONV (R27). -/
def State.setZeroFlag (s : State) (z : Bool) : State :=
  { s with status := { s.status with rzero := z } }

/-- `STATUS.VCL <- v; STATUS.DCL <- d`, owned by DCMD (R27). -/
def State.setDutyFlags (s : State) (v d : Bool) : State :=
  { s with status := { s.status with vcl := v, dcl := d } }

end Sys2Proof.Machine
end

