-- ==== Sys2Proof/Machine/Binary32.lean ====
section
/-! DEFINITION. IEEE 754 binary32 as spec/00_scope.md describes it: decoding (R8), finiteness (R9), rounding an exact
value to nearest, ties to even (R10), clamping (R12). Exact values are rationals; a square root of a rational is rounded
from comparisons with it, so no intermediate rounding ever happens (R11). -/

namespace Sys2Proof.Machine

/-- What a pattern denotes (R8). -/
inductive Value where
  | nan
  | inf (neg : Bool)
  | fin (q : ℚ)
  deriving DecidableEq, Repr

/-- The magnitude bits 30:0 of a pattern. -/
def magnitude (b : Word) : Nat := b.toNat % 2 ^ 31

/-- The magnitude pattern of infinity: `e` = 255, `f` = 0 (R8). -/
def infMagnitude : Nat := 0x7F800000

/-- A finite magnitude in units of 2^-149 (R8): `f` where `e` = 0, else (2^23 + `f`) · 2^(`e` - 1). At the pattern of
infinity it continues to 2^128. -/
def unitsOf (m : Nat) : Nat :=
  if m / 2 ^ 23 = 0 then m else (2 ^ 23 + m % 2 ^ 23) * 2 ^ (m / 2 ^ 23 - 1)

/-- The value of a finite pattern (R8). -/
def finiteValue (b : Word) : ℚ :=
  if b.getLsbD 31 then -((unitsOf (magnitude b) : ℚ) / 2 ^ 149) else (unitsOf (magnitude b) : ℚ) / 2 ^ 149

/-- `finite(b)` (R9). -/
def isFinite (b : Word) : Bool := magnitude b < infMagnitude

/-- `isNaN(b)` (R9). -/
def isNaN (b : Word) : Bool := infMagnitude < magnitude b

/-- `dec32(b)` (R8). -/
def dec32 (b : Word) : Value :=
  if isNaN b then .nan else if isFinite b then .fin (finiteValue b) else .inf (b.getLsbD 31)

/-- `dec32` of a pattern known to be finite; 0 for the others, which every rule checks for first (R9). -/
def real (b : Word) : ℚ :=
  match dec32 b with
  | .fin q => q
  | _ => 0

/-- The point half way between the magnitude patterns `m - 1` and `m`, in units of 2^-150. -/
def midpointUnits (m : Nat) : Nat := unitsOf (m - 1) + unitsOf m

/-- Does a value round to the pattern `m` or beyond? `cmp k` compares the value with k · 2^-150. Above the midpoint
below `m` it does; on the midpoint it does when `m` is the even one of the two (R10). -/
def roundsUpTo (cmp : Nat → Ordering) (m : Nat) : Bool :=
  match cmp (midpointUnits m) with
  | .gt => true
  | .eq => m % 2 == 0
  | .lt => false

/-- The greatest pattern, up to that of infinity, to which or beyond which the value rounds, found from the highest bit
down: `acc` is the part of the pattern already known. -/
def roundFrom (cmp : Nat → Ordering) : Nat → Nat → Nat
  | 0, acc => acc
  | k + 1, acc =>
    if acc + 2 ^ k ≤ infMagnitude ∧ roundsUpTo cmp (acc + 2 ^ k) = true then roundFrom cmp k (acc + 2 ^ k)
    else roundFrom cmp k acc

/-- The magnitude pattern to which a value ≥ 0 rounds (R10). A value of at least 2^128·(1 - 2^-25), the midpoint below
the pattern of infinity, gives infinity. -/
def roundMagnitude (cmp : Nat → Ordering) : Nat := roundFrom cmp 31 0

/-- Compare |x| with k · 2^-150. -/
def compareRat (x : ℚ) (k : Nat) : Ordering := compare (x.num.natAbs * 2 ^ 150) (k * x.den)

/-- Compare the square root of x ≥ 0 with k · 2^-150, by squares. -/
def compareSqrt (x : ℚ) (k : Nat) : Ordering := compare (x.num.natAbs * (2 ^ 150) ^ 2) (k ^ 2 * x.den)

/-- `rne32(x)` of an exact rational (R10). An exact 0 gives +0; any other value keeps its sign, also where it rounds to
zero (assumption log 8). -/
def rne32 (x : ℚ) : Word :=
  if x = 0 then 0 else BitVec.ofNat 32 ((if x < 0 then 2 ^ 31 else 0) + roundMagnitude (compareRat x))

/-- `rne32(sqrt(x))` for x ≥ 0 (R10, R11: `sqrt` is the non-negative square root, exact). -/
def rneSqrt32 (x : ℚ) : Word := BitVec.ofNat 32 (roundMagnitude (compareSqrt x))

/-- `clamp(x, lo, hi)` (R12). -/
def clampRat (x lo hi : ℚ) : ℚ := if x < lo then lo else if hi < x then hi else x

end Sys2Proof.Machine
end

