-- ==== Sys2Proof/Machine/Operands.lean ====
section
/-! DEFINITION. The constants of spec/00_scope.md R6 and the operand checks of spec/60_exceptions.md R213 and R216. Every
operand of a command is a fixed register (spec/30_encoding.md R73), so an operand form is a register and the check made
of it. -/

namespace Sys2Proof.Machine

/-- `ADC_BITS` (R6). -/
def adcBits : Nat := 12

/-- The value of `FS_DIV` (R6). -/
def fsDivisor : FsDiv → ℚ
  | .div4096 => 4096
  | .div4095 => 4095

/-- `RATIO_FLOOR`, exactly 1/10000 (R6). -/
def ratioFloor : ℚ := 1 / 10000

/-- `RATIO_CEIL` (R6). -/
def ratioCeil : ℚ := 1

/-- `RES_MAX`, 1e9 ohms (R6). -/
def resMax : ℚ := 1000000000

/-- `KELVIN_OFFSET`, 273 exactly (R6; 90_conflicts.md C9). -/
def kelvinOffset : ℚ := 273

/-- Every register of the list holds a value; otherwise `OPERAND_UNSET` (R213). -/
def allValid (rs : List Reg) (s : State) : Bool := rs.all fun r => s.isValid r

/-- Every register of the list is finite; otherwise `OPERAND_NONFINITE` (R213). -/
def allFinite (rs : List Reg) (s : State) : Bool := rs.all fun r => isFinite (s.get r)

/-- Every register of the list is above 0: the legal values of spec/10_state.md R24. -/
def allPositive (rs : List Reg) (s : State) : Bool := rs.all fun r => decide (0 < real (s.get r))

/-- The value of a register that holds a finite binary32. -/
def realOf (s : State) (r : Reg) : ℚ := real (s.get r)

end Sys2Proof.Machine
end

