-- ==== Sys2Proof/Machine/Control.lean ====
section
/-! DEFINITION. NOP (spec/44_control.md R200). -/

namespace Sys2Proof.Machine

/-- NOP commits nothing (R200). -/
def nopBody (s : State) : Except Cause State := .ok s

/-- NOP (R200). -/
def execNop (s : State) : Host.Outcome State Fault Refusal := perform (opcode .nop) nopBody s

end Sys2Proof.Machine
end

