-- ==== Sys2Proof/Machine/Dcm.lean ====
section
/-! DEFINITION. The DCM family (spec/43_dcm_duty.md): the stage DUTY (R180) and the command DCMD (R181). -/

namespace Sys2Proof.Machine

/-- What the DUTY stage returns (R180). -/
structure DutyOut where
  duty : Word
  vcl : Bool
  dcl : Bool
  deriving DecidableEq, Repr

/-- `clamp(v, 0, 1)` of an extended real (R12, R180): +∞ gives 1, -∞ gives 0. A NaN has been refused before (R181). -/
def clampRatio : Value → ℚ
  | .fin q => clampRat q 0 1
  | .inf neg => if neg then 0 else 1
  | .nan => 0

/-- Does the clamp of `VRATIO` bind (R180)? -/
def ratioClamped : Value → Bool
  | .fin q => decide (q < 0 ∨ 1 < q)
  | .inf _ => true
  | .nan => false

/-- The radicand of the numerator, 2·Vo·L·Io with Vo = vr·Vi (R180). -/
def dutyNum2 (vr vi l io : ℚ) : ℚ := 2 * (vr * vi) * l * io

/-- The radicand of the denominator, Vi²·T - Vi·Vo·T (R180). -/
def dutyDen2 (vr vi t : ℚ) : ℚ := vi * vi * t - vi * (vr * vi) * t

/-- Stage DUTY (R180). D = sqrt(num2)/sqrt(den2) is the square root of num2/den2, so D > 1 exactly when num2/den2 > 1. A
denominator of 0 gives 1 with the flag (D10). -/
def dcmStage (v : Value) (vi l io t : ℚ) : DutyOut :=
  let vr := clampRatio v
  if dutyDen2 vr vi t = 0 then ⟨0x3F800000#32, ratioClamped v, true⟩
  else if 1 < dutyNum2 vr vi l io / dutyDen2 vr vi t then ⟨rne32 1, ratioClamped v, true⟩
  else ⟨rneSqrt32 (dutyNum2 vr vi l io / dutyDen2 vr vi t), ratioClamped v, false⟩

/-- The four DCM constants, in the order they are read (R73). -/
def dcmConstants : List Reg := [.dcmVi, .dcmL, .dcmIo, .dcmT]

/-- DCMD (R181); of `VRATIO` only a NaN is refused. -/
def dcmdBody (s : State) : Except Cause State :=
  if allValid (.vratio :: dcmConstants) s = false then .error .operandUnset
  else if isNaN (s.get .vratio) = true then .error .operandNonfinite
  else if allFinite dcmConstants s = false then .error .operandNonfinite
  else if allPositive dcmConstants s = false then .error .cfgDcm
  else
    let o := dcmStage (dec32 (s.get .vratio)) (realOf s .dcmVi) (realOf s .dcmL) (realOf s .dcmIo) (realOf s .dcmT)
    .ok ((s.setReg .duty o.duty).setDutyFlags o.vcl o.dcl)

/-- DCMD (R181). -/
def execDcmd (s : State) : Host.Outcome State Fault Refusal := perform (opcode .dcmd) dcmdBody s

end Sys2Proof.Machine
end

