-- ==== Sys2Proof/Machine/Filter.lean ====
section
/-! DEFINITION. The filter family (spec/41_filter.md): the stage FILTER (R130) and the commands IIR (R131) and SEED
(R136). -/

namespace Sys2Proof.Machine

/-- Stage FILTER (R130): α·new + (1 - α)·old, exact, rounded once. -/
def filterStage (new old a : Word) : Word := rne32 (real a * real new + (1 - real a) * real old)

/-- IIR (R131); FILT is read before it is written. -/
def iirBody (s : State) : Except Cause State :=
  if allValid [.temp, .filt, .alpha] s = false then .error .operandUnset
  else if allFinite [.temp, .filt, .alpha] s = false then .error .operandNonfinite
  else if ¬(0 < realOf s .alpha ∧ realOf s .alpha < 1) then .error .cfgAlpha
  else .ok (s.setReg .filt (filterStage (s.get .temp) (s.get .filt) (s.get .alpha)))

/-- SEED (R136): a bit-exact copy of TEMP. -/
def seedBody (s : State) : Except Cause State :=
  if allValid [.temp] s = false then .error .operandUnset
  else if allFinite [.temp] s = false then .error .operandNonfinite
  else .ok (s.setReg .filt (s.get .temp))

/-- IIR (R131). -/
def execIir (s : State) : Host.Outcome State Fault Refusal := perform (opcode .iir) iirBody s

/-- SEED (R136). -/
def execSeed (s : State) : Host.Outcome State Fault Refusal := perform (opcode .seed) seedBody s

end Sys2Proof.Machine
end

