-- ==== Sys2Proof/Machine/LogEnclosure.lean ====
section
/-! DEFINITION. The natural logarithm of a positive rational, enclosed between two rationals as closely as wanted
(spec/00_scope.md R11: `ln` is exact). With x = 2^k · m, z = (m - 1)/(m + 1): ln x = 2 artanh z + 2 k artanh (1/3), and
artanh is summed with a remainder bound. Laws/LogEnclosure.lean proves that ln x lies in the enclosure. -/

namespace Sys2Proof.Machine

/-- A closed interval of rationals. -/
structure Interval where
  lo : ℚ
  hi : ℚ
  deriving DecidableEq, Repr

/-- The first `n` terms of artanh z. -/
def artanhSum (z : ℚ) : Nat → ℚ
  | 0 => 0
  | n + 1 => artanhSum z n + z ^ (2 * n + 1) / (2 * n + 1)

/-- A bound on what the terms after the first `n` add up to. -/
def artanhRest (z : ℚ) (n : Nat) : ℚ := |z| ^ (2 * n + 1) / (1 - z ^ 2)

/-- The power of two taken out of x > 0: x / 2^k lies between 1/2 and 2. -/
def log2Floor (x : ℚ) : ℤ := (Nat.log2 x.num.natAbs : ℤ) - (Nat.log2 x.den : ℤ)

/-- What is left of x after the power of two, as z = (m - 1)/(m + 1). -/
def artanhArg (x : ℚ) : ℚ := (x / 2 ^ log2Floor x - 1) / (x / 2 ^ log2Floor x + 1)

/-- The sum of `n` terms for ln x. -/
def lnSum (x : ℚ) (n : Nat) : ℚ :=
  2 * artanhSum (artanhArg x) n + 2 * log2Floor x * artanhSum (1 / 3) n

/-- How far ln x can lie from `lnSum x n`. -/
def lnRest (x : ℚ) (n : Nat) : ℚ :=
  2 * artanhRest (artanhArg x) n + 2 * |(log2Floor x : ℚ)| * artanhRest (1 / 3) n

/-- An interval that holds ln x, from `n` terms. -/
def lnEnclosure (x : ℚ) (n : Nat) : Interval := ⟨lnSum x n - lnRest x n, lnSum x n + lnRest x n⟩

end Sys2Proof.Machine
end

