-- ==== Sys2Proof/Machine/Thermistor.lean ====
section
/-! DEFINITION. The thermistor family (spec/40_thermistor.md): the stages NORM (R100), BRIDGE (R104) and BETA (R109), and
the commands NORM (R101), BRIDGE (R105), RTOT (R110) and CONV (R116). -/

namespace Sys2Proof.Machine

/-- What the NORM stage returns: the ratio and its two flags (R100). -/
structure NormOut where
  ratio : Word
  lo : Bool
  hi : Bool
  deriving DecidableEq, Repr

/-- The exact ratio `q` of R100, before the clamp. -/
def normQuotient (p : Params) (code : Word) : ℚ :=
  match p.normMode with
  | .mask => ((code.toNat % 2 ^ adcBits : Nat) : ℚ) / fsDivisor p.fsDiv
  | .saturate => (code.toNat : ℚ) / fsDivisor p.fsDiv

/-- Stage NORM (R100). -/
def normStage (p : Params) (code : Word) : NormOut where
  ratio := rne32 (clampRat (normQuotient p code) ratioFloor ratioCeil)
  lo := decide (normQuotient p code < ratioFloor)
  hi := decide (ratioCeil < normQuotient p code)

/-- Stage BRIDGE (R104); its callers have checked 0 < ratio ≤ 1 and a positive known resistance. -/
def bridgeStage (ratio known : Word) : Except Cause Word :=
  if resMax < real known * (1 / real ratio - 1) then .error .resRange
  else .ok (rne32 (real known * (1 / real ratio - 1)))

/-- What one enclosure of the logarithm says of the BETA stage's result. -/
inductive BetaTry where
  /-- 1/T is exactly 0, the pole of the equation (R109, D9) -/
  | pole
  /-- every value of the enclosure rounds to this pattern -/
  | rounded (t : Word)
  /-- the enclosure is still too wide -/
  | undecided
  deriving DecidableEq, Repr

/-- An interval that holds 1/T = 1/T0 + ln(x)/B, where x = R/R0 and B > 0, from `n` terms of the logarithm (R109). -/
def inverseTemp (x t0 b : ℚ) (n : Nat) : Interval :=
  ⟨1 / t0 + (lnEnclosure x n).lo / b, 1 / t0 + (lnEnclosure x n).hi / b⟩

/-- Round 1/(1/T) - 273 (R109) if the interval of 1/T decides it: both of its ends must have one sign, and round to one
pattern. -/
def betaTry (x t0 b : ℚ) (n : Nat) : BetaTry :=
  let i := inverseTemp x t0 b n
  if i.lo = 0 ∧ i.hi = 0 then .pole
  else if 0 < i.lo ∨ i.hi < 0 then
    if rne32 (1 / i.hi - kelvinOffset) = rne32 (1 / i.lo - kelvinOffset) then .rounded (rne32 (1 / i.hi - kelvinOffset))
    else .undecided
  else .undecided

/-- Double the number of terms until the rounding is decided. `none` is the pole. Laws/Beta.lean proves that for operands
of the stage the search always ends before its first argument does, and that what it finds is the rounded exact value
(assumption log 6). -/
def betaSearch (x t0 b : ℚ) : Nat → Nat → Option Word
  | 0, _ => none
  | fuel + 1, n =>
    match betaTry x t0 b n with
    | .pole => none
    | .rounded t => some t
    | .undecided => betaSearch x t0 b fuel (2 * n)

/-- `rne32(1/invT - KELVIN_OFFSET)` of R109 for R > 0, `none` where 1/T is 0. -/
def betaRound (r r0 t0 b : ℚ) : Option Word := betaSearch (r / r0) t0 b 4096 16

/-- What the BETA stage returns: the temperature and its flag (R109). -/
structure BetaOut where
  temp : Word
  rzero : Bool
  deriving DecidableEq, Repr

/-- Stage BETA (R109). A resistance of 0 gives -273.0 and the flag (D8); no finite binary32 result is a fault (D9). -/
def betaStage (res ohms tempK beta : Word) : Except Cause BetaOut :=
  if real res = 0 then .ok ⟨0xC3888000#32, true⟩
  else
    match betaRound (real res) (real ohms) (real tempK) (real beta) with
    | none => .error .tempNonfinite
    | some t => if isFinite t then .ok ⟨t, false⟩ else .error .tempNonfinite

/-- The three calibration registers of the BETA stage, in the order they are read (R73). -/
def calibration : List Reg := [.nomOhms, .nomTempK, .beta]

/-- NORM (R101). -/
def normBody (s : State) : Except Cause State :=
  if s.isValid .adcCode = false then .error .operandUnset
  else
    .ok ((s.setReg .ratio (normStage s.params (s.get .adcCode)).ratio).setRatioFlags
      (normStage s.params (s.get .adcCode)).lo (normStage s.params (s.get .adcCode)).hi)

/-- BRIDGE (R105), its checks in the order of R216. -/
def bridgeBody (s : State) : Except Cause State :=
  if allValid [.ratio, .rKnown] s = false then .error .operandUnset
  else if allFinite [.ratio, .rKnown] s = false then .error .operandNonfinite
  else if allPositive [.rKnown] s = false then .error .cfgKnown
  else if ¬(0 < realOf s .ratio ∧ realOf s .ratio ≤ 1) then .error .ratioDomain
  else
    match bridgeStage (s.get .ratio) (s.get .rKnown) with
    | .error c => .error c
    | .ok res => .ok (s.setReg .res res)

/-- RTOT (R110), its checks in the order of R216. -/
def rtotBody (s : State) : Except Cause State :=
  if allValid (.res :: calibration) s = false then .error .operandUnset
  else if allFinite (.res :: calibration) s = false then .error .operandNonfinite
  else if allPositive calibration s = false then .error .cfgTherm
  else if realOf s .res < 0 ∨ resMax < realOf s .res then .error .resRange
  else
    match betaStage (s.get .res) (s.get .nomOhms) (s.get .nomTempK) (s.get .beta) with
    | .error c => .error c
    | .ok o => .ok ((s.setReg .temp o.temp).setZeroFlag o.rzero)

/-- The BETA stage of CONV on the resistance its BRIDGE stage computed, with the stage's checks (R116). -/
def convBeta (s : State) (res : Word) : Except Cause BetaOut :=
  if allValid calibration s = false then .error .operandUnset
  else if allFinite calibration s = false then .error .operandNonfinite
  else if allPositive calibration s = false then .error .cfgTherm
  else betaStage res (s.get .nomOhms) (s.get .nomTempK) (s.get .beta)

/-- The BRIDGE stage of CONV on the ratio its NORM stage computed, with the stage's checks (R116). -/
def convBridge (s : State) (ratio : Word) : Except Cause Word :=
  if allValid [.rKnown] s = false then .error .operandUnset
  else if allFinite [.rKnown] s = false then .error .operandNonfinite
  else if allPositive [.rKnown] s = false then .error .cfgKnown
  else bridgeStage ratio (s.get .rKnown)

/-- The one commit of CONV: three registers and three flags (R116). -/
def convCommit (s : State) (n : NormOut) (res : Word) (o : BetaOut) : State :=
  ((((s.setReg .ratio n.ratio).setReg .res res).setReg .temp o.temp).setRatioFlags n.lo n.hi).setZeroFlag o.rzero

/-- CONV (R116): the three stages in order, checked stage by stage, committed together. -/
def convBody (s : State) : Except Cause State :=
  if s.isValid .adcCode = false then .error .operandUnset
  else
    match convBridge s (normStage s.params (s.get .adcCode)).ratio with
    | .error c => .error c
    | .ok res =>
      match convBeta s res with
      | .error c => .error c
      | .ok o => .ok (convCommit s (normStage s.params (s.get .adcCode)) res o)

/-- NORM (R101). -/
def execNorm (s : State) : Host.Outcome State Fault Refusal := perform (opcode .norm) normBody s

/-- BRIDGE (R105). -/
def execBridge (s : State) : Host.Outcome State Fault Refusal := perform (opcode .bridge) bridgeBody s

/-- RTOT (R110). -/
def execRtot (s : State) : Host.Outcome State Fault Refusal := perform (opcode .rtot) rtotBody s

/-- CONV (R116). -/
def execConv (s : State) : Host.Outcome State Fault Refusal := perform (opcode .conv) convBody s

end Sys2Proof.Machine
end

