-- ==== Sys2Proof/Machine/Dispatch.lean ====
section
/-! DEFINITION. The dispatch: one arm per command (spec/30_encoding.md R71). -/

namespace Sys2Proof.Machine

/-- Perform a command (R71, R72). -/
def exec (i : Instr) (s : State) : Host.Outcome State Fault Refusal :=
  match i with
  | .nop => Sys2Proof.Machine.execNop s
  | .norm => Sys2Proof.Machine.execNorm s
  | .bridge => Sys2Proof.Machine.execBridge s
  | .rtot => Sys2Proof.Machine.execRtot s
  | .conv => Sys2Proof.Machine.execConv s
  | .iir => Sys2Proof.Machine.execIir s
  | .seed => Sys2Proof.Machine.execSeed s
  | .dcmd => Sys2Proof.Machine.execDcmd s

end Sys2Proof.Machine
end

