-- ==== Sys2Proof/Machine/Bus.lean ====
section
/-! DEFINITION. The register window and its two accesses (spec/20_memory.md): what stands at an offset (R50), MemRead
(R52), MemWrite (R53), reserved offsets (R54), the accesses that do not exist (R55), byte lanes (R58), and the window's
place on the platform's bus (R50). A write to `CMD` performs a command (spec/30_encoding.md R72). -/

namespace Sys2Proof.Machine

/-- What stands at a named word offset of the window (R50). -/
inductive Port where
  | cmd
  | status
  | valid
  | reg (r : Reg)
  deriving DecidableEq, Repr

/-- The byte offset of a port (R50). -/
def Port.offset : Port → Nat
  | .cmd => 0x00
  | .status => 0x04
  | .valid => 0x08
  | .reg r => r.offset

/-- The list of R50; `none` is a reserved word offset (R54). -/
def portAt (off : Nat) : Option Port :=
  match off with
  | 0x00 => some .cmd
  | 0x04 => some .status
  | 0x08 => some .valid
  | 0x10 => some (.reg .adcCode)
  | 0x14 => some (.reg .ratio)
  | 0x18 => some (.reg .res)
  | 0x1C => some (.reg .temp)
  | 0x20 => some (.reg .filt)
  | 0x24 => some (.reg .vratio)
  | 0x28 => some (.reg .duty)
  | 0x40 => some (.reg .rKnown)
  | 0x44 => some (.reg .nomOhms)
  | 0x48 => some (.reg .nomTempK)
  | 0x4C => some (.reg .beta)
  | 0x50 => some (.reg .alpha)
  | 0x54 => some (.reg .dcmVi)
  | 0x58 => some (.reg .dcmL)
  | 0x5C => some (.reg .dcmIo)
  | 0x60 => some (.reg .dcmT)
  | _ => none

/-- The accesses the interface lacks (R50, R55); `none` for one it has. -/
def accessRefusal (off size : Nat) : Option Refusal :=
  if 0x80 ≤ off then some .outsideWindow
  else if size ≠ 4 then some .accessSize
  else if off % 4 ≠ 0 then some .accessMisaligned
  else none

/-- The word a read returns (R52): 0 for `CMD` and a reserved offset, a free draw for a register that holds no value. -/
def readWord (off : Nat) (s : State) : Word :=
  match portAt off with
  | none => 0
  | some .cmd => 0
  | some .status => s.status.word
  | some .valid => s.valid
  | some (.reg r) => if s.isValid r then s.get r else Config.freeWord s.draws

/-- Does a read at this offset draw a free value (R34)? -/
def readDraws (off : Nat) (s : State) : Bool :=
  match portAt off with
  | some (.reg r) => !s.isValid r
  | _ => false

/-- The state after a read: the block is unchanged (R52), the host has one more value, and a free draw is used up. -/
def afterRead (off : Nat) (s : State) : State :=
  { s with
    reads := readWord off s :: s.reads
    draws := if readDraws off s then s.draws + 1 else s.draws }

/-- MemRead (R52, R55). -/
def memRead (off size : Nat) (s : State) : Host.Outcome State Fault Refusal :=
  match accessRefusal off size with
  | some r => .refused r
  | none => .next (afterRead off s)

/-- A write of `w` to `CMD` (R72): ignored while FATAL is 1, a fault if the word is no command, else the command. -/
def writeCmd (w : Word) (s : State) : Host.Outcome State Fault Refusal :=
  match decode w with
  | .ok i => exec i s
  | .error _ => perform (opField w) (fun _ => .error .illegalCmd) s

/-- MemWrite (R53, R54, R55). -/
def memWrite (off size : Nat) (v : Word) (s : State) : Host.Outcome State Fault Refusal :=
  match accessRefusal off size with
  | some r => .refused r
  | none =>
    match portAt off with
    | none => .next s
    | some .cmd => writeCmd v s
    | some .status => .next s
    | some .valid => .next s
    | some (.reg r) => .next (s.setReg r v)

/-- Byte `i` of a word if the window is mapped onto a byte-addressed bus: bits 8i+7 : 8i (R58). -/
def byteLane (w : Word) (i : Nat) : Byte := w.extractLsb' (8 * i) 8

/-- The window's offset of a byte address of the platform: the window starts at BASE and is 128 bytes long (R50). -/
def windowOffset (p : Params) (addr : Nat) : Option Nat :=
  if p.base ≤ addr ∧ addr < p.base + 0x80 then some (addr - p.base) else none

/-- A read at a byte address of the platform. -/
def busRead (addr size : Nat) (s : State) : Host.Outcome State Fault Refusal :=
  match windowOffset s.params addr with
  | some off => memRead off size s
  | none => .refused .outsideWindow

/-- A write at a byte address of the platform. -/
def busWrite (addr size : Nat) (v : Word) (s : State) : Host.Outcome State Fault Refusal :=
  match windowOffset s.params addr with
  | some off => memWrite off size v s
  | none => .refused .outsideWindow

end Sys2Proof.Machine
end

