-- ==== Sys2Proof/Machine/HostModel.lean ====
section
/-! DEFINITION. The host model (spec/42_host_fan_state_machine.md): the launch (R150, R151), the fan state machine (R154 to
R160), the control cycle (R161) and the abort (R162). Host arithmetic is exact on the decoded binary32 values and rounded
once (R152). -/

namespace Sys2Proof.Machine

/-- The invariants of the host's `Config`, and no NaN or infinity in it (R151). R151 calls the duty cycles "ratios, 0–1"
but lists no such invariant: a `Config` with one outside 0 to 1 is legal here (DESIGN CHOICE, assumption log 10). -/
def HostConfig.legal (c : HostConfig) : Bool :=
  [c.fanMinDutyCycle, c.fanMaxDutyCycle, c.fanSpinupDutyCycle, c.tempMinC, c.tempMaxC, c.tempHysteresisC].all isFinite &&
    decide (real c.fanMinDutyCycle ≤ real c.fanMaxDutyCycle) && decide (real c.tempMinC < real c.tempMaxC) &&
    decide (0 ≤ real c.tempHysteresisC)

/-- `interp(t)` before its rounding (R158). -/
def interpExact (c : HostConfig) (t : ℚ) : ℚ :=
  real c.fanMinDutyCycle +
    (clampRat t (real c.tempMinC) (real c.tempMaxC) - real c.tempMinC) *
      (real c.fanMaxDutyCycle - real c.fanMinDutyCycle) / (real c.tempMaxC - real c.tempMinC)

/-- `interp(t)` (R158). -/
def interp (c : HostConfig) (t : ℚ) : Word := rne32 (interpExact c t)

/-- What a fan call leaves: the ratio it returns and the host's `State` (R154). -/
structure FanOut where
  ratio : Word
  phase : Phase
  lastChangeTimeMs : Word
  deriving DecidableEq, Repr

/-- Phase ON (R157). -/
def evalOn (c : HostConfig) (t : ℚ) (currentMs last : Word) : FanOut :=
  if t < real c.tempMinC - real c.tempHysteresisC then ⟨0, .off, currentMs⟩
  else ⟨interp c t, .on, last⟩

/-- Phase SPINUP (R156); the elapsed time is a modular difference. -/
def evalSpinup (c : HostConfig) (t : ℚ) (currentMs last : Word) : FanOut :=
  if (currentMs - last).toNat < c.fanSpinupTimeMs.toNat then ⟨c.fanSpinupDutyCycle, .spinup, last⟩
  else evalOn c t currentMs currentMs

/-- Phase OFF (R155); the threshold is exactly `tempMinC` (R160). -/
def evalOff (c : HostConfig) (t : ℚ) (currentMs last : Word) : FanOut :=
  if real c.tempMinC ≤ t then evalSpinup c t currentMs currentMs
  else ⟨0, .off, last⟩

/-- Steps 2 to 4 of `fanVoltageRatio` on the filtered temperature (R154); at most three phase evaluations (R159). -/
def evalPhase (c : HostConfig) (p : Phase) (t : ℚ) (currentMs last : Word) : FanOut :=
  match p with
  | .off => evalOff c t currentMs last
  | .spinup => evalSpinup c t currentMs last
  | .on => evalOn c t currentMs last

/-- The launch (R150, R151): a legal `Config` is loaded, once. -/
def hostLaunch (c : HostConfig) (s : State) : Host.Outcome State Fault Refusal :=
  if s.host.config.isSome then .refused .hostAlreadyLaunched
  else if c.legal then .next { s with host := { HostState.startup with config := some c } }
  else .refused .hostConfigInvalid

/-- The write of a command word (R76: `CMD <mnemonic>`). -/
def cmdOp (i : Instr) : HostOp := .write (Port.offset .cmd) 4 (encode i)

/-- The write of a register (R76: `WR <reg>, <hex32>`). -/
def wrOp (r : Reg) (v : Word) : HostOp := .write r.offset 4 v

/-- The read of a register (R76: `RD <reg>`). -/
def rdOp (r : Reg) : HostOp := .read r.offset 4

/-- The operations of `fanVoltageRatio` (R154): TEMP is written only if it is not already the new temperature. -/
def fanCallOps (newTempC : Option Word) (currentMs : Word) (s : State) : List HostOp :=
  (match newTempC with
    | none => []
    | some t => if s.isValid .temp && s.get .temp == t then [] else [wrOp .temp t]) ++
    [cmdOp .iir, .checkFatal, .evalPhases currentMs]

/-- The operations of one control cycle (R161). -/
def cycleOps (code currentMs : Word) : List HostOp :=
  [wrOp .adcCode code, cmdOp .conv, .fanVoltageRatio none currentMs, .writeRatio, cmdOp .dcmd, .checkFatal, rdOp .duty]

/-- Start a fan call (R154): its operations come before everything else the host has still to do. -/
def hostFanCall (newTempC : Option Word) (currentMs : Word) (s : State) : Host.Outcome State Fault Refusal :=
  if s.host.config.isSome then .next { s with pending := fanCallOps newTempC currentMs s ++ s.pending }
  else .refused .hostNotLaunched

/-- Start a control cycle (R161). -/
def hostCycle (code currentMs : Word) (s : State) : Host.Outcome State Fault Refusal :=
  if s.host.config.isSome then .next { s with pending := cycleOps code currentMs ++ s.pending }
  else .refused .hostNotLaunched

/-- Is this operation the device's reset? -/
def HostOp.isReset : HostOp → Bool
  | .reset => true
  | _ => false

/-- The abort of the control loop (R162): the host makes no further step until a reset. -/
def hostAbort (s : State) : State :=
  { s with
    host := { s.host with aborted := true }
    pending := s.pending.dropWhile fun op => !op.isReset }

/-- CHECK (R77): read STATUS, test bit 0, and abort the loop if it is 1 (R162). -/
def hostCheck (s : State) : Host.Outcome State Fault Refusal :=
  if (readWord (Port.offset .status) s).getLsbD 0 then .next (hostAbort (afterRead (Port.offset .status) s))
  else .next (afterRead (Port.offset .status) s)

/-- Read FILT and evaluate the phases on it (R154, steps 2 to 4). -/
def hostEval (currentMs : Word) (s : State) : Host.Outcome State Fault Refusal :=
  match s.host.config with
  | none => .refused .hostNotLaunched
  | some c =>
    if isFinite (readWord (Reg.offset .filt) s) then
      let o := evalPhase c s.host.phase (real (readWord (Reg.offset .filt) s)) currentMs s.host.lastChangeTimeMs
      .next { afterRead (Reg.offset .filt) s with
              host := { s.host with phase := o.phase, lastChangeTimeMs := o.lastChangeTimeMs, ratio := o.ratio } }
    else .refused .hostTemperatureNotFinite

/-- One operation of the host, as one atomic step (R56, R249). -/
def hostStep (op : HostOp) (s : State) : Host.Outcome State Fault Refusal :=
  match op with
  | .read off size => memRead off size s
  | .write off size v => memWrite off size v s
  | .readAt addr size => busRead addr size s
  | .writeAt addr size v => busWrite addr size v s
  | .reset => .next (resetDevice s)
  | .launch c => hostLaunch c s
  | .fanVoltageRatio t ms => hostFanCall t ms s
  | .controlCycle code ms => hostCycle code ms s
  | .checkFatal => hostCheck s
  | .evalPhases ms => hostEval ms s
  | .writeRatio => memWrite (Reg.offset .vratio) 4 s.host.ratio s

/-- Nothing is pending: the block "does nothing until the host writes to it" (R241); an aborted host is stuck (R162). -/
def idle (s : State) : Host.Outcome State Fault Refusal :=
  if s.host.aborted then .fault .hostAborted else .next s

end Sys2Proof.Machine
end

