-- ==== Sys2Proof/Machine/HostProgram.lean ====
section
/-! DEFINITION. Host programs as spec/30_encoding.md writes them: the lines of R76, the pseudo-instructions of R77, and the
boot order of spec/70_reset_and_hazards.md R243. -/

namespace Sys2Proof.Machine

/-- A line of a host program (R76). -/
inductive Line where
  /-- `WR <reg>, <hex32>` -/
  | wr (p : Port) (v : Word)
  /-- `WR <reg>, f<decimal>` -/
  | wrReal (p : Port) (x : ℚ)
  /-- `RD <reg>` -/
  | rd (p : Port)
  /-- `CMD <mnemonic>` -/
  | cmd (i : Instr)
  /-- `CMD <hex32>` -/
  | cmdWord (w : Word)
  deriving DecidableEq, Repr

/-- The bus access of a line (R76). -/
def Line.op : Line → HostOp
  | .wr p v => .write p.offset 4 v
  | .wrReal p x => .write p.offset 4 (rne32 x)
  | .rd p => .read p.offset 4
  | .cmd i => .write (Port.offset .cmd) 4 (encode i)
  | .cmdWord w => .write (Port.offset .cmd) 4 w

/-- The pseudo-instructions (R77). -/
inductive Pseudo where
  | sample (code : Word)
  | solve (x : ℚ)
  | check
  | seedv (x : ℚ)
  deriving DecidableEq, Repr

/-- Their exact expansions (R77). -/
def Pseudo.lines : Pseudo → List Line
  | .sample code => [.wr (.reg .adcCode) code, .cmd .conv, .cmd .iir]
  | .solve x => [.wrReal (.reg .vratio) x, .cmd .dcmd, .rd (.reg .duty)]
  | .check => [.rd .status]
  | .seedv x => [.wrReal (.reg .filt) x]

/-- The nine configuration values a host writes after reset (R243 step 1). -/
structure BlockConfig where
  rKnown : Word
  nomOhms : Word
  nomTempK : Word
  beta : Word
  alpha : Word
  dcmVi : Word
  dcmL : Word
  dcmIo : Word
  dcmT : Word
  deriving DecidableEq, Repr

/-- How the host seeds FILT (R243 step 2). -/
inductive Seeding where
  | direct (v : Word)
  | conversion (code : Word)
  deriving DecidableEq, Repr

/-- Step 1 of the boot (R243). -/
def BlockConfig.ops (c : BlockConfig) : List HostOp :=
  [wrOp .rKnown c.rKnown, wrOp .nomOhms c.nomOhms, wrOp .nomTempK c.nomTempK, wrOp .beta c.beta, wrOp .alpha c.alpha,
    wrOp .dcmVi c.dcmVi, wrOp .dcmL c.dcmL, wrOp .dcmIo c.dcmIo, wrOp .dcmT c.dcmT]

/-- Step 2 of the boot (R243). -/
def Seeding.ops : Seeding → List HostOp
  | .direct v => [wrOp .filt v]
  | .conversion code => [wrOp .adcCode code, cmdOp .conv, cmdOp .seed]

/-- The boot (R243): the configuration registers, the seed, and the host's own start. -/
def bootOps (c : BlockConfig) (seed : Seeding) (h : HostConfig) : List HostOp :=
  c.ops ++ seed.ops ++ [.launch h]

end Sys2Proof.Machine
end

