-- ==== Sys2Proof/Machine/Step.lean ====
section
/-! DEFINITION. One step: the host's next operation, performed atomically (spec/20_memory.md R56, R59). FC-AFE has no
program counter and fetches nothing (spec/10_state.md R35): "Commands are not fetched from memory. Each one is given by a
host write to `CMD`". -/

namespace Sys2Proof.Machine

/-- One step of the machine (R59, R249): the oldest pending operation, or idling. -/
def step (s : State) : Host.Outcome State Fault Refusal :=
  match s.pending with
  | [] => idle s
  | op :: rest => hostStep op { s with pending := rest }

/-- The state in which the host's next operation is the write of this command word to `CMD` (assumption log 4). -/
def State.withFetchWord (s : State) (nbits w : Nat) : State :=
  { s with pending := .write 0 4 (BitVec.ofNat 32 (w % 2 ^ nbits)) :: s.pending }

end Sys2Proof.Machine
end

