-- ==== Sys2Proof/Safety.lean ====
section
/-! DEFINITION. The terms claims are made in: what it is for a pattern to be the rounding of a real (spec/00_scope.md
R10), the exact formulas of the stages over the reals (R11), the invariant of the block's state (spec/10_state.md R27,
R29, R33, spec/60_exceptions.md R211), what each command reads and writes (spec/30_encoding.md R73), and a successful end
of a run (spec/70_reset_and_hazards.md R250). -/

namespace Sys2Proof.Machine

/-- The magnitude from which rounding gives infinity, 2^128·(1 - 2^-25) (R10). -/
noncomputable def overflowBound : ℝ := 2 ^ 128 * (1 - 1 / 2 ^ 25)

/-- `b` is `x` rounded as spec/00_scope.md R10 says it, without any algorithm: 0 gives +0; from the bound on, an infinity
of the sign of x; otherwise a finite pattern whose value no finite pattern is nearer to x than, and whose fraction is even
where another value is as near. Where a nonzero x rounds to zero, R10's words on values leave the sign of that zero
open, and so does this. -/
structure IsRounded32 (x : ℝ) (b : Word) : Prop where
  zero : x = 0 → b = 0#32
  overflow : overflowBound ≤ |x| → b = if x < 0 then 0xFF800000#32 else 0x7F800000#32
  finite : |x| < overflowBound → isFinite b = true
  nearest : |x| < overflowBound → ∀ c, isFinite c = true → |(real b : ℝ) - x| ≤ |(real c : ℝ) - x|
  even : |x| < overflowBound → ∀ c, isFinite c = true → real c ≠ real b →
    |(real c : ℝ) - x| = |(real b : ℝ) - x| → b.getLsbD 0 = false

/-- `b` is the pattern this model rounds x to: as `IsRounded32`, and with the sign of x also where it rounds to zero
(DEDUCED: assumption log 8). -/
structure IsRne32 (x : ℝ) (b : Word) : Prop extends IsRounded32 x b where
  sign : |x| < overflowBound → (b.getLsbD 31 = true ↔ x < 0)

/-- 1/T of the Beta equation: 1/T0 + ln(R/R0)/B (spec/40_thermistor.md R109). -/
noncomputable def inverseTempReal (r r0 t0 b : ℚ) : ℝ := 1 / (t0 : ℝ) + Real.log ((r : ℝ) / r0) / b

/-- The exact temperature of R109: T - 273. -/
noncomputable def tempReal (r r0 t0 b : ℚ) : ℝ := 1 / inverseTempReal r r0 t0 b - 273

/-- The exact duty formula of spec/43_dcm_duty.md R180, before its clamp, with Vo = vr·Vi. -/
noncomputable def dutyReal (vr vi l io t : ℚ) : ℝ :=
  Real.sqrt (2 * ((vr : ℝ) * vi) * l * io) / Real.sqrt ((vi : ℝ) * vi * t - vi * (vr * vi) * t)

/-- What the clamp of DCMD's input makes of the value of `VRATIO` (spec/43_dcm_duty.md R180, R12): the ratio `vr` in [0, 1]
and the flag. A NaN has no clamp. -/
def IsClampedRatio (v : Value) (vr : ℚ) (vcl : Bool) : Prop :=
  match v with
  | .nan => False
  | .inf neg => vr = (if neg then 0 else 1) ∧ vcl = true
  | .fin q => vr = max 0 (min q 1) ∧ (vcl = true ↔ q < 0 ∨ 1 < q)

/-- `b` is the host's coefficient by the bilinear formula, α = 1 - 1/(1 + tan(π·f_cutoff/f_sample)) (spec/41_filter.md
R140). -/
def IsBilinearAlpha (fCutoff fSample : ℝ) (b : Word) : Prop :=
  IsRne32 (1 - 1 / (1 + Real.tan (Real.pi * fCutoff / fSample))) b

/-- The registers a command reads, in order (R73). -/
def operandsOf : Instr → List Reg
  | .nop => []
  | .norm => [.adcCode]
  | .bridge => [.ratio, .rKnown]
  | .rtot => [.res, .nomOhms, .nomTempK, .beta]
  | .conv => [.adcCode, .rKnown, .nomOhms, .nomTempK, .beta]
  | .iir => [.temp, .filt, .alpha]
  | .seed => [.temp]
  | .dcmd => [.vratio, .dcmVi, .dcmL, .dcmIo, .dcmT]

/-- The registers a command writes on completion (R73). -/
def resultsOf : Instr → List Reg
  | .nop => []
  | .norm => [.ratio]
  | .bridge => [.res]
  | .rtot => [.temp]
  | .conv => [.ratio, .res, .temp]
  | .iir => [.filt]
  | .seed => [.filt]
  | .dcmd => [.duty]

/-- Which commands, by their OP field, can raise a cause (the "raised by" column of R211). `ILLEGAL_CMD` comes from a word
that is no command, whose bits 3:0 can be anything. -/
def causeRaisedBy : Cause → BitVec 4 → Bool
  | .illegalCmd, _ => true
  | .operandUnset, op => op ∈ [1#4, 2#4, 3#4, 4#4, 5#4, 6#4, 7#4]
  | .operandNonfinite, op => op ∈ [2#4, 3#4, 4#4, 5#4, 6#4, 7#4]
  | .cfgTherm, op => op ∈ [3#4, 4#4]
  | .cfgKnown, op => op ∈ [2#4, 4#4]
  | .cfgAlpha, op => op ∈ [5#4]
  | .cfgDcm, op => op ∈ [7#4]
  | .ratioDomain, op => op ∈ [2#4]
  | .resRange, op => op ∈ [2#4, 3#4, 4#4]
  | .tempNonfinite, op => op ∈ [3#4, 4#4]

/-- The fault fields agree: CAUSE and FOP are 0 while FATAL is 0 (R27), and once it is 1 they name a cause and a command
that can raise it (R211). -/
def Status.Consistent (t : Status) : Prop :=
  (t.fatal = false → t.cause = none ∧ t.fop = 0#4) ∧
    (t.fatal = true → ∃ c, t.cause = some c ∧ causeRaisedBy c t.fop = true)

/-- The bits of VALID that belong to no register, 7 and 31:17, read as 0 (R33). -/
def validReserved (v : Word) : Prop := ∀ k, k = 7 ∨ 17 ≤ k → v.getLsbD k = false

/-- The invariant of the machine: STATUS is consistent, the reserved bits of VALID are 0, a loaded host `Config` keeps its
invariants (spec/42_host_fan_state_machine.md R151), and an aborted host has nothing to do before a reset (R162). -/
structure State.Inv (s : State) : Prop where
  status : s.status.Consistent
  valid : validReserved s.valid
  config : ∀ c, s.host.config = some c → c.legal = true
  aborted : s.host.aborted = true → s.pending = [] ∨ ∃ rest, s.pending = .reset :: rest

/-- Two states that differ at most in the contents of registers that hold no value (R33, R34). -/
structure SameButUnset (s t : State) : Prop where
  regs : ∀ r, s.isValid r = true → s.get r = t.get r
  valid : s.valid = t.valid
  status : s.status = t.status
  params : s.params = t.params
  host : s.host = t.host
  pending : s.pending = t.pending
  reads : s.reads = t.reads
  draws : s.draws = t.draws

/-- The run has ended successfully: the host program has made its last access and FATAL is 0 (R250). -/
def State.finished (s : State) : Bool := s.pending.isEmpty && !s.status.fatal

end Sys2Proof.Machine
end

