-- ==== Sys2Proof/Certificates/Slice0/Obligations.lean ====
section
/-! DEFINITION. The statements for the provers, from the numbered rules of spec/. An outcome that is a fault of the BLOCK is a
next state here (spec/60_exceptions.md R212). -/

open Sys2Proof Sys2Proof.Machine

/-! ## The command word -/

/-- R71: a word selects a command exactly when its bits 31:4 are 0 and its bits 3:0 are the number of the command in the
opcode map; the encoder writes that word and the decoder reads it back. -/
def Obligations.WordSelectsCommand : Prop :=
  ∀ (w : Word) (i : Instr),
    let op : BitVec 4 := match i with
      | .nop => 0x0#4
      | .norm => 0x1#4
      | .bridge => 0x2#4
      | .rtot => 0x3#4
      | .conv => 0x4#4
      | .iir => 0x5#4
      | .seed => 0x6#4
      | .dcmd => 0x7#4
    (decode w = .ok i ↔ w.extractLsb' 4 28 = 0#28 ∧ w.extractLsb' 0 4 = op) ∧ (decode w = .ok i ↔ w = encode i) ∧
      (decodeTableWord 32 w.toNat = some i ↔ w = encode i)

/-- R71, bit by bit: each row of the opcode map, as a literal word. -/
def Obligations.OpcodeMapWords : Prop :=
  decode 0b00000000000000000000000000000000#32 = .ok .nop ∧ decode 0b00000000000000000000000000000001#32 = .ok .norm ∧
    decode 0b00000000000000000000000000000010#32 = .ok .bridge ∧
    decode 0b00000000000000000000000000000011#32 = .ok .rtot ∧
    decode 0b00000000000000000000000000000100#32 = .ok .conv ∧
    decode 0b00000000000000000000000000000101#32 = .ok .iir ∧
    decode 0b00000000000000000000000000000110#32 = .ok .seed ∧
    decode 0b00000000000000000000000000000111#32 = .ok .dcmd

/-- R72: what a write of any word to `CMD` does. -/
def Obligations.CmdWriteRule : Prop :=
  ∀ (w : Word) (s : State),
    (s.status.fatal = true → memWrite 0x00 4 w s = .next s) ∧
      (s.status.fatal = false → (w.extractLsb' 4 28 ≠ 0#28 ∨ 8 ≤ (w.extractLsb' 0 4).toNat) →
        memWrite 0x00 4 w s = .next (faultEntry .illegalCmd (w.extractLsb' 0 4) s)) ∧
      (s.status.fatal = false → w.extractLsb' 4 28 = 0#28 → (w.extractLsb' 0 4).toNat < 8 →
        ∃ i, opcode i = w.extractLsb' 0 4 ∧ memWrite 0x00 4 w s = exec i s)

/-- A step whose next host operation writes a command's word to `CMD` is that command, on the state from which the
operation is gone; `withFetchWord` puts such an operation first. -/
def Obligations.StepRunsTheCommand : Prop :=
  ∀ (s : State) (w : Word) (i : Instr) (rest : List HostOp), decode w = .ok i →
    (s.pending = .write 0x00 4 w :: rest → step s = exec i { s with pending := rest }) ∧
      step (s.withFetchWord 32 w.toNat) = exec i s

/-! ## What each command computes, and which fault it reports

Each statement gives the conditions under which the command completes, with the state it then leaves, and for every check
of the command, in the order of R216, the fault where that check is the first to fail. -/

/-- R200: NOP, the word 0, changes nothing, in the faulted state too; a word with `OP` = 0 and another bit set is not NOP. -/
def Obligations.NopChangesNothing : Prop :=
  decode 0x00000000#32 = .ok .nop ∧ (∀ s : State, exec .nop s = .next s) ∧
    ∀ (w : Word) (s : State), s.status.fatal = false → w.extractLsb' 0 4 = 0#4 → w ≠ 0#32 →
      memWrite 0x00 4 w s = .next (faultEntry .illegalCmd 0x0#4 s)

/-- R100, R101: NORM commits the clamped ratio, rounded once, and the two flags of the clamp; it faults only where
`ADC_CODE` holds no value. -/
def Obligations.NormCompletesOrFaults : Prop :=
  ∀ s : State, s.status.fatal = false →
    let k : ℕ := if s.params.normMode = .mask then (s.get .adcCode).toNat % 2 ^ 12 else (s.get .adcCode).toNat
    let q : ℚ := k / (if s.params.fsDiv = .div4096 then 4096 else 4095)
    (s.isValid .adcCode = true → ∃ ratio : Word, IsRounded32 ((max (1 / 10000) (min q 1) : ℚ) : ℝ) ratio ∧
        exec .norm s = .next ((s.setReg .ratio ratio).setRatioFlags (decide (q < 1 / 10000)) (decide (1 < q)))) ∧
      (s.isValid .adcCode = false → exec .norm s = .next (faultEntry .operandUnset 0x1#4 s))

/-- R104, R105: BRIDGE commits K·(1/r - 1), rounded once, on operands that pass its checks; otherwise it reports the first
check that fails. -/
def Obligations.BridgeCompletesOrFaults : Prop :=
  ∀ s : State, s.status.fatal = false →
    let r : ℚ := real (s.get .ratio)
    let known : ℚ := real (s.get .rKnown)
    let fails : Cause → Prop := fun c => exec .bridge s = .next (faultEntry c 0x2#4 s)
    let held : Prop := ∀ x ∈ [Reg.ratio, .rKnown], s.isValid x = true
    let finite : Prop := held ∧ ∀ x ∈ [Reg.ratio, .rKnown], isFinite (s.get x) = true
    let legal : Prop := finite ∧ 0 < known
    let inDomain : Prop := legal ∧ 0 < r ∧ r ≤ 1
    (inDomain → known * (1 / r - 1) ≤ 10 ^ 9 → ∃ res : Word, IsRounded32 ((known * (1 / r - 1) : ℚ) : ℝ) res ∧
        exec .bridge s = .next (s.setReg .res res)) ∧
      (¬held → fails .operandUnset) ∧ (held → ¬finite → fails .operandNonfinite) ∧
      (finite → ¬legal → fails .cfgKnown) ∧ (legal → ¬inDomain → fails .ratioDomain) ∧
      (inDomain → 10 ^ 9 < known * (1 / r - 1) → fails .resRange)

/-- R109, R110: RTOT commits the temperature of the Beta equation, rounded once, with `RZERO` = 0, and for a resistance of
0 it commits -273.0 with `RZERO` = 1; otherwise it reports the first check that fails. -/
def Obligations.RtotCompletesOrFaults : Prop :=
  ∀ s : State, s.status.fatal = false →
    let r : ℚ := real (s.get .res)
    let invT : ℝ := inverseTempReal r (real (s.get .nomOhms)) (real (s.get .nomTempK)) (real (s.get .beta))
    let temp : ℝ := tempReal r (real (s.get .nomOhms)) (real (s.get .nomTempK)) (real (s.get .beta))
    let fails : Cause → Prop := fun c => exec .rtot s = .next (faultEntry c 0x3#4 s)
    let held : Prop := ∀ x ∈ [Reg.res, .nomOhms, .nomTempK, .beta], s.isValid x = true
    let finite : Prop := held ∧ ∀ x ∈ [Reg.res, .nomOhms, .nomTempK, .beta], isFinite (s.get x) = true
    let legal : Prop := finite ∧ ∀ x ∈ [Reg.nomOhms, .nomTempK, .beta], 0 < real (s.get x)
    let inDomain : Prop := legal ∧ 0 ≤ r ∧ r ≤ 10 ^ 9
    (inDomain → r = 0 → exec .rtot s = .next ((s.setReg .temp 0xC3888000#32).setZeroFlag true)) ∧
      (inDomain → r ≠ 0 → invT ≠ 0 → |temp| < overflowBound → ∃ t : Word, isFinite t = true ∧ IsRounded32 temp t ∧
        exec .rtot s = .next ((s.setReg .temp t).setZeroFlag false)) ∧
      (¬held → fails .operandUnset) ∧ (held → ¬finite → fails .operandNonfinite) ∧
      (finite → ¬legal → fails .cfgTherm) ∧ (legal → ¬inDomain → fails .resRange) ∧
      (inDomain → r ≠ 0 → invT = 0 ∨ overflowBound ≤ |temp| → fails .tempNonfinite)

/-- R116: CONV commits the results of its three stages together, each stage reading the rounded result of the one before;
otherwise it reports the first check that fails, stage by stage. -/
def Obligations.ConvCompletesOrFaults : Prop :=
  ∀ s : State, s.status.fatal = false →
    let k : ℕ := if s.params.normMode = .mask then (s.get .adcCode).toNat % 2 ^ 12 else (s.get .adcCode).toNat
    let q : ℚ := k / (if s.params.fsDiv = .div4096 then 4096 else 4095)
    let ratio : Word := rne32 (max (1 / 10000) (min q 1))
    let rx : ℚ := real (s.get .rKnown) * (1 / real ratio - 1)
    let res : Word := rne32 rx
    let invT : ℝ := inverseTempReal (real res) (real (s.get .nomOhms)) (real (s.get .nomTempK)) (real (s.get .beta))
    let temp : ℝ := tempReal (real res) (real (s.get .nomOhms)) (real (s.get .nomTempK)) (real (s.get .beta))
    let done : Word → Bool → State := fun t z =>
      ((((s.setReg .ratio ratio).setReg .res res).setReg .temp t).setRatioFlags (decide (q < 1 / 10000))
        (decide (1 < q))).setZeroFlag z
    let fails : Cause → Prop := fun c => exec .conv s = .next (faultEntry c 0x4#4 s)
    let coded : Prop := s.isValid .adcCode = true
    let knownHeld : Prop := coded ∧ s.isValid .rKnown = true
    let knownFinite : Prop := knownHeld ∧ isFinite (s.get .rKnown) = true
    let knownLegal : Prop := knownFinite ∧ 0 < real (s.get .rKnown)
    let bridged : Prop := knownLegal ∧ rx ≤ 10 ^ 9
    let held : Prop := bridged ∧ ∀ x ∈ [Reg.nomOhms, .nomTempK, .beta], s.isValid x = true
    let finite : Prop := held ∧ ∀ x ∈ [Reg.nomOhms, .nomTempK, .beta], isFinite (s.get x) = true
    let legal : Prop := finite ∧ ∀ x ∈ [Reg.nomOhms, .nomTempK, .beta], 0 < real (s.get x)
    (legal → real res = 0 → exec .conv s = .next (done 0xC3888000#32 true)) ∧
      (legal → real res ≠ 0 → invT ≠ 0 → |temp| < overflowBound → ∃ t : Word, isFinite t = true ∧ IsRounded32 temp t ∧
        exec .conv s = .next (done t false)) ∧
      (¬coded → fails .operandUnset) ∧ (coded → ¬knownHeld → fails .operandUnset) ∧
      (knownHeld → ¬knownFinite → fails .operandNonfinite) ∧ (knownFinite → ¬knownLegal → fails .cfgKnown) ∧
      (knownLegal → ¬bridged → fails .resRange) ∧ (bridged → ¬held → fails .operandUnset) ∧
      (held → ¬finite → fails .operandNonfinite) ∧ (finite → ¬legal → fails .cfgTherm) ∧
      (legal → real res ≠ 0 → invT = 0 ∨ overflowBound ≤ |temp| → fails .tempNonfinite)

/-- R130, R131: IIR commits α·new + (1 - α)·old, rounded once, on operands that pass its checks; otherwise it reports the
first check that fails. -/
def Obligations.IirCompletesOrFaults : Prop :=
  ∀ s : State, s.status.fatal = false →
    let a : ℚ := real (s.get .alpha)
    let fails : Cause → Prop := fun c => exec .iir s = .next (faultEntry c 0x5#4 s)
    let held : Prop := ∀ x ∈ [Reg.temp, .filt, .alpha], s.isValid x = true
    let finite : Prop := held ∧ ∀ x ∈ [Reg.temp, .filt, .alpha], isFinite (s.get x) = true
    let legal : Prop := finite ∧ 0 < a ∧ a < 1
    (legal → ∃ f : Word, IsRounded32 ((a * real (s.get .temp) + (1 - a) * real (s.get .filt) : ℚ) : ℝ) f ∧
        exec .iir s = .next (s.setReg .filt f)) ∧
      (¬held → fails .operandUnset) ∧ (held → ¬finite → fails .operandNonfinite) ∧ (finite → ¬legal → fails .cfgAlpha)

/-- R136: SEED copies the pattern of a finite `TEMP`, bit for bit; it leaves what a host write of that pattern to `FILT`
leaves. -/
def Obligations.SeedCompletesOrFaults : Prop :=
  ∀ s : State, s.status.fatal = false →
    (s.isValid .temp = true → isFinite (s.get .temp) = true →
        exec .seed s = .next (s.setReg .filt (s.get .temp)) ∧ exec .seed s = memWrite 0x20 4 (s.get .temp) s) ∧
      (s.isValid .temp = false → exec .seed s = .next (faultEntry .operandUnset 0x6#4 s)) ∧
      (s.isValid .temp = true → isFinite (s.get .temp) = false →
        exec .seed s = .next (faultEntry .operandNonfinite 0x6#4 s))

/-- R180, R181: DCMD clamps its input, solves the DCM equation exactly, clamps the result to 1 and rounds it once;
otherwise it reports the first check that fails. Of `VRATIO` only a NaN fails one. -/
def Obligations.DcmdCompletesOrFaults : Prop :=
  ∀ s : State, s.status.fatal = false →
    let vi : ℚ := real (s.get .dcmVi)
    let l : ℚ := real (s.get .dcmL)
    let io : ℚ := real (s.get .dcmIo)
    let t : ℚ := real (s.get .dcmT)
    let fails : Cause → Prop := fun c => exec .dcmd s = .next (faultEntry c 0x7#4 s)
    let held : Prop := ∀ x ∈ [Reg.vratio, .dcmVi, .dcmL, .dcmIo, .dcmT], s.isValid x = true
    let finite : Prop := held ∧ isNaN (s.get .vratio) = false ∧
      ∀ x ∈ [Reg.dcmVi, .dcmL, .dcmIo, .dcmT], isFinite (s.get x) = true
    let legal : Prop := finite ∧ ∀ x ∈ [Reg.dcmVi, .dcmL, .dcmIo, .dcmT], 0 < real (s.get x)
    (legal → ∃ (vr : ℚ) (vcl dcl : Bool) (d : Word), IsClampedRatio (dec32 (s.get .vratio)) vr vcl ∧
        (vi * vi * t - vi * (vr * vi) * t = 0 → d = 0x3F800000#32 ∧ dcl = true) ∧
        (vi * vi * t - vi * (vr * vi) * t ≠ 0 →
          IsRounded32 (min (dutyReal vr vi l io t) 1) d ∧ (dcl = true ↔ 1 < dutyReal vr vi l io t)) ∧
        exec .dcmd s = .next ((s.setReg .duty d).setDutyFlags vcl dcl)) ∧
      (¬held → fails .operandUnset) ∧ (held → ¬finite → fails .operandNonfinite) ∧ (finite → ¬legal → fails .cfgDcm)

/-! ## Fault entry and the faulted state -/

/-- R212: a command word that faults leaves the state before it with only `FATAL`, `CAUSE` and `FOP` changed; `FOP` has
bits 3:0 of the word, and the cause is one that R211 lets that command raise. -/
def Obligations.FaultEntryIsPrecise : Prop :=
  ∀ (w : Word) (s t : State), s.status.fatal = false → memWrite 0x00 4 w s = .next t → t.status.fatal = true →
    ∃ c : Cause, causeRaisedBy c (w.extractLsb' 0 4) = true ∧
      t = { s with status := { s.status with fatal := true, cause := some c, fop := w.extractLsb' 0 4 } }

/-- R214: in the faulted state every `CMD` write is ignored, reads and register writes work, and nothing but reset changes
`FATAL`, `CAUSE` or `FOP`. -/
def Obligations.FaultedStateRule : Prop :=
  ∀ s : State, s.status.fatal = true →
    (∀ w : Word, memWrite 0x00 4 w s = .next s) ∧
      (∀ off : Nat, off % 4 = 0 → off ≤ 0x7C → memRead off 4 s = .next (afterRead off s)) ∧
      (∀ (r : Reg) (v : Word), memWrite r.offset 4 v s = .next (s.setReg r v)) ∧
      (∀ (op : HostOp) (t : State), op ≠ .reset → hostStep op s = .next t →
        t.status.fatal = true ∧ t.status.cause = s.status.cause ∧ t.status.fop = s.status.fop)

/-- R29: a step changes `FATAL`, `CAUSE` or `FOP` only by fault entry or by reset, and not once `FATAL` is 1 but by
reset. -/
def Obligations.FaultFieldsOnlyByEntryOrReset : Prop :=
  ∀ s t : State, step s = .next t →
    (t.status.fatal = s.status.fatal ∧ t.status.cause = s.status.cause ∧ t.status.fop = s.status.fop) ∨
      (s.status.fatal = false ∧ ∃ (op : HostOp) (rest : List HostOp) (c : Cause) (fop : BitVec 4),
        s.pending = op :: rest ∧ t = faultEntry c fop { s with pending := rest }) ∨
      ∃ rest, s.pending = .reset :: rest

/-! ## Frames -/

/-- What a command leaves unchanged: every register that is no result of it (R73), the rest of the machine, and every word
of the window but `STATUS`, `VALID` and its results. -/
def Obligations.CommandFrame : Prop :=
  ∀ (i : Instr) (s t : State), exec i s = .next t →
    (∀ r : Reg, r ∉ resultsOf i → t.get r = s.get r ∧ t.isValid r = s.isValid r) ∧
      t.params = s.params ∧ t.host = s.host ∧ t.pending = s.pending ∧ t.reads = s.reads ∧ t.draws = s.draws ∧
      ∀ off : Nat, off ≠ 0x04 → off ≠ 0x08 → (∀ r ∈ resultsOf i, off ≠ r.offset) → readWord off t = readWord off s

/-- R28: a command changes a flag only if it owns the flag and completes; and a step that is no reset changes a flag only
by performing such a command. -/
def Obligations.FlagsFrame : Prop :=
  (∀ (i : Instr) (s t : State), exec i s = .next t →
    (t.status.fatal = true ∨ (i ≠ .norm ∧ i ≠ .conv) →
        t.status.rclLo = s.status.rclLo ∧ t.status.rclHi = s.status.rclHi) ∧
      (t.status.fatal = true ∨ (i ≠ .rtot ∧ i ≠ .conv) → t.status.rzero = s.status.rzero) ∧
      (t.status.fatal = true ∨ i ≠ .dcmd → t.status.vcl = s.status.vcl ∧ t.status.dcl = s.status.dcl)) ∧
    ∀ s t : State, step s = .next t → s.pending.head? ≠ some .reset →
      (t.status.rclLo ≠ s.status.rclLo ∨ t.status.rclHi ≠ s.status.rclHi ∨ t.status.rzero ≠ s.status.rzero ∨
        t.status.vcl ≠ s.status.vcl ∨ t.status.dcl ≠ s.status.dcl) →
      ∃ i, i ∈ [Instr.norm, .rtot, .conv, .dcmd] ∧ exec i { s with pending := s.pending.tail } = .next t ∧
        t.status.fatal = false

/-! ## The register window -/

/-- R52: what a read of each word offset returns; the block is unchanged, the host has the word, and only a read of a
register that holds no value uses up a draw. -/
def Obligations.ReadReturns : Prop :=
  ∀ (s : State) (off : Nat), off % 4 = 0 → off ≤ 0x7C →
    ∃ (v : Word) (d : Nat), memRead off 4 s = .next { s with reads := v :: s.reads, draws := d } ∧
      (off = 0x00 → v = 0#32 ∧ d = s.draws) ∧ (off = 0x04 → v = s.status.word ∧ d = s.draws) ∧
      (off = 0x08 → v = s.valid ∧ d = s.draws) ∧
      (∀ r : Reg, off = r.offset → s.isValid r = true → v = s.get r ∧ d = s.draws) ∧
      (∀ r : Reg, off = r.offset → s.isValid r = false → v = Config.freeWord s.draws ∧ d = s.draws + 1) ∧
      (off ≠ 0x00 → off ≠ 0x04 → off ≠ 0x08 → (∀ r : Reg, off ≠ r.offset) → v = 0#32 ∧ d = s.draws)

/-- R53, R54: what a write to each word offset does, faulted or not. -/
def Obligations.WriteEffects : Prop :=
  ∀ (s : State) (off : Nat) (v : Word), off % 4 = 0 → off ≤ 0x7C →
    (∀ i : Instr, off = 0x00 → v = encode i → memWrite off 4 v s = exec i s) ∧
      (∀ r : Reg, off = r.offset → memWrite off 4 v s = .next (s.setReg r v)) ∧
      (off ≠ 0x00 → (∀ r : Reg, off ≠ r.offset) → memWrite off 4 v s = .next s)

/-- R13, R21: writing a register stores the pattern unchanged, sets its VALID bit and touches no other register. -/
def Obligations.RegisterWriteStores : Prop :=
  ∀ (s : State) (r : Reg) (v : Word),
    (s.setReg r v).get r = v ∧ (s.setReg r v).isValid r = true ∧
      (∀ r' : Reg, r' ≠ r → (s.setReg r v).get r' = s.get r' ∧ (s.setReg r v).isValid r' = s.isValid r') ∧
      s.setReg r v = { s with regs := (s.setReg r v).regs, valid := (s.setReg r v).valid } ∧
      ∃ t u, memWrite r.offset 4 v s = .next t ∧ memRead r.offset 4 t = .next u ∧ u.reads = v :: s.reads

/-- R22, R24, R50: the offset and the VALID bit of each of the sixteen registers, as literals, and what a write at that
offset does to the machine and that bit says; no two registers share an offset or a bit. -/
def Obligations.RegisterMapIsInjective : Prop :=
  let map : List (Reg × Nat × Nat) :=
    [(.adcCode, 0x10, 0), (.ratio, 0x14, 1), (.res, 0x18, 2), (.temp, 0x1C, 3), (.filt, 0x20, 4), (.vratio, 0x24, 5),
      (.duty, 0x28, 6), (.rKnown, 0x40, 8), (.nomOhms, 0x44, 9), (.nomTempK, 0x48, 10), (.beta, 0x4C, 11),
      (.alpha, 0x50, 12), (.dcmVi, 0x54, 13), (.dcmL, 0x58, 14), (.dcmIo, 0x5C, 15), (.dcmT, 0x60, 16)]
  (∀ r : Reg, (r, r.offset, r.validBit) ∈ map) ∧
    (∀ (r : Reg) (off bit : Nat), (r, off, bit) ∈ map →
      r.offset = off ∧ r.validBit = bit ∧ ∀ (s : State) (v : Word), s.isValid r = s.valid.getLsbD bit ∧
        memWrite off 4 v s = .next { s with regs := s.regs.set r v, valid := s.valid ||| (1#32 <<< bit) } ∧
        (s.valid.getLsbD bit = true → memRead off 4 s = .next { s with reads := s.get r :: s.reads })) ∧
    ∀ r r' : Reg, (r.offset = r'.offset → r = r') ∧ (r.validBit = r'.validBit → r = r') ∧ r.offset % 4 = 0 ∧
      0x10 ≤ r.offset ∧ r.offset ≤ 0x60 ∧ r.validBit ≤ 16 ∧ r.validBit ≠ 7

/-- R55, R50: an access of another size or alignment has no step, and none outside the window. -/
def Obligations.RefusedAccesses : Prop :=
  ∀ (s : State) (off size : Nat) (v : Word),
    (0x80 ≤ off → memRead off size s = .refused .outsideWindow ∧ memWrite off size v s = .refused .outsideWindow) ∧
      (off < 0x80 → size ≠ 4 → memRead off size s = .refused .accessSize ∧ memWrite off size v s = .refused .accessSize) ∧
      (off < 0x80 → size = 4 → off % 4 ≠ 0 →
        memRead off size s = .refused .accessMisaligned ∧ memWrite off size v s = .refused .accessMisaligned)

/-- R57: reads have no side effect on the block and repeat; writes but for `CMD` repeat, and change no other register and no
flag; a second IIR can move `FILT` again. -/
def Obligations.AccessesRepeat : Prop :=
  (∀ (s t : State) (off size : Nat), memRead off size s = .next t →
      t.regs = s.regs ∧ t.valid = s.valid ∧ t.status = s.status ∧
        ((∀ r : Reg, off = r.offset → s.isValid r = true) →
          ∃ u, memRead off size t = .next u ∧ u.reads.head? = t.reads.head?)) ∧
    (∀ (s t : State) (off size : Nat) (v : Word), off ≠ 0x00 → memWrite off size v s = .next t →
      memWrite off size v t = .next t ∧ t.status = s.status ∧
        ∀ r : Reg, off ≠ r.offset → t.get r = s.get r ∧ t.isValid r = s.isValid r) ∧
    ∃ s t u : State, memWrite 0x00 4 (encode .iir) s = .next t ∧ memWrite 0x00 4 (encode .iir) t = .next u ∧
      u.get .filt ≠ t.get .filt

/-- R50: the window stands at `BASE`, 128 bytes long; an access elsewhere is not one to FC-AFE. -/
def Obligations.PlatformAddress : Prop :=
  ∀ (s : State) (addr size : Nat) (v : Word),
    (s.params.base ≤ addr → addr < s.params.base + 0x80 →
        busRead addr size s = memRead (addr - s.params.base) size s ∧
          busWrite addr size v s = memWrite (addr - s.params.base) size v s) ∧
      (addr < s.params.base ∨ s.params.base + 0x80 ≤ addr →
        busRead addr size s = .refused .outsideWindow ∧ busWrite addr size v s = .refused .outsideWindow)

/-- R50: "Nothing in the block depends on BASE": a command does the same at every `BASE`. -/
def Obligations.BaseIsInvisible : Prop :=
  ∀ (i : Instr) (s t : State) (b : Nat), exec i s = .next t →
    exec i { s with params := { s.params with base := b } } = .next { t with params := { t.params with base := b } }

/-- R27, R211: where each field of `STATUS` stands in the word a read returns, with the codes of `CAUSE` as literals; every
other bit is 0. -/
def Obligations.StatusWordLayout : Prop :=
  ∀ t : Status,
    let cause : BitVec 4 := match t.cause with
      | none => 0x0#4
      | some .illegalCmd => 0x1#4
      | some .operandUnset => 0x2#4
      | some .operandNonfinite => 0x3#4
      | some .cfgTherm => 0x4#4
      | some .cfgKnown => 0x5#4
      | some .cfgAlpha => 0x6#4
      | some .cfgDcm => 0x7#4
      | some .ratioDomain => 0x8#4
      | some .resRange => 0x9#4
      | some .tempNonfinite => 0xA#4
    t.word.getLsbD 0 = t.fatal ∧ t.word.extractLsb' 4 4 = cause ∧ t.word.extractLsb' 8 4 = t.fop ∧ t.word.getLsbD 16 = t.rclLo ∧ t.word.getLsbD 17 = t.rclHi ∧
    t.word.getLsbD 18 = t.rzero ∧ t.word.getLsbD 19 = t.vcl ∧ t.word.getLsbD 20 = t.dcl ∧
    t.word.extractLsb' 1 3 = 0#3 ∧ t.word.extractLsb' 12 4 = 0#4 ∧ t.word.extractLsb' 21 11 = 0#11

/-! ## Reset -/

/-- R37: the reset state, and the host's startup values (R150). -/
def Obligations.ResetState : Prop :=
  State.reset.status.word = 0x00000000#32 ∧ State.reset.valid = 0x00000000#32 ∧
    (∀ r : Reg, State.reset.isValid r = false) ∧ State.reset.host.phase = .off ∧
    State.reset.host.lastChangeTimeMs = 0#32

/-- R240, R242: a reset from any state, faulted or not, leaves the block and the host's record as after reset. (The
contents of registers that hold no value are the model's choice, assumption log 3.) -/
def Obligations.ResetOperation : Prop :=
  ∀ (s : State) (rest : List HostOp), s.pending = .reset :: rest →
    ∃ t, step s = .next t ∧ t.status = State.reset.status ∧ t.valid = 0x00000000#32 ∧
      (∀ r : Reg, t.isValid r = false ∧ t.get r = State.reset.get r) ∧ t.host = State.reset.host ∧ t.pending = rest

/-- R33: a VALID bit is cleared only by reset, and it is set only by a host write to its register (at its offset, at its
address on the platform, or the write of `VRATIO` in a control cycle) or by the commit of a command that writes its
register, whose word the host has written to `CMD`. -/
def Obligations.ValidBitsOnlyClearedByReset : Prop :=
  ∀ (s t : State) (r : Reg), step s = .next t →
    (s.isValid r = true → t.isValid r = false → ∃ rest, s.pending = .reset :: rest) ∧
      (s.isValid r = false → t.isValid r = true →
        ∃ op rest, s.pending = op :: rest ∧
          ((∃ v, (op = .write r.offset 4 v ∨ op = .writeAt (s.params.base + r.offset) 4 v ∨
                (op = .writeRatio ∧ r = .vratio ∧ v = s.host.ratio)) ∧
              t = ({ s with pending := rest } : State).setReg r v) ∨
            ∃ i, (op = .write 0x00 4 (encode i) ∨ op = .writeAt (s.params.base + 0x00) 4 (encode i)) ∧ r ∈ resultsOf i ∧
              exec i { s with pending := rest } = .next t ∧ t.status.fatal = false))

/-! ## Invariants and noninterference -/

/-- Every step keeps the invariant: the fault fields agree with R211 (the reserved causes are never recorded), the
reserved bits of VALID stay 0 (R33), a loaded host `Config` stays legal (R151), an aborted host waits for reset (R162). -/
def Obligations.StepKeepsInvariant : Prop :=
  ∀ s t : State, s.Inv → step s = .next t → t.Inv

/-- The reset state meets the invariant. -/
def Obligations.ResetMeetsInvariant : Prop :=
  State.reset.Inv

/-- R6, R151: no step changes a parameter, and a loaded host `Config` is immutable until reset. -/
def Obligations.ConfigurationIsImmutable : Prop :=
  ∀ s t : State, step s = .next t →
    t.params = s.params ∧
      ∀ c, s.host.config = some c → t.host.config = some c ∨ ∃ rest, s.pending = .reset :: rest

/-- R141: `FILT` changes only by a host write to it, by IIR, by SEED, or by reset, and only reset takes its value away. -/
def Obligations.FilterStateCarrier : Prop :=
  ∀ s t : State, step s = .next t → (t.get .filt ≠ s.get .filt ∨ t.isValid .filt ≠ s.isValid .filt) →
    (∃ rest, s.pending = .reset :: rest ∧ t.isValid .filt = false) ∨
      (t.isValid .filt = true ∧ ∃ v rest, s.pending = .write 0x20 4 v :: rest ∧ t.get .filt = v) ∨
      (t.isValid .filt = true ∧ ∃ v rest, s.pending = .writeAt (s.params.base + 0x20) 4 v :: rest ∧ t.get .filt = v) ∨
      (t.isValid .filt = true ∧ ∃ i op rest, (i = .iir ∨ i = .seed) ∧ s.pending = op :: rest ∧
        (op = .write 0x00 4 (encode i) ∨ op = .writeAt (s.params.base + 0x00) 4 (encode i)) ∧
        exec i { s with pending := rest } = .next t)

/-- R34, R37: what stands in a register that holds no value never matters: two states that differ only there make the same
step, to two states that differ only there. The free draws are the only thing a read of such a register shows. -/
def Obligations.UnsetContentsNeverMatter : Prop :=
  ∀ s t : State, SameButUnset s t →
    (∀ s', step s = .next s' → ∃ t', step t = .next t' ∧ SameButUnset s' t') ∧
      (∀ f, step s = .fault f → step t = .fault f) ∧ ∀ r, step s = .refused r → step t = .refused r

/-- R27: "No command reads a flag, so no computation depends on one": with the five flags at any values a command gives
the same registers, VALID bits and fault fields. -/
def Obligations.FlagsAreNeverRead : Prop :=
  ∀ (i : Instr) (s t : State) (a b c d e : Bool), exec i s = .next t →
    ∃ t', exec i { s with status := { s.status with rclLo := a, rclHi := b, rzero := c, vcl := d, dcl := e } } = .next t' ∧
      t'.regs = t.regs ∧ t'.valid = t.valid ∧ t'.status.fatal = t.status.fatal ∧ t'.status.cause = t.status.cause ∧
      t'.status.fop = t.status.fop

/-! ## Properties of the families -/

/-- R116, on a fault-free path: CONV completes exactly where NORM, BRIDGE and RTOT in a row do, with the same state. -/
def Obligations.ConvIsNormBridgeRtot : Prop :=
  ∀ s t : State, s.status.fatal = false →
    ((exec .conv s = .next t ∧ t.status.fatal = false) ↔
      ∃ t1 t2, exec .norm s = .next t1 ∧ exec .bridge t1 = .next t2 ∧ exec .rtot t2 = .next t ∧
        t.status.fatal = false)

/-- R119: under `MASK` CONV depends only on the low 12 bits of `ADC_CODE`, and a `TEMP` it writes is finite. -/
def Obligations.ConvUsesTwelveBits : Prop :=
  ∀ (s t : State) (code : Word), s.params.normMode = .mask → exec .conv s = .next t →
    (s.status.fatal = false → t.status.fatal = false → isFinite (t.get .temp) = true) ∧
      (code.extractLsb' 0 12 = (s.get .adcCode).extractLsb' 0 12 →
        exec .conv { s with regs := s.regs.set .adcCode code } = .next { t with regs := t.regs.set .adcCode code })

/-- R100: the ratio NORM writes lies in [0x38D1B717, 1.0], in every mode, for every code. -/
def Obligations.RatioRange : Prop :=
  ∀ s t : State, s.status.fatal = false → s.isValid .adcCode = true → exec .norm s = .next t →
    isFinite (t.get .ratio) = true ∧ real (0x38D1B717#32) ≤ real (t.get .ratio) ∧ real (t.get .ratio) ≤ 1

/-- R120: on two states with one legal calibration, BRIDGE gives the larger ratio no larger resistance, and above the
pole RTOT gives the larger resistance no larger temperature. -/
def Obligations.TemperatureIsMonotone : Prop :=
  ∀ s s' t t' : State, s.status.fatal = false → s'.status.fatal = false →
    (∀ r ∈ [Reg.rKnown, .nomOhms, .nomTempK, .beta], s'.get r = s.get r) →
    t.status.fatal = false → t'.status.fatal = false →
    (exec .bridge s = .next t → exec .bridge s' = .next t' → real (s.get .ratio) ≤ real (s'.get .ratio) →
        real (t'.get .res) ≤ real (t.get .res)) ∧
      (exec .rtot s = .next t → exec .rtot s' = .next t' → 0 < real (s.get .res) →
        real (s.get .res) ≤ real (s'.get .res) →
        0 < inverseTempReal (real (s.get .res)) (real (s.get .nomOhms)) (real (s.get .nomTempK)) (real (s.get .beta)) →
        real (t'.get .temp) ≤ real (t.get .temp))

/-- R138: with `TEMP` = `FILT` = x, finite and not -0, and a legal `ALPHA`, IIR leaves the state as it is. -/
def Obligations.IirFixedPoint : Prop :=
  ∀ s : State, s.status.fatal = false → (∀ r ∈ operandsOf .iir, s.isValid r = true) →
    isFinite (s.get .temp) = true → s.get .temp ≠ 0x80000000#32 → s.get .filt = s.get .temp →
    isFinite (s.get .alpha) = true → 0 < real (s.get .alpha) → real (s.get .alpha) < 1 → exec .iir s = .next s

/-- R130: the filtered value lies between the new and the old value, so it is finite. -/
def Obligations.IirStaysBetween : Prop :=
  ∀ s t : State, s.status.fatal = false → exec .iir s = .next t → t.status.fatal = false →
    isFinite (t.get .filt) = true ∧ min (real (s.get .temp)) (real (s.get .filt)) ≤ real (t.get .filt) ∧
      real (t.get .filt) ≤ max (real (s.get .temp)) (real (s.get .filt))

/-- R183: a completed DCMD has written a duty in [0, 1]. -/
def Obligations.DutyInUnitInterval : Prop :=
  ∀ s t : State, s.status.fatal = false → exec .dcmd s = .next t → t.status.fatal = false →
    isFinite (t.get .duty) = true ∧ 0 ≤ real (t.get .duty) ∧ real (t.get .duty) ≤ 1

/-- R184: on two states with one set of constants, DCMD gives the larger ratio no smaller duty; and the exact formula is
sqrt(K·vr/(1 - vr)) with K = 2·L·Io/(Vi·T). -/
def Obligations.DutyClosedForm : Prop :=
  (∀ vr vi l io t : ℚ, 0 ≤ vr → vr < 1 → 0 < vi → 0 < l → 0 < io → 0 < t →
      dutyReal vr vi l io t = Real.sqrt ((2 * l * io / (vi * t) * (vr / (1 - vr)) : ℚ) : ℝ)) ∧
    ∀ s s' t t' : State, s.status.fatal = false → s'.status.fatal = false →
      (∀ r ∈ [Reg.dcmVi, .dcmL, .dcmIo, .dcmT], s'.get r = s.get r) → isFinite (s.get .vratio) = true →
      isFinite (s'.get .vratio) = true → real (s.get .vratio) ≤ real (s'.get .vratio) → exec .dcmd s = .next t →
      exec .dcmd s' = .next t' → t.status.fatal = false → t'.status.fatal = false →
      real (t.get .duty) ≤ real (t'.get .duty)

/-- R10, R104: rounding is monotone, and it changes no binary32 value but -0, which it makes +0. -/
def Obligations.RoundingIsMonotone : Prop :=
  (∀ x y : ℚ, x ≤ y → |(x : ℝ)| < overflowBound → |(y : ℝ)| < overflowBound → real (rne32 x) ≤ real (rne32 y)) ∧
    (∀ b : Word, isFinite b = true → b ≠ 0x80000000#32 → rne32 (real b) = b) ∧
    rne32 (real (0x80000000#32)) = 0x00000000#32

/-! ## The host model -/

/-- R155, R156, R157, R159: the chains of phases within one call, on a finite filtered temperature. -/
def Obligations.FanPhaseChains : Prop :=
  ∀ (s : State) (c : HostConfig) (ms : Word) (rest : List HostOp), s.pending = .evalPhases ms :: rest →
    s.host.config = some c → s.isValid .filt = true → isFinite (s.get .filt) = true →
    let t : ℚ := real (s.get .filt)
    let last : Word := s.host.lastChangeTimeMs
    let elapsed : Nat := (2 ^ 32 + ms.toNat - last.toNat) % 2 ^ 32
    let ends : Phase → Word → Word → Prop := fun p l ratio =>
      ∃ u, step s = .next u ∧ u.host.phase = p ∧ u.host.lastChangeTimeMs = l ∧ u.host.ratio = ratio ∧
        u.regs = s.regs ∧ u.valid = s.valid ∧ u.status = s.status ∧ u.pending = rest
    let off : Prop := t < real c.tempMinC - real c.tempHysteresisC
    (s.host.phase = .off → t < real c.tempMinC → ends .off last 0x00000000#32) ∧
      (s.host.phase = .off → real c.tempMinC ≤ t → c.fanSpinupTimeMs ≠ 0 → ends .spinup ms c.fanSpinupDutyCycle) ∧
      (s.host.phase = .off → real c.tempMinC ≤ t → c.fanSpinupTimeMs = 0 → ¬off → ends .on ms (interp c t)) ∧
      (s.host.phase = .spinup → elapsed < c.fanSpinupTimeMs.toNat → ends .spinup last c.fanSpinupDutyCycle) ∧
      (s.host.phase = .spinup → c.fanSpinupTimeMs.toNat ≤ elapsed → ¬off → ends .on ms (interp c t)) ∧
      (s.host.phase = .spinup → c.fanSpinupTimeMs.toNat ≤ elapsed → off → ends .off ms 0x00000000#32) ∧
      (s.host.phase = .on → ¬off → ends .on last (interp c t)) ∧
      (s.host.phase = .on → off → ends .off ms 0x00000000#32)

/-- R158: the interpolation is rounded once, is non-decreasing, and returns the two ends of the curve at and beyond them
(the patterns, unless one is -0, which rounds to +0). -/
def Obligations.InterpolationRule : Prop :=
  ∀ (c : HostConfig) (t u : ℚ), c.legal = true →
    IsRounded32
        ((real c.fanMinDutyCycle + (max (real c.tempMinC) (min t (real c.tempMaxC)) - real c.tempMinC) *
          (real c.fanMaxDutyCycle - real c.fanMinDutyCycle) / (real c.tempMaxC - real c.tempMinC) : ℚ) : ℝ) (interp c t) ∧
      (t ≤ u → real (interp c t) ≤ real (interp c u)) ∧
      (t ≤ real c.tempMinC → real (interp c t) = real c.fanMinDutyCycle) ∧
      (real c.tempMaxC ≤ t → real (interp c t) = real c.fanMaxDutyCycle)

/-- R160: from OFF, the hysteresis band changes nothing of a call, and the fan turns on exactly from `tempMinC` on. -/
def Obligations.HysteresisOnlyTurnsOff : Prop :=
  ∀ (c : HostConfig) (h : Word) (t : ℚ) (ms last : Word), c.legal = true →
    HostConfig.legal { c with tempHysteresisC := h } = true →
    evalPhase { c with tempHysteresisC := h } .off t ms last = evalPhase c .off t ms last ∧
      ((evalPhase c .off t ms last).phase ≠ .off ↔ real c.tempMinC ≤ t)

/-- R161, R154: a control cycle is these bus accesses and evaluations in this order; a fan call writes `TEMP` only if it
does not hold the new temperature already. That a cycle or a call expands, in one step, into operations that come before
all else pending is the model's choice (assumption log 7). -/
def Obligations.ControlCycleExpands : Prop :=
  ∀ (s : State) (code ms newTempC : Word) (rest : List HostOp), s.host.config.isSome = true →
    (s.pending = .controlCycle code ms :: rest →
        step s = .next { s with
          pending := [.write 0x10 4 code, .write 0x00 4 0x00000004#32, .fanVoltageRatio none ms, .writeRatio,
            .write 0x00 4 0x00000007#32, .checkFatal, .read 0x28 4] ++ rest }) ∧
      (s.pending = .fanVoltageRatio none ms :: rest →
        step s = .next { s with pending := [.write 0x00 4 0x00000005#32, .checkFatal, .evalPhases ms] ++ rest }) ∧
      (s.pending = .fanVoltageRatio (some newTempC) ms :: rest → s.isValid .temp = true → s.get .temp = newTempC →
        step s = .next { s with pending := [.write 0x00 4 0x00000005#32, .checkFatal, .evalPhases ms] ++ rest }) ∧
      (s.pending = .fanVoltageRatio (some newTempC) ms :: rest → ¬(s.isValid .temp = true ∧ s.get .temp = newTempC) →
        step s = .next { s with
          pending := [.write 0x1C 4 newTempC, .write 0x00 4 0x00000005#32, .checkFatal, .evalPhases ms] ++ rest })

/-- R162: CHECK aborts the host exactly when `FATAL` is 1; an aborted host drops what it had to do, up to the next reset
(the model's way to say that the loop makes no further step: assumption log 7), and with no reset to come it has no step. -/
def Obligations.AbortOnFatal : Prop :=
  ∀ (s : State) (rest : List HostOp), s.host.aborted = false → s.pending = .checkFatal :: rest →
    ∃ t, step s = .next t ∧ t.host.aborted = s.status.fatal ∧ t.reads = s.status.word :: s.reads ∧
      (s.status.fatal = false → t.pending = rest) ∧
      (s.status.fatal = true → .reset ∉ rest → t.pending = [] ∧ step t = .fault .hostAborted) ∧
      (s.status.fatal = true → .reset ∈ rest → ∃ later u, t.pending = .reset :: later ∧ step t = .next u ∧
        u.host.aborted = false ∧ u.status.fatal = false)

/-- R150, R151: a launch loads a legal `Config` and starts in OFF; one that breaks an invariant, or holds a NaN or an
infinity, is refused. That a duty cycle outside 0 to 1 breaks no invariant is the model's choice (assumption log 10). -/
def Obligations.LaunchRule : Prop :=
  ∀ (s : State) (c : HostConfig) (rest : List HostOp), s.pending = .launch c :: rest → s.host.config = none →
    let legal : Prop := (∀ b ∈ [c.fanMinDutyCycle, c.fanMaxDutyCycle, c.fanSpinupDutyCycle, c.tempMinC, c.tempMaxC,
        c.tempHysteresisC], isFinite b = true) ∧
      real c.fanMinDutyCycle ≤ real c.fanMaxDutyCycle ∧ real c.tempMinC < real c.tempMaxC ∧ 0 ≤ real c.tempHysteresisC
    (legal → ∃ t, step s = .next t ∧ t.host.config = some c ∧ t.host.phase = .off ∧ t.host.lastChangeTimeMs = 0#32 ∧
        t.regs = s.regs ∧ t.valid = s.valid ∧ t.status = s.status ∧ t.pending = rest) ∧
      (¬legal → step s = .refused .hostConfigInvalid)

/-- R243: in any state in which no `Config` is loaded, a host that boots in the order of R243, seeding `FILT` by a write,
ends with every configuration register and `FILT` holding the value written, and in OFF. (Seeding by a conversion is
`BootByConversionSeedsFilter`; `ADC_CODE`, `TEMP` and `VRATIO` are written in the control cycle.) -/
def Obligations.BootSetsConfigurationAndFilter : Prop :=
  ∀ (s : State) (c : BlockConfig) (seed : Word) (h : HostConfig) (rest : List HostOp),
    s.pending = bootOps c (.direct seed) h ++ rest → s.host.config = none → h.legal = true →
    ∃ t, Sys2Proof.core.run 11 s = .next t ∧
      (∀ r ∈ [Reg.rKnown, .nomOhms, .nomTempK, .beta, .alpha, .dcmVi, .dcmL, .dcmIo, .dcmT, .filt], t.isValid r = true) ∧
      t.get .rKnown = c.rKnown ∧ t.get .nomOhms = c.nomOhms ∧ t.get .nomTempK = c.nomTempK ∧ t.get .beta = c.beta ∧
      t.get .alpha = c.alpha ∧ t.get .dcmVi = c.dcmVi ∧ t.get .dcmL = c.dcmL ∧ t.get .dcmIo = c.dcmIo ∧
      t.get .dcmT = c.dcmT ∧ t.get .filt = seed ∧ t.host.config = some h ∧ t.host.phase = .off ∧
      t.host.lastChangeTimeMs = 0#32 ∧ t.status = s.status ∧ t.pending = rest

/-- R243 step 2, the other seeding: a host that boots with one conversion and SEED comes, after ten steps, to a state with
the configuration and `ADC_CODE` written, at which it performs CONV. If CONV completes there (the conditions are
`ConvCompletesOrFaults`), the boot ends with `FILT` holding the temperature of that conversion; if it faults, `FILT` is as
before and the fault stays latched. Either way the host ends in OFF. -/
def Obligations.BootByConversionSeedsFilter : Prop :=
  ∀ (s : State) (c : BlockConfig) (code : Word) (h : HostConfig) (rest : List HostOp),
    s.pending = bootOps c (.conversion code) h ++ rest → s.host.config = none → h.legal = true →
    ∃ u done t : State, Sys2Proof.core.run 10 s = .next u ∧
      u.pending = [.write 0x00 4 (encode .conv), .write 0x00 4 (encode .seed), .launch h] ++ rest ∧
      exec .conv { u with pending := u.pending.tail } = .next done ∧ Sys2Proof.core.run 13 s = .next t ∧
      u.status = s.status ∧ u.params = s.params ∧ (∀ r ∈ [Reg.ratio, .res, .temp, .filt, .vratio, .duty],
        u.get r = s.get r ∧ u.isValid r = s.isValid r) ∧
      (∀ x ∈ [u, t],
        (∀ r ∈ [Reg.adcCode, .rKnown, .nomOhms, .nomTempK, .beta, .alpha, .dcmVi, .dcmL, .dcmIo, .dcmT],
          x.isValid r = true) ∧
        x.get .adcCode = code ∧ x.get .rKnown = c.rKnown ∧ x.get .nomOhms = c.nomOhms ∧ x.get .nomTempK = c.nomTempK ∧
        x.get .beta = c.beta ∧ x.get .alpha = c.alpha ∧ x.get .dcmVi = c.dcmVi ∧ x.get .dcmL = c.dcmL ∧
        x.get .dcmIo = c.dcmIo ∧ x.get .dcmT = c.dcmT) ∧
      t.status = done.status ∧ t.host.config = some h ∧ t.host.phase = .off ∧ t.host.lastChangeTimeMs = 0#32 ∧
      t.pending = rest ∧
      (done.status.fatal = false →
        (∀ r ∈ [Reg.ratio, .res, .temp], t.isValid r = true ∧ t.get r = done.get r) ∧ t.isValid .filt = true ∧
          t.get .filt = done.get .temp ∧ isFinite (t.get .filt) = true) ∧
      (done.status.fatal = true →
        ∀ r ∈ [Reg.ratio, .res, .temp, .filt], t.isValid r = s.isValid r ∧ t.get r = s.get r)
end

