-- ==== Sys2Proof/Laws/ExpGap.lean ====
section
/-! SUPPORT. How near a logarithm of a rational can come to a rational: `log_gap` gives an explicit distance for
numerators and denominators of bounded size. It is what makes the search of the BETA stage (spec/40_thermistor.md R109)
end: between two numbers that round differently lies a rational, and the exact value stays away from it. The proof is
Hermite's: the series `hermite n r` = sum over k of r^(2k) / (2^k k! (2n+2k+1)!!) joins e^(2r) to integers by a recurrence
(`form_eq`) and is positive and small. -/

namespace Sys2Proof.Laws.ExpGap

open Nat Finset

/-- The coefficient of r^(2k) in `hermite n r`. -/
noncomputable def coef (n k : ℕ) : ℝ := 1 / (2 ^ k * (k ! : ℝ) * ((2 * (n + k) + 1)‼ : ℝ))

theorem dfac_pos (m : ℕ) : (0:ℝ) < ((m‼ : ℕ) : ℝ) := by exact_mod_cast Nat.doubleFactorial_pos m

theorem coef_pos (n k : ℕ) : 0 < coef n k := by
  have := dfac_pos (2 * (n + k) + 1)
  have := Nat.cast_pos (α := ℝ).2 k.factorial_pos
  unfold coef; positivity

theorem coef_succ_left (n k : ℕ) : coef n k = (2 * n + 2 * k + 3) * coef (n + 1) k := by
  have h1 : (2 * (n + 1 + k) + 1)‼ = (2 * (n + k) + 3) * (2 * (n + k) + 1)‼ := by
    rw [show 2 * (n + 1 + k) + 1 = (2 * (n + k) + 1) + 2 by ring, Nat.doubleFactorial_add_two]
  have := dfac_pos (2 * (n + k) + 1)
  have := Nat.cast_pos (α := ℝ).2 k.factorial_pos
  have h3 : (2 * (n:ℝ) + 2 * k + 3) ≠ 0 := by positivity
  unfold coef
  rw [h1]; push_cast
  field_simp

theorem coef_shift (n k : ℕ) : (2 * ((k : ℝ) + 1)) * coef (n + 1) (k + 1) = coef (n + 2) k := by
  have h1 : 2 * (n + 1 + (k + 1)) + 1 = 2 * (n + 2 + k) + 1 := by ring
  have := dfac_pos (2 * (n + 2 + k) + 1)
  have := Nat.cast_pos (α := ℝ).2 k.factorial_pos
  unfold coef
  rw [h1, Nat.factorial_succ, pow_succ]; push_cast
  field_simp

theorem dfac_mono (n k : ℕ) : (2 * n + 1)‼ ≤ (2 * (n + k) + 1)‼ := by
  induction k with
  | zero => simp
  | succ k ih =>
    rw [show 2 * (n + (k + 1)) + 1 = (2 * (n + k) + 1) + 2 by ring, Nat.doubleFactorial_add_two]
    exact ih.trans (Nat.le_mul_of_pos_left _ (by omega))

theorem coef_le (n k : ℕ) : coef n k ≤ (1 / ((2 * n + 1)‼ : ℝ)) * ((1 / 2) ^ k / (k ! : ℝ)) := by
  have h0 := dfac_pos (2 * n + 1)
  have h1 : (((2 * n + 1)‼ : ℕ) : ℝ) ≤ ((2 * (n + k) + 1)‼ : ℕ) := by exact_mod_cast dfac_mono n k
  have h2 := Nat.cast_pos (α := ℝ).2 k.factorial_pos
  rw [show (1 / ((2 * n + 1)‼ : ℝ)) * ((1 / 2) ^ k / (k ! : ℝ)) = 1 / (2 ^ k * (k ! : ℝ) * ((2 * n + 1)‼ : ℝ)) by
    rw [one_div_pow]; field_simp]
  unfold coef
  gcongr

theorem hermite_bound_hasSum (n : ℕ) (r : ℝ) :
    HasSum (fun k => (1 / ((2 * n + 1)‼ : ℝ)) * ((r ^ 2 / 2) ^ k / (k ! : ℝ)))
      ((1 / ((2 * n + 1)‼ : ℝ)) * Real.exp (r ^ 2 / 2)) := by
  have := NormedSpace.expSeries_div_hasSum_exp (𝔸 := ℝ) (r ^ 2 / 2)
  rw [← Real.exp_eq_exp_ℝ] at this
  exact this.mul_left _

theorem hermite_term_le (n k : ℕ) (r : ℝ) :
    r ^ (2 * k) * coef n k ≤ (1 / ((2 * n + 1)‼ : ℝ)) * ((r ^ 2 / 2) ^ k / (k ! : ℝ)) := by
  have h : 0 ≤ r ^ (2 * k) := by rw [pow_mul]; positivity
  refine (mul_le_mul_of_nonneg_left (coef_le n k) h).trans (le_of_eq ?_)
  have := Nat.cast_pos (α := ℝ).2 k.factorial_pos
  rw [pow_mul, div_pow, div_pow]
  field_simp
  try simp

theorem hermite_term_nonneg (n k : ℕ) (r : ℝ) : 0 ≤ r ^ (2 * k) * coef n k :=
  mul_nonneg (by rw [pow_mul]; positivity) (coef_pos n k).le

theorem hermite_summable (n : ℕ) (r : ℝ) : Summable (fun k => r ^ (2 * k) * coef n k) :=
  Summable.of_nonneg_of_le (fun k => hermite_term_nonneg n k r) (fun k => hermite_term_le n k r) (hermite_bound_hasSum n r).summable

/-- The remainder series. -/
noncomputable def hermite (n : ℕ) (r : ℝ) : ℝ := ∑' k, r ^ (2 * k) * coef n k

theorem hermite_le (n : ℕ) (r : ℝ) : hermite n r ≤ (1 / ((2 * n + 1)‼ : ℝ)) * Real.exp (r ^ 2 / 2) := by
  rw [← (hermite_bound_hasSum n r).tsum_eq]
  exact (hermite_summable n r).tsum_le_tsum (fun k => hermite_term_le n k r) (hermite_bound_hasSum n r).summable

theorem le_hermite (n : ℕ) (r : ℝ) : 1 / ((2 * n + 1)‼ : ℝ) ≤ hermite n r := by
  have := (hermite_summable n r).sum_le_tsum (range 1) (fun k _ => hermite_term_nonneg n k r)
  simpa [hermite, coef] using this

theorem hermite_rec (n : ℕ) (r : ℝ) : r ^ 2 * hermite (n + 2) r = hermite n r - (2 * n + 3) * hermite (n + 1) r := by
  have h0 := (hermite_summable n r).hasSum
  have h1 := ((hermite_summable (n + 1) r).hasSum).mul_left (2 * (n : ℝ) + 3)
  have h2 := ((hermite_summable (n + 2) r).hasSum).mul_left (r ^ 2)
  have hs := h0.sub h1
  have hz : (fun k => r ^ (2 * k) * coef n k - (2 * (n : ℝ) + 3) * (r ^ (2 * k) * coef (n + 1) k)) =
      fun k => r ^ (2 * k) * (2 * k * coef (n + 1) k) := by
    funext k; rw [coef_succ_left n k]; ring
  rw [hz] at hs
  have h3 := (hasSum_nat_add_iff' 1).2 hs
  simp only [sum_range_one, Nat.cast_zero, mul_zero, zero_mul, sub_zero] at h3
  have h4 : (fun k : ℕ => r ^ (2 * (k + 1)) * (2 * ((k + 1 : ℕ) : ℝ) * coef (n + 1) (k + 1))) =
      fun k => r ^ 2 * (r ^ (2 * k) * coef (n + 2) k) := by
    funext k; push_cast; rw [coef_shift]; ring
  rw [h4] at h3
  exact h2.unique h3

theorem hermite_zero (r : ℝ) : r * hermite 0 r = Real.sinh r := by
  have h := ((hermite_summable 0 r).hasSum).mul_left r
  refine h.unique ?_
  rw [show (fun k => r * (r ^ (2 * k) * coef 0 k)) = fun k => r ^ (2 * k + 1) / ((2 * k + 1)! : ℝ) from ?_]
  · exact Real.hasSum_sinh r
  funext k
  have := Nat.cast_pos (α := ℝ).2 k.factorial_pos
  have := dfac_pos (2 * k + 1)
  rw [Nat.factorial_eq_mul_doubleFactorial, Nat.doubleFactorial_two_mul]
  simp only [coef, zero_add]; push_cast
  field_simp
  try ring

theorem hermite_one (r : ℝ) : r ^ 3 * hermite 1 r = r * Real.cosh r - Real.sinh r := by
  have h := ((hermite_summable 1 r).hasSum).mul_left (r ^ 3)
  refine h.unique ?_
  have hs := ((Real.hasSum_cosh r).mul_left r).sub (Real.hasSum_sinh r)
  have h3 := (hasSum_nat_add_iff' 1).2 hs
  simp at h3
  rw [show (fun k => r ^ 3 * (r ^ (2 * k) * coef 1 k)) = fun k : ℕ => r * (r ^ (2 * (k + 1)) / ((2 * (k + 1))! : ℝ)) - r ^ (2 * (k + 1) + 1) / ((2 * (k + 1) + 1)! : ℝ) from ?_]
  · exact h3
  funext k
  have := Nat.cast_pos (α := ℝ).2 k.factorial_pos
  have := dfac_pos (2 * k + 1)
  have e1 : (2 * (k + 1))! = (2 * k + 2) * ((2 * k + 1)‼ * (2 ^ k * k !)) := by
    rw [show 2 * (k + 1) = (2 * k + 1) + 1 by ring, Nat.factorial_succ, Nat.factorial_eq_mul_doubleFactorial,
      Nat.doubleFactorial_two_mul]
  have e2 : (2 * (k + 1) + 1)! = (2 * k + 3) * ((2 * k + 2) * ((2 * k + 1)‼ * (2 ^ k * k !))) := by
    rw [Nat.factorial_succ, e1]; ring
  have e3 : (2 * (1 + k) + 1)‼ = (2 * k + 3) * (2 * k + 1)‼ := by
    rw [show 2 * (1 + k) + 1 = (2 * k + 1) + 2 by ring, Nat.doubleFactorial_add_two]
  rw [e2, e1]; simp only [coef]; rw [e3]; push_cast
  have h5 : (2 * (k : ℝ) + 2) ≠ 0 := by positivity
  have h6 : (2 * (k : ℝ) + 3) ≠ 0 := by positivity
  field_simp
  ring

/-- The integers that go with the recurrence, for r = u/v. -/
def intForm (a b u v : ℤ) : ℕ → ℤ
  | 0 => a
  | 1 => b
  | n + 2 => u ^ 2 * intForm a b u v n - (2 * n + 3) * v * intForm a b u v (n + 1)

theorem form_eq (u v : ℤ) (hv : v ≠ 0) (n : ℕ) :
    2 * Real.exp (u / v) * (v : ℝ) ^ n * (u / v : ℝ) ^ (2 * n + 1) * hermite n (u / v) =
      Real.exp (2 * (u / v)) * intForm 1 (u - v) u v n - intForm 1 (-(u + v)) u v n := by
  have hv' : (v : ℝ) ≠ 0 := by exact_mod_cast hv
  have hu : (u : ℝ) = u / v * v := by field_simp
  set r : ℝ := u / v with hr
  have hE : Real.exp (2 * r) = Real.exp r ^ 2 := by rw [← Real.exp_nat_mul]; norm_num
  have hI : Real.exp (-r) * Real.exp r = 1 := by rw [← Real.exp_add]; simp
  induction n using Nat.twoStepInduction with
  | zero =>
    have := hermite_zero r
    simp only [intForm, pow_zero, mul_one, Nat.mul_zero, zero_add, pow_one]
    rw [mul_assoc, this, Real.sinh_eq, hE]
    push_cast; nlinarith [hI]
  | one =>
    have := hermite_one r
    simp only [intForm, pow_one]
    rw [mul_assoc, show 2 * 1 + 1 = 3 from rfl, this, Real.sinh_eq, Real.cosh_eq, hE]
    push_cast; rw [hu]; linear_combination (-(r*v) - v) * (-1) * hI - 0 * hI
  | more n ih1 ih2 =>
    have h := hermite_rec n r
    have : 2 * Real.exp r * (v : ℝ) ^ (n + 2) * r ^ (2 * (n + 2) + 1) * hermite (n + 2) r =
        (v : ℝ) ^ 2 * r ^ 2 * (2 * Real.exp r * (v : ℝ) ^ n * r ^ (2 * n + 1) * hermite n r) -
        (2 * n + 3) * v * (2 * Real.exp r * (v : ℝ) ^ (n + 1) * r ^ (2 * (n + 1) + 1) * hermite (n + 1) r) := by
      have : hermite n r = r ^ 2 * hermite (n + 2) r + (2 * n + 3) * hermite (n + 1) r := by linarith
      rw [this]; ring
    rw [this, ih1, ih2]
    simp only [intForm]; push_cast
    rw [show (v:ℝ)^2 * r^2 = (r * v)^2 by ring, ← hu]; ring

theorem intForm_bound (b u v : ℤ) (W : ℤ) (N : ℕ) (hW : u ^ 2 + (2 * N + 3) * |v| ≤ W) (hb : |b| ≤ W) (h1 : 1 ≤ W) :
    ∀ n, n ≤ N → |intForm 1 b u v n| ≤ W ^ n := by
  intro n
  induction n using Nat.twoStepInduction with
  | zero => simp [intForm]
  | one => simpa [intForm] using fun _ => hb
  | more n ih1 ih2 =>
    intro hn
    have i1 := ih1 (by omega)
    have i2 := ih2 (by omega)
    have hle : W ^ n ≤ W ^ (n + 1) := pow_le_pow_right₀ h1 (by omega)
    have hnN : (2 * (n : ℤ) + 3) ≤ 2 * N + 3 := by omega
    have hp : 0 ≤ W ^ (n + 1) := by positivity
    calc |intForm 1 b u v (n + 2)| ≤ |u ^ 2 * intForm 1 b u v n| + |(2 * n + 3) * v * intForm 1 b u v (n + 1)| := by
          rw [intForm]; exact abs_sub _ _
      _ = u ^ 2 * |intForm 1 b u v n| + (2 * n + 3) * |v| * |intForm 1 b u v (n + 1)| := by
          rw [abs_mul, abs_mul, abs_mul, abs_of_nonneg (sq_nonneg u), abs_of_nonneg (show (0:ℤ) ≤ 2 * n + 3 by positivity)]
      _ ≤ u ^ 2 * W ^ (n + 1) + (2 * N + 3) * |v| * W ^ (n + 1) := by
          gcongr
          exact i1.trans hle
      _ = (u ^ 2 + (2 * N + 3) * |v|) * W ^ (n + 1) := by ring
      _ ≤ W * W ^ (n + 1) := by gcongr
      _ = W ^ (n + 2) := by ring

theorem exp_gap (u v : ℤ) (hv : 0 < v) (P Q : ℕ) (hQ : 0 < Q) (N : ℕ) (W : ℤ)
    (hW : u ^ 2 + (2 * N + 3) * |v| ≤ W) (hb : |u - v| ≤ W) (h1 : 1 ≤ W)
    (hsmall : 2 * Real.exp (u / v) * (v : ℝ) ^ N * |(u / v : ℝ)| ^ (2 * N + 1) * hermite N (u / v) ≤ 1 / (2 * Q)) :
    min (1 / (2 * (Q : ℝ))) (2 * Real.exp (u / v) * (v : ℝ) ^ N * |(u / v : ℝ)| ^ (2 * N + 1) * (1 / ((2 * N + 1)‼ : ℝ))) ≤
      |Real.exp (2 * (u / v)) - P / Q| * (W : ℝ) ^ N := by
  have hQ' : (0 : ℝ) < Q := by exact_mod_cast hQ
  have hv' : (0 : ℝ) < v := by exact_mod_cast hv
  have hf := form_eq u v hv.ne' N
  have hs : |((intForm 1 (u - v) u v N : ℤ) : ℝ)| ≤ (W : ℝ) ^ N := by
    exact_mod_cast intForm_bound (u - v) u v W N hW hb h1 N le_rfl
  set p : ℤ := intForm 1 (u - v) u v N
  set q : ℤ := intForm 1 (-(u + v)) u v N
  have hG : 0 < hermite N (u / v) := lt_of_lt_of_le (by have := dfac_pos (2 * N + 1); positivity) (le_hermite N _)
  have habs : |Real.exp (2 * (u / v)) * p - q| =
      2 * Real.exp (u / v) * (v : ℝ) ^ N * |(u / v : ℝ)| ^ (2 * N + 1) * hermite N (u / v) := by
    rw [← hf]; simp only [abs_mul, abs_pow, abs_of_pos hG, abs_of_pos hv', abs_of_pos (Real.exp_pos _), abs_two]
  have hD : 2 * Real.exp (u / v) * (v : ℝ) ^ N * |(u / v : ℝ)| ^ (2 * N + 1) * (1 / ((2 * N + 1)‼ : ℝ)) ≤
      |Real.exp (2 * (u / v)) * p - q| := by
    rw [habs]; gcongr; exact le_hermite N _
  have hp : |(Real.exp (2 * (u / v)) - P / Q) * p| ≤ |Real.exp (2 * (u / v)) - P / Q| * (W : ℝ) ^ N := by
    rw [abs_mul]; gcongr
  refine le_trans ?_ hp
  by_cases hz : (P : ℤ) * p - Q * q = 0
  · refine (min_le_right _ _).trans (hD.trans (le_of_eq ?_))
    have : (P : ℝ) * p - Q * q = 0 := by exact_mod_cast hz
    congr 1
    field_simp
    linarith
  · refine (min_le_left _ _).trans ?_
    have h1z : (1 : ℝ) ≤ |(P : ℝ) * p - Q * q| := by exact_mod_cast Int.one_le_abs hz
    have e : (Real.exp (2 * (u / v)) - P / Q) * p =
        (Real.exp (2 * (u / v)) * p - q) - ((P : ℝ) * p - Q * q) / Q := by field_simp; ring
    have h2 : 1 / (Q : ℝ) ≤ |((P : ℝ) * p - Q * q) / Q| := by
      rw [abs_div, abs_of_pos hQ']; gcongr
    have h3 := abs_sub_abs_le_abs_sub (((P : ℝ) * p - Q * q) / Q) (Real.exp (2 * (u / v)) * p - q)
    rw [e, abs_sub_comm]
    have h4 : 1 / (Q : ℝ) = 1 / (2 * Q) + 1 / (2 * Q) := by field_simp; norm_num
    rw [← habs] at hsmall
    linarith

theorem dfac_ge (m k : ℕ) : m ^ k ≤ (2 * (m + k) + 1)‼ := by
  induction k with
  | zero => exact Nat.doubleFactorial_pos _
  | succ k ih =>
    rw [show 2 * (m + (k + 1)) + 1 = (2 * (m + k) + 1) + 2 by ring, Nat.doubleFactorial_add_two, pow_succ, mul_comm]
    exact Nat.mul_le_mul (by omega) ih

theorem dfac_le (n : ℕ) : (2 * n + 1)‼ ≤ (2 * n + 1) ^ (n + 1) := by
  induction n with
  | zero => simp
  | succ n ih =>
    rw [show 2 * (n + 1) + 1 = (2 * n + 1) + 2 by ring, Nat.doubleFactorial_add_two, pow_succ, mul_comm]
    exact Nat.mul_le_mul (ih.trans (Nat.pow_le_pow_left (by omega) _)) le_rfl

theorem exp_le_two_pow (x : ℝ) (k : ℕ) (h : x ≤ k) : Real.exp x ≤ 2 ^ (2 * k) := by
  calc Real.exp x ≤ Real.exp k := Real.exp_le_exp.2 h
    _ = Real.exp 1 ^ k := by rw [← Real.exp_nat_mul]; simp
    _ ≤ 4 ^ k := by gcongr; exact (Real.exp_one_lt_d9.trans (by norm_num)).le
    _ = 2 ^ (2 * k) := by rw [pow_mul]; norm_num

theorem exp_sub_le (a b c : ℝ) (ha : a ≤ c) (hb : b ≤ c) : |Real.exp a - Real.exp b| ≤ Real.exp c * |a - b| := by
  wlog hab : b ≤ a generalizing a b with H
  · rw [abs_sub_comm, abs_sub_comm a]; exact H b a hb ha (by linarith)
  rw [abs_of_nonneg (sub_nonneg.2 (Real.exp_le_exp.2 hab)), abs_of_nonneg (sub_nonneg.2 hab)]
  have h := Real.add_one_le_exp (b - a)
  have e : Real.exp b = Real.exp a * Real.exp (b - a) := by rw [← Real.exp_add]; ring_nf
  have : Real.exp a - Real.exp b ≤ Real.exp a * (a - b) := by
    rw [e]; nlinarith [Real.exp_pos a]
  exact this.trans (mul_le_mul_of_nonneg_right (Real.exp_le_exp.2 ha) (sub_nonneg.2 hab))

theorem abs_log_le (K P Q : ℕ) (hP : 0 < P) (hQ : 0 < Q) (hP' : P ≤ 2 ^ K) (hQ' : Q ≤ 2 ^ K) :
    |Real.log ((P : ℝ) / Q)| ≤ K := by
  have hl : ∀ n : ℕ, 0 < n → n ≤ 2 ^ K → 0 ≤ Real.log n ∧ Real.log n ≤ K := by
    intro n h0 h1
    refine ⟨Real.log_natCast_nonneg n, ?_⟩
    have : Real.log n ≤ Real.log ((2 : ℝ) ^ K) :=
      Real.log_le_log (by exact_mod_cast h0) (by exact_mod_cast h1)
    rw [Real.log_pow] at this
    have h2 : Real.log 2 ≤ 1 := (Real.log_two_lt_d9.trans (by norm_num)).le
    nlinarith [Nat.cast_nonneg (α := ℝ) K]
  have hP0 : (P : ℝ) ≠ 0 := by exact_mod_cast hP.ne'
  have hQ0 : (Q : ℝ) ≠ 0 := by exact_mod_cast hQ.ne'
  rw [Real.log_div hP0 hQ0, abs_le]
  have := hl P hP hP'; have := hl Q hQ hQ'
  constructor <;> linarith



theorem weight_ge (K : ℕ) (a v : ℤ) (ha : |a| ≤ 2 ^ K) (hv : |v| ≤ 2 ^ (K + 1)) :
    a ^ 2 + (2 * ((2 * 2 ^ (4 * K + 6) : ℕ) : ℤ) + 3) * |v| ≤ 2 ^ (5 * K + 11) := by
  have h1 : a ^ 2 ≤ 2 ^ (2 * K) := by
    rw [← sq_abs, mul_comm, pow_mul]; gcongr
  have h3 : (2 * ((2 * 2 ^ (4 * K + 6) : ℕ) : ℤ) + 3) ≤ 2 ^ (4 * K + 9) := by
    push_cast
    have : (1 : ℤ) ≤ 2 ^ (4 * K) := one_le_pow₀ (by norm_num)
    rw [pow_add, pow_add]; omega
  calc a ^ 2 + (2 * ((2 * 2 ^ (4 * K + 6) : ℕ) : ℤ) + 3) * |v|
      ≤ 2 ^ (2 * K) + 2 ^ (4 * K + 9) * 2 ^ (K + 1) := by gcongr
    _ ≤ 2 ^ (5 * K + 10) + 2 ^ (5 * K + 10) := by
      rw [← pow_add, show 4 * K + 9 + (K + 1) = 5 * K + 10 by ring]
      gcongr
      · norm_num
      · omega
    _ = 2 ^ (5 * K + 11) := by ring

theorem weight_ge_start (K : ℕ) (a v : ℤ) (ha : |a| ≤ 2 ^ K) (hv : |v| ≤ 2 ^ (K + 1)) :
    |a - v| ≤ 2 ^ (5 * K + 11) := by
  have h4 : |a - v| ≤ |a| + |v| := abs_sub _ _
  have h5 : (2 : ℤ) ^ K ≤ 2 ^ (5 * K + 10) := pow_le_pow_right₀ (by norm_num) (by omega)
  have h6 : (2 : ℤ) ^ (K + 1) ≤ 2 ^ (5 * K + 10) := pow_le_pow_right₀ (by norm_num) (by omega)
  have : (2 : ℤ) ^ (5 * K + 11) = 2 ^ (5 * K + 10) + 2 ^ (5 * K + 10) := by ring
  omega

theorem remainder_small (K : ℕ) (hK : 1 ≤ K) (a v : ℤ) (hv : 0 < v) (Q : ℕ) (hQ : 0 < Q) (ha : |a| ≤ 2 ^ K)
    (hQ' : Q ≤ 2 ^ K) (hr : |(a / v : ℝ)| ≤ K) (M : ℕ) (hM : M = 2 ^ (4 * K + 6)) :
    2 * Real.exp (a / v) * (v : ℝ) ^ (2 * M) * |(a / v : ℝ)| ^ (2 * (2 * M) + 1) * hermite (2 * M) (a / v) ≤ 1 / (2 * Q) := by
  have hvR : (0 : ℝ) < v := by exact_mod_cast hv
  have hv1 : (1 : ℝ) ≤ v := by exact_mod_cast hv
  have haR : |(a : ℝ)| ≤ 2 ^ K := by exact_mod_cast ha
  have hKlt : (K : ℝ) ≤ 2 ^ K := by exact_mod_cast (Nat.lt_two_pow_self (n := K)).le
  have hQ0 : (0 : ℝ) < Q := by exact_mod_cast hQ
  have hQK : (Q : ℝ) ≤ 2 ^ K := by exact_mod_cast hQ'
  have e : (v : ℝ) ^ (2 * M) * |(a / v : ℝ)| ^ (2 * (2 * M)) = (|(a : ℝ)| ^ 2 / v) ^ (2 * M) := by
    rw [abs_div, abs_of_pos hvR, pow_mul (|(a : ℝ)| / v) 2, ← mul_pow]; congr 1; field_simp
  have hdf : (2 : ℝ) ^ ((4 * K + 6) * M) ≤ ((2 * (2 * M) + 1)‼ : ℕ) := by
    have h := dfac_ge M M
    rw [show M + M = 2 * M by omega] at h
    have e : M ^ M = 2 ^ ((4 * K + 6) * M) := by rw [pow_mul, ← hM]
    rw [e] at h
    exact_mod_cast h
  have hcore : (v : ℝ) ^ (2 * M) * |(a / v : ℝ)| ^ (2 * (2 * M) + 1) ≤ 2 ^ (4 * K * M) * 2 ^ K := by
    rw [pow_succ, ← mul_assoc, e]
    have h1 : |(a : ℝ)| ^ 2 / v ≤ 2 ^ (2 * K) := by
      rw [mul_comm 2 K, pow_mul]
      exact (div_le_self (by positivity) hv1).trans (by gcongr)
    calc (|(a : ℝ)| ^ 2 / v) ^ (2 * M) * |(a / v : ℝ)| ≤ (2 ^ (2 * K)) ^ (2 * M) * 2 ^ K := by
          gcongr; exact hr.trans hKlt
      _ = _ := by rw [← pow_mul]; congr 2; ring
  have hexp1 : Real.exp (a / v) ≤ 2 ^ (2 * K) := exp_le_two_pow _ _ ((le_abs_self _).trans hr)
  have hexp2 : Real.exp ((a / v) ^ 2 / 2) ≤ 2 ^ (2 * K ^ 2) := by
    apply exp_le_two_pow
    have : (a / v : ℝ) ^ 2 ≤ (K : ℝ) ^ 2 := by rw [← sq_abs]; gcongr
    push_cast; nlinarith [sq_nonneg (a / v : ℝ)]
  have hG : hermite (2 * M) (a / v) ≤ (1 / 2) ^ ((4 * K + 6) * M) * 2 ^ (2 * K ^ 2) := by
    refine (hermite_le (2 * M) _).trans ?_
    rw [one_div_pow]; gcongr
  have hGp : 0 ≤ hermite (2 * M) (a / v) := le_trans (by positivity) (le_hermite _ _)
  have hMbig : 1 + 2 * K + 4 * K * M + K + 2 * K ^ 2 + (K + 1) ≤ (4 * K + 6) * M := by
    have h1 : K ^ 2 ≤ 2 ^ (4 * K) := by
      calc K ^ 2 ≤ (2 ^ K) ^ 2 := Nat.pow_le_pow_left Nat.lt_two_pow_self.le 2
        _ = 2 ^ (2 * K) := by rw [← pow_mul, mul_comm]
        _ ≤ _ := Nat.pow_le_pow_right (by norm_num) (by omega)
    have h3 : K ≤ K ^ 2 := by nlinarith
    have h4 : M = 64 * 2 ^ (4 * K) := by rw [hM, pow_add]; ring
    have h6 : (4 * K + 6) * M = 4 * K * M + 6 * M := by ring
    generalize 4 * K * M = X at *
    have h5 : 1 ≤ 2 ^ (4 * K) := Nat.one_le_two_pow
    generalize 2 ^ (4 * K) = Y at *
    generalize K ^ 2 = Z at *
    omega
  generalize hX : 1 + 2 * K + 4 * K * M + K + 2 * K ^ 2 = X at hMbig
  calc 2 * Real.exp (a / v) * (v : ℝ) ^ (2 * M) * |(a / v : ℝ)| ^ (2 * (2 * M) + 1) * hermite (2 * M) (a / v)
      = 2 * Real.exp (a / v) * ((v : ℝ) ^ (2 * M) * |(a / v : ℝ)| ^ (2 * (2 * M) + 1)) * hermite (2 * M) (a / v) := by ring
    _ ≤ 2 * 2 ^ (2 * K) * (2 ^ (4 * K * M) * 2 ^ K) * ((1 / 2) ^ ((4 * K + 6) * M) * 2 ^ (2 * K ^ 2)) := by gcongr
    _ = 2 ^ X * (1 / 2) ^ ((4 * K + 6) * M) := by
      rw [← hX]; simp only [pow_add, pow_one]; ring
    _ ≤ 2 ^ X * (1 / 2) ^ (X + (K + 1)) :=
      mul_le_mul_of_nonneg_left (pow_le_pow_of_le_one (by norm_num) (by norm_num) hMbig) (by positivity)
    _ = (1 / 2) ^ (K + 1) := by
      rw [pow_add (1 / 2 : ℝ) _ (K + 1), ← mul_assoc, ← mul_pow]; norm_num
    _ ≤ 1 / (2 * Q) := by
      rw [one_div_pow, pow_succ, mul_comm ((2 : ℝ) ^ K)]; gcongr

theorem remainder_large (K : ℕ) (a v : ℤ) (hv : 0 < v) (Q : ℕ) (hQ : 0 < Q) (ha : a ≠ 0) (hvK : (v : ℝ) ≤ 2 ^ (K + 1))
    (hQ' : Q ≤ 2 ^ K) (hr : |(a / v : ℝ)| ≤ K) (N : ℕ) (hN : 2 * N + 1 ≤ 2 ^ (4 * K + 9)) :
    (1 / 2 : ℝ) ^ (2 * K + (5 * K + 10) * (2 * N + 1)) ≤
      min (1 / (2 * (Q : ℝ)))
        (2 * Real.exp (a / v) * (v : ℝ) ^ N * |(a / v : ℝ)| ^ (2 * N + 1) * (1 / ((2 * N + 1)‼ : ℝ))) := by
  have hvR : (0 : ℝ) < v := by exact_mod_cast hv
  have hv1 : (1 : ℝ) ≤ v := by exact_mod_cast hv
  have hQ0 : (0 : ℝ) < Q := by exact_mod_cast hQ
  have ha1 : (1 : ℝ) ≤ |(a : ℝ)| := by exact_mod_cast Int.one_le_abs ha
  have hrlow : (1 / 2 : ℝ) ^ (K + 1) ≤ |(a / v : ℝ)| := by
    rw [abs_div, abs_of_pos hvR, one_div_pow]
    gcongr
  refine le_min ?_ ?_
  · have hQK : (Q : ℝ) ≤ 2 ^ K := by exact_mod_cast hQ'
    calc (1 / 2 : ℝ) ^ (2 * K + (5 * K + 10) * (2 * N + 1)) ≤ (1 / 2) ^ (K + 1) :=
          pow_le_pow_of_le_one (by norm_num) (by norm_num) (by nlinarith)
      _ ≤ 1 / (2 * Q) := by rw [one_div_pow, pow_succ, mul_comm ((2 : ℝ) ^ K)]; gcongr
  · have he : (1 / 2 : ℝ) ^ (2 * K) ≤ Real.exp (a / v) := by
      have h1 : Real.exp (-(a / v)) ≤ 2 ^ (2 * K) := exp_le_two_pow _ _ ((neg_le_abs _).trans hr)
      rw [Real.exp_neg] at h1
      rw [one_div_pow, one_div]
      exact inv_le_of_inv_le₀ (Real.exp_pos _) h1
    have hd : (1 / 2 : ℝ) ^ ((4 * K + 9) * (2 * N + 1)) ≤ 1 / ((2 * N + 1)‼ : ℝ) := by
      rw [one_div_pow]
      have h1 : (2 * N + 1)‼ ≤ 2 ^ ((4 * K + 9) * (2 * N + 1)) := by
        calc (2 * N + 1)‼ ≤ (2 * N + 1) ^ (N + 1) := dfac_le N
          _ ≤ (2 ^ (4 * K + 9)) ^ (N + 1) := Nat.pow_le_pow_left hN _
          _ ≤ (2 ^ (4 * K + 9)) ^ (2 * N + 1) := Nat.pow_le_pow_right (by positivity) (by omega)
          _ = _ := by rw [← pow_mul]
      have h2 := dfac_pos (2 * N + 1)
      gcongr
      exact_mod_cast h1
    calc (1 / 2 : ℝ) ^ (2 * K + (5 * K + 10) * (2 * N + 1))
        = 1 * (1 / 2) ^ (2 * K) * 1 * ((1 / 2) ^ (K + 1)) ^ (2 * N + 1) * (1 / 2) ^ ((4 * K + 9) * (2 * N + 1)) := by
          rw [← pow_mul, one_mul, mul_one, ← pow_add, ← pow_add]; congr 1; ring
      _ ≤ _ := by
          gcongr
          · norm_num
          · exact one_le_pow₀ hv1

theorem exponent_le (K M : ℕ) (hM : M = 2 ^ (4 * K + 6)) :
    2 * K + (5 * K + 10) * (2 * (2 * M) + 1) + (2 * (K + 1) + (5 * K + 11) * (2 * M)) ≤ 2 ^ (5 * K + 20) := by
  have hM' : 3 * (2 * M) + 2 ≤ 2 ^ (4 * K + 9) := by
    have : 1 ≤ 2 ^ (4 * K) := Nat.one_le_two_pow
    rw [hM, pow_add, pow_add]; omega
  have h2 : 5 * K + 12 ≤ 2 ^ (K + 11) := by
    have := Nat.lt_two_pow_self (n := K)
    rw [pow_add]; omega
  have h3 : 4 * K + 2 ≤ 2 ^ (4 * K + 9) := by
    have := Nat.lt_two_pow_self (n := 4 * K)
    rw [pow_add]; omega
  calc 2 * K + (5 * K + 10) * (2 * (2 * M) + 1) + (2 * (K + 1) + (5 * K + 11) * (2 * M))
      ≤ (5 * K + 11) * (3 * (2 * M) + 2) + (4 * K + 2) := by nlinarith
    _ ≤ (5 * K + 11) * 2 ^ (4 * K + 9) + 2 ^ (4 * K + 9) := by gcongr
    _ = (5 * K + 12) * 2 ^ (4 * K + 9) := by ring
    _ ≤ 2 ^ (K + 11) * 2 ^ (4 * K + 9) := by gcongr
    _ = 2 ^ (5 * K + 20) := by rw [← pow_add]; congr 1; ring

theorem log_gap_near (K : ℕ) (hK : 1 ≤ K) (a b : ℤ) (P Q : ℕ) (ha : a ≠ 0) (hb : 0 < b)
    (ha' : |a| ≤ 2 ^ K) (hb' : b ≤ 2 ^ K) (hP : 0 < P) (hQ : 0 < Q) (hP' : P ≤ 2 ^ K) (hQ' : Q ≤ 2 ^ K)
    (hfar : |Real.log ((P : ℝ) / Q) - a / b| < 1) (M : ℕ) (hM : M = 2 ^ (4 * K + 6)) :
    (1 / 2 : ℝ) ^ (2 * K + (5 * K + 10) * (2 * (2 * M) + 1)) ≤
      2 ^ (2 * (K + 1)) * |Real.log ((P : ℝ) / Q) - a / b| * 2 ^ ((5 * K + 11) * (2 * M)) := by
  have hL := abs_log_le K P Q hP hQ hP' hQ'
  have hP0 : (0 : ℝ) < P := by exact_mod_cast hP
  have hQ0 : (0 : ℝ) < Q := by exact_mod_cast hQ
  have hbR : (0 : ℝ) < b := by exact_mod_cast hb
  have hexpL : (P : ℝ) / Q = Real.exp (Real.log ((P : ℝ) / Q)) := by rw [Real.exp_log (by positivity)]
  set L := Real.log ((P : ℝ) / Q) with hLd
  have hK1 : (1 : ℝ) ≤ K := by exact_mod_cast hK
  have hy : |(a : ℝ) / b| ≤ K + 1 := by
    have := abs_sub_abs_le_abs_sub ((a : ℝ) / b) L
    rw [abs_sub_comm] at this; linarith
  obtain ⟨v, hvd⟩ : ∃ v : ℤ, v = 2 * b := ⟨_, rfl⟩
  have hv : 0 < v := by omega
  have hr : 2 * ((a : ℝ) / v) = a / b := by rw [hvd]; push_cast; field_simp
  have hrK : |(a / v : ℝ)| ≤ K := by
    have : |(a / v : ℝ)| = |(a : ℝ) / b| / 2 := by rw [← hr, abs_mul, abs_two]; ring
    rw [this]; linarith
  have hvK : v ≤ 2 ^ (K + 1) := by rw [hvd, pow_succ]; omega
  have hvabs : |v| ≤ 2 ^ (K + 1) := by rwa [abs_of_pos hv]
  have hN : 2 * (2 * M) + 1 ≤ 2 ^ (4 * K + 9) := by
    have : 1 ≤ 2 ^ (4 * K) := Nat.one_le_two_pow
    rw [hM, pow_add, pow_add]; omega
  have hgap := exp_gap a v hv P Q hQ (2 * M) (2 ^ (5 * K + 11)) (by rw [hM]; exact weight_ge K a v ha' hvabs)
    (weight_ge_start K a v ha' hvabs) (one_le_pow₀ (by norm_num))
    (remainder_small K hK a v hv Q hQ ha' hQ' hrK M hM)
  have hlow := remainder_large K a v hv Q hQ ha (by exact_mod_cast hvK) hQ' hrK (2 * M) hN
  have hdiff : |Real.exp (2 * (a / v)) - P / Q| ≤ 2 ^ (2 * (K + 1)) * |L - a / b| := by
    rw [hexpL, abs_sub_comm L, ← hr]
    refine (exp_sub_le _ _ (K + 1) ?_ ?_).trans ?_
    · rw [hr]; exact (le_abs_self _).trans hy
    · exact ((le_abs_self _).trans hL).trans (by linarith)
    · gcongr
      exact exp_le_two_pow _ _ (by push_cast; rfl)
  have hfin := (hlow.trans hgap).trans (mul_le_mul_of_nonneg_right hdiff (by positivity))
  rw [pow_mul _ (5 * K + 11)]
  exact_mod_cast hfin

/-- The gap: for x = P/Q and a/b ≠ 0 with all four at most 2^K, ln x and a/b are at least 2^-(2^(5K+20)) apart. -/
theorem log_gap (K : ℕ) (hK : 1 ≤ K) (a b : ℤ) (P Q : ℕ) (ha : a ≠ 0) (hb : 0 < b)
    (ha' : |a| ≤ 2 ^ K) (hb' : b ≤ 2 ^ K) (hP : 0 < P) (hQ : 0 < Q) (hP' : P ≤ 2 ^ K) (hQ' : Q ≤ 2 ^ K) :
    (1 / 2 : ℝ) ^ (2 ^ (5 * K + 20)) ≤ |Real.log ((P : ℝ) / Q) - a / b| := by
  rcases le_or_gt 1 |Real.log ((P : ℝ) / Q) - a / b| with hfar | hfar
  · exact (pow_le_one₀ (by norm_num) (by norm_num)).trans hfar
  obtain ⟨M, hM⟩ : ∃ M : ℕ, M = 2 ^ (4 * K + 6) := ⟨_, rfl⟩
  have h := log_gap_near K hK a b P Q ha hb ha' hb' hP hQ hP' hQ' hfar M hM
  have hE := exponent_le K M hM
  generalize 2 * K + (5 * K + 10) * (2 * (2 * M) + 1) = X at *
  have h2 : (2 : ℝ) ^ (2 * (K + 1)) * |Real.log ((P : ℝ) / Q) - a / b| * 2 ^ ((5 * K + 11) * (2 * M)) =
      |Real.log ((P : ℝ) / Q) - a / b| * 2 ^ (2 * (K + 1) + (5 * K + 11) * (2 * M)) := by rw [pow_add 2]; ring
  rw [h2] at h
  generalize 2 * (K + 1) + (5 * K + 11) * (2 * M) = Y at *
  generalize |Real.log ((P : ℝ) / Q) - a / b| = D at *
  calc (1 / 2 : ℝ) ^ (2 ^ (5 * K + 20)) ≤ (1 / 2) ^ (X + Y) := pow_le_pow_of_le_one (by norm_num) (by norm_num) hE
    _ = (1 / 2) ^ X * (1 / 2) ^ Y := pow_add _ _ _
    _ ≤ D * 2 ^ Y * (1 / 2) ^ Y := by gcongr
    _ = D := by rw [mul_assoc, ← mul_pow]; norm_num

end Sys2Proof.Laws.ExpGap
end

