-- ==== Sys2Proof/Laws/Round.lean ====
section
/-! SUPPORT. Rounding (spec/00_scope.md R10): the search of Machine/Binary32.lean finds the nearest pattern, ties to even,
for rationals and for square roots of rationals; a pattern to which both ends of an interval round is the rounding of
everything between; and between two rationals that round differently there is a midpoint of bounded size. -/

namespace Sys2Proof.Laws

open Sys2Proof.Machine

/-- The value of a magnitude pattern. -/
noncomputable def magVal (m : ℕ) : ℝ := (unitsOf m : ℝ) / 2 ^ 149

theorem unitsOf_lt_succ (m : ℕ) : unitsOf m < unitsOf (m + 1) := by
  unfold unitsOf
  rcases Nat.lt_or_ge (m % 2 ^ 23 + 1) (2 ^ 23) with h | h
  · have h1 : (m + 1) / 2 ^ 23 = m / 2 ^ 23 := by omega
    have h2 : (m + 1) % 2 ^ 23 = m % 2 ^ 23 + 1 := by omega
    rw [h1, h2]
    split
    · omega
    · exact Nat.mul_lt_mul_of_pos_right (by omega) (by positivity)
  · have h1 : (m + 1) / 2 ^ 23 = m / 2 ^ 23 + 1 := by omega
    have h2 : (m + 1) % 2 ^ 23 = 0 := by omega
    have h3 : m % 2 ^ 23 = 2 ^ 23 - 1 := by omega
    rw [h1, h2, h3, if_neg (Nat.succ_ne_zero _)]
    split
    · next h0 => rw [h0]; simp; omega
    · next h0 =>
      obtain ⟨e, he⟩ : ∃ e, m / 2 ^ 23 = e + 1 := ⟨m / 2 ^ 23 - 1, by omega⟩
      rw [he]
      simp only [Nat.add_sub_cancel, pow_succ 2 e]
      have := Nat.pow_pos (n := e) (show 0 < 2 by norm_num)
      omega

theorem unitsOf_strictMono : StrictMono unitsOf := strictMono_nat_of_lt_succ unitsOf_lt_succ

theorem magVal_strictMono : StrictMono magVal := fun a b h => by
  unfold magVal
  have := unitsOf_strictMono h
  gcongr

theorem magVal_zero : magVal 0 = 0 := by simp [magVal, unitsOf]

theorem magVal_nonneg (m : ℕ) : 0 ≤ magVal m := by unfold magVal; positivity

theorem midpoint_eq (m : ℕ) : (midpointUnits m : ℝ) / 2 ^ 150 = (magVal (m - 1) + magVal m) / 2 := by
  unfold midpointUnits magVal; push_cast; ring

theorem midpoint_inf : (midpointUnits infMagnitude : ℝ) / 2 ^ 150 = overflowBound := by
  have h : midpointUnits infMagnitude = 2 ^ 253 * (2 ^ 25 - 1) := by decide +kernel
  rw [h]; unfold overflowBound; norm_num

theorem midpoint_mono {a b : ℕ} (h : a ≤ b) : midpointUnits a ≤ midpointUnits b :=
  Nat.add_le_add (unitsOf_strictMono.monotone (by omega)) (unitsOf_strictMono.monotone h)

theorem midpoint_strictMono {a b : ℕ} (h : a < b) : midpointUnits a < midpointUnits b :=
  Nat.add_lt_add_of_le_of_lt (unitsOf_strictMono.monotone (by omega)) (unitsOf_strictMono h)

theorem midpoint_le {m : ℕ} (h : m ≤ infMagnitude) : midpointUnits m ≤ 2 ^ 278 :=
  (midpoint_mono h).trans (by decide +kernel)

/-- `cmp` compares the real y with the multiples of 2^-150. -/
structure Compares (cmp : ℕ → Ordering) (y : ℝ) : Prop where
  gt : ∀ k, cmp k = .gt ↔ (k : ℝ) / 2 ^ 150 < y
  eq : ∀ k, cmp k = .eq ↔ (k : ℝ) / 2 ^ 150 = y

theorem Compares.up_iff {cmp y} (h : Compares cmp y) (m : ℕ) :
    roundsUpTo cmp m = true ↔
      (midpointUnits m : ℝ) / 2 ^ 150 < y ∨ ((midpointUnits m : ℝ) / 2 ^ 150 = y ∧ m % 2 = 0) := by
  have hg := h.gt (midpointUnits m)
  have he := h.eq (midpointUnits m)
  unfold roundsUpTo
  cases hc : cmp (midpointUnits m) with
  | gt => simp [hg.1 hc]
  | eq => have := he.1 hc; simp [this]
  | lt =>
    have h1 : ¬ (midpointUnits m : ℝ) / 2 ^ 150 < y := fun hh => by simp [hg.2 hh] at hc
    have h2 : ¬ (midpointUnits m : ℝ) / 2 ^ 150 = y := fun hh => by simp [he.2 hh] at hc
    simp [h1, h2]

theorem Compares.up_anti {cmp y} (h : Compares cmp y) {a b : ℕ} (hab : a ≤ b) (hb : roundsUpTo cmp b = true) :
    roundsUpTo cmp a = true := by
  rcases hab.eq_or_lt with rfl | hlt
  · exact hb
  rw [h.up_iff] at hb ⊢
  have : (midpointUnits a : ℝ) / 2 ^ 150 < (midpointUnits b : ℝ) / 2 ^ 150 := by
    have := midpoint_strictMono hlt
    gcongr
  rcases hb with hb | hb
  · exact .inl (this.trans hb)
  · exact .inl (hb.1 ▸ this)

/-- What the search leaves: the last pattern that is rounded up to. -/
structure LastUp (cmp : ℕ → Ordering) (r : ℕ) : Prop where
  le : r ≤ infMagnitude
  up : r = 0 ∨ roundsUpTo cmp r = true
  last : ∀ c, r < c → c ≤ infMagnitude → roundsUpTo cmp c = false

theorem roundFrom_last {cmp y} (h : Compares cmp y) : ∀ (k acc : ℕ), acc ≤ infMagnitude →
    (acc = 0 ∨ roundsUpTo cmp acc = true) →
    (∀ c, acc + 2 ^ k ≤ c → c ≤ infMagnitude → roundsUpTo cmp c = false) → LastUp cmp (roundFrom cmp k acc) := by
  intro k
  induction k with
  | zero => exact fun acc h1 h2 h3 => ⟨h1, h2, fun c hc hi => h3 c (by rw [pow_zero]; exact hc) hi⟩
  | succ k ih =>
    intro acc h1 h2 h3
    rw [roundFrom]
    split
    · next hc => exact ih _ hc.1 (.inr hc.2) fun c hcc hi => h3 c (by rw [pow_succ]; omega) hi
    · next hc =>
      refine ih _ h1 h2 fun c hcc hi => ?_
      by_contra hu
      exact hc ⟨hcc.trans hi, h.up_anti hcc (by simpa using hu)⟩

theorem roundMagnitude_last {cmp y} (h : Compares cmp y) : LastUp cmp (roundMagnitude cmp) :=
  roundFrom_last h 31 0 (Nat.zero_le _) (.inl rfl) fun c hc hi => by
    exfalso; unfold infMagnitude at hi; omega

/-- A magnitude pattern is the rounding of y ≥ 0. -/
structure MagRounds (y : ℝ) (r : ℕ) : Prop where
  le : r ≤ infMagnitude
  overflow : overflowBound ≤ y → r = infMagnitude
  finite : y < overflowBound → r < infMagnitude
  nearest : y < overflowBound → ∀ c, |magVal r - y| ≤ |magVal c - y|
  even : y < overflowBound → ∀ c, c ≠ r → |magVal c - y| = |magVal r - y| → r % 2 = 0

theorem LastUp.rounds {cmp y r} (h : Compares cmp y) (hr : LastUp cmp r) : MagRounds y r := by
  have hlow : r = 0 ∨ (magVal (r - 1) + magVal r) / 2 ≤ y := by
    refine hr.up.imp_right fun hu => ?_
    rw [← midpoint_eq]
    rcases (h.up_iff r).1 hu with h1 | h1
    · exact h1.le
    · exact h1.1.le
  have hfin : y < overflowBound → r < infMagnitude := by
    intro hlt
    refine lt_of_le_of_ne hr.le fun he => ?_
    rcases hr.up with h0 | hu
    · rw [he] at h0; exact absurd h0 (by decide)
    · rw [he] at hu
      rcases (h.up_iff _).1 hu with h1 | h1
      · rw [midpoint_inf] at h1; linarith
      · rw [midpoint_inf] at h1; linarith [h1.1]
  have hhigh : y < overflowBound → y ≤ (magVal r + magVal (r + 1)) / 2 ∧
      (y = (magVal r + magVal (r + 1)) / 2 → r % 2 = 0) := by
    intro hlt
    have h1 := hr.last (r + 1) (Nat.lt_succ_self r) (hfin hlt)
    have h2 : ¬ roundsUpTo cmp (r + 1) = true := by simp [h1]
    rw [h.up_iff, midpoint_eq, Nat.add_sub_cancel] at h2
    push Not at h2
    refine ⟨h2.1, fun he => ?_⟩
    have := h2.2 he.symm
    omega
  refine ⟨hr.le, ?_, hfin, ?_, ?_⟩
  · intro hov
    by_contra hne
    have hlt : r < infMagnitude := lt_of_le_of_ne hr.le hne
    have h1 := hr.last infMagnitude hlt le_rfl
    have h2 : roundsUpTo cmp infMagnitude = true := by
      rw [h.up_iff, midpoint_inf]
      rcases hov.eq_or_lt with he | hl
      · exact .inr ⟨he, by decide⟩
      · exact .inl hl
    simp [h1] at h2
  · intro hlt c
    rcases Nat.lt_trichotomy c r with hc | rfl | hc
    · have h1 : magVal c ≤ magVal (r - 1) := magVal_strictMono.monotone (by omega)
      have h2 : magVal (r - 1) < magVal r := magVal_strictMono (by omega)
      have h3 := hlow.resolve_left (by omega)
      have h4 : 0 ≤ y - magVal c := by linarith
      rw [abs_sub_comm (magVal c), abs_of_nonneg h4, abs_le]
      constructor
      · linarith [(hhigh hlt).1, magVal_strictMono (Nat.lt_succ_self r)]
      · linarith
    · exact le_rfl
    · have h1 : magVal (r + 1) ≤ magVal c := magVal_strictMono.monotone hc
      have h2 := (hhigh hlt).1
      have h5 : magVal r < magVal (r + 1) := magVal_strictMono (Nat.lt_succ_self r)
      have h4 : 0 ≤ magVal c - y := by linarith
      rw [abs_of_nonneg h4, abs_le]
      constructor
      · linarith
      · rcases hlow with h0 | h3
        · subst h0; rw [magVal_zero] at *; linarith
        · have : magVal (r - 1) ≤ magVal r := magVal_strictMono.monotone (by omega)
          linarith
  · intro hlt c hcr heq
    rcases Nat.lt_or_gt_of_ne hcr with hc | hc
    · have h1 : magVal c ≤ magVal (r - 1) := magVal_strictMono.monotone (by omega)
      have h2 : magVal (r - 1) < magVal r := magVal_strictMono (by omega)
      have h3 := hlow.resolve_left (by omega)
      have h4 : 0 ≤ y - magVal c := by linarith
      rw [abs_sub_comm, abs_of_nonneg h4] at heq
      have h5 : magVal r - y ≤ (magVal r - magVal (r - 1)) / 2 := by linarith
      rcases le_total y (magVal r) with hyr | hyr
      · rw [abs_of_nonneg (by linarith)] at heq
        have hmid : (magVal (r - 1) + magVal r) / 2 = y := by linarith
        rcases hr.up with h0 | hu
        · omega
        · rcases (h.up_iff r).1 hu with h6 | h6
          · rw [midpoint_eq, hmid] at h6; exact absurd h6 (lt_irrefl _)
          · exact h6.2
      · rw [abs_of_nonpos (by linarith)] at heq; linarith
    · have h1 : magVal (r + 1) ≤ magVal c := magVal_strictMono.monotone hc
      have h2 := hhigh hlt
      have h5 : magVal r < magVal (r + 1) := magVal_strictMono (Nat.lt_succ_self r)
      have h4 : 0 ≤ magVal c - y := by linarith [h2.1]
      rw [abs_of_nonneg h4] at heq
      rcases le_total (magVal r) y with hyr | hyr
      · rw [abs_of_nonpos (by linarith)] at heq
        exact h2.2 (by linarith [h2.1])
      · rw [abs_of_nonneg (by linarith)] at heq; linarith

theorem roundMagnitude_rounds {cmp y} (h : Compares cmp y) : MagRounds y (roundMagnitude cmp) :=
  (roundMagnitude_last h).rounds h

/-- The word of a sign and a magnitude pattern. -/
def signedWord (neg : Bool) (r : ℕ) : Word := BitVec.ofNat 32 ((if neg then 2 ^ 31 else 0) + r)

theorem signedWord_toNat (neg : Bool) {r : ℕ} (hr : r < 2 ^ 31) :
    (signedWord neg r).toNat = (if neg then 2 ^ 31 else 0) + r := by
  unfold signedWord
  rw [BitVec.toNat_ofNat, Nat.mod_eq_of_lt]
  cases neg <;> simp <;> omega

theorem signedWord_sign (neg : Bool) {r : ℕ} (hr : r < 2 ^ 31) : (signedWord neg r).getLsbD 31 = neg := by
  rw [BitVec.getLsbD, signedWord_toNat neg hr, Nat.testBit_eq_decide_div_mod_eq]
  cases neg <;> simp <;> omega

theorem signedWord_magnitude (neg : Bool) {r : ℕ} (hr : r < 2 ^ 31) : magnitude (signedWord neg r) = r := by
  rw [magnitude, signedWord_toNat neg hr]
  cases neg <;> simp <;> omega

theorem signedWord_low (neg : Bool) {r : ℕ} (hr : r < 2 ^ 31) (h : r % 2 = 0) :
    (signedWord neg r).getLsbD 0 = false := by
  rw [BitVec.getLsbD, signedWord_toNat neg hr, Nat.testBit_eq_decide_div_mod_eq]
  cases neg <;> simp <;> omega

theorem low_bit (b : Word) : b.getLsbD 0 = false ↔ magnitude b % 2 = 0 := by
  rw [BitVec.getLsbD, Nat.testBit_eq_decide_div_mod_eq, magnitude]
  simp

theorem magnitude_lt (b : Word) : magnitude b < 2 ^ 31 := Nat.mod_lt _ (by positivity)

theorem isFinite_iff (b : Word) : isFinite b = true ↔ magnitude b < infMagnitude := by simp [isFinite]

theorem isFinite_signedWord (neg : Bool) {r : ℕ} (hr : r < infMagnitude) : isFinite (signedWord neg r) = true := by
  rw [isFinite_iff, signedWord_magnitude neg (hr.trans (by decide))]; exact hr

theorem real_of_finite {b : Word} (h : isFinite b = true) : real b = finiteValue b := by
  have h1 : ¬ isNaN b = true := by rw [isFinite_iff] at h; simp [isNaN]; omega
  simp [real, dec32, h1, h]

theorem real_of_not_finite {b : Word} (h : isFinite b = false) : real b = 0 := by
  unfold real dec32
  by_cases hn : isNaN b = true <;> simp [h, hn]

/-- The value of a finite pattern, by its sign and magnitude. -/
theorem real_eq {b : Word} (h : isFinite b = true) :
    (real b : ℝ) = if b.getLsbD 31 then -magVal (magnitude b) else magVal (magnitude b) := by
  rw [real_of_finite h, finiteValue, magVal]
  split <;> push_cast <;> rfl

theorem abs_real {b : Word} (h : isFinite b = true) : |(real b : ℝ)| = magVal (magnitude b) := by
  rw [real_eq h]
  have := magVal_nonneg (magnitude b)
  split
  · rw [abs_neg, abs_of_nonneg this]
  · exact abs_of_nonneg this

theorem magVal_inj {a b : ℕ} : magVal a = magVal b ↔ a = b := magVal_strictMono.injective.eq_iff

theorem abs_sub_signed {b : Word} (h : isFinite b = true) (x : ℝ) (hs : b.getLsbD 31 = true ↔ x < 0) :
    |(real b : ℝ) - x| = |magVal (magnitude b) - abs x| := by
  rw [real_eq h]
  by_cases hx : x < 0
  · rw [if_pos (hs.2 hx), abs_of_neg hx, ← abs_neg]; congr 1; ring
  · rw [if_neg (fun hh => hx (hs.1 hh)), abs_of_nonneg (not_lt.1 hx)]

/-- However the sign of a pattern stands to that of x, x is at least as far from it as |x| is from its magnitude. -/
theorem le_abs_sub {b : Word} (h : isFinite b = true) (x : ℝ) : |magVal (magnitude b) - abs x| ≤ |(real b : ℝ) - x| := by
  rw [← abs_real h]
  exact abs_abs_sub_abs_le _ _

theorem isRne32_of {x : ℝ} {b : Word} (zero : x = 0 → b = 0#32)
    (overflow : overflowBound ≤ |x| → b = if x < 0 then 0xFF800000#32 else 0x7F800000#32)
    (finite : |x| < overflowBound → isFinite b = true) (sign : |x| < overflowBound → (b.getLsbD 31 = true ↔ x < 0))
    (nearest : |x| < overflowBound → ∀ c, isFinite c = true → |(real b : ℝ) - x| ≤ |(real c : ℝ) - x|)
    (even : |x| < overflowBound → ∀ c, isFinite c = true → real c ≠ real b →
      |(real c : ℝ) - x| = |(real b : ℝ) - x| → b.getLsbD 0 = false) : IsRne32 x b :=
  ⟨⟨zero, overflow, finite, nearest, even⟩, sign⟩

/-- A word with the sign of x ≠ 0 and a magnitude to which |x| rounds is the rounding of x (R10). -/
theorem isRne32_of_mag {x : ℝ} (hx : x ≠ 0) {r : ℕ} (h : MagRounds |x| r) (neg : Bool) (hneg : neg = true ↔ x < 0) :
    IsRne32 x (signedWord neg r) := by
  have hr31 : r < 2 ^ 31 := lt_of_le_of_lt h.le (by decide)
  have hs := signedWord_sign neg hr31
  have hm := signedWord_magnitude neg hr31
  have hfin : |x| < overflowBound → isFinite (signedWord neg r) = true := fun hl =>
    isFinite_signedWord neg (h.finite hl)
  have hsign : (signedWord neg r).getLsbD 31 = true ↔ x < 0 := by rw [hs]; exact hneg
  refine isRne32_of (fun h0 => absurd h0 hx) ?_ hfin (fun _ => hsign) ?_ ?_
  · intro ho
    rw [h.overflow ho]
    by_cases hx0 : x < 0
    · rw [if_pos hx0, hneg.2 hx0]; decide
    · have : neg = false := by
        cases neg
        · rfl
        · exact absurd (hneg.1 rfl) hx0
      rw [if_neg hx0, this]; decide
  · intro hl c hc
    rw [abs_sub_signed (hfin hl) x hsign, hm]
    exact (h.nearest hl _).trans (le_abs_sub hc x)
  · intro hl c hc hne heq
    rw [abs_sub_signed (hfin hl) x hsign, hm] at heq
    refine signedWord_low neg hr31 ?_
    have h1 := le_abs_sub hc x
    rw [heq] at h1
    have h2 := le_antisymm h1 (h.nearest hl _)
    by_cases hcr : magnitude c = r
    · -- the same magnitude with the other sign: both are 0
      exfalso
      apply hne
      have e1 := abs_real hc
      have e2 := abs_real (hfin hl)
      rw [hm] at e2; rw [hcr] at e1
      have : (real c : ℝ) = real (signedWord neg r) := by
        rcases abs_eq_abs.1 (e1.trans e2.symm) with h3 | h3
        · exact h3
        · have h4 : |(real c : ℝ) - x| = |(real (signedWord neg r) : ℝ) - x| := by
            rw [heq, abs_sub_signed (hfin hl) x hsign, hm]
          rw [h3] at h4
          have h5 : (real (signedWord neg r) : ℝ) = 0 := by
            rcases abs_eq_abs.1 h4 with h6 | h6
            · linarith
            · exfalso; apply hx; linarith
          rw [h3, h5]; simp
      exact_mod_cast this
    · exact h.even hl _ hcr h2

theorem isRne32_zero : IsRne32 0 (0#32) where
  zero _ := rfl
  overflow h := by exfalso; rw [abs_zero] at h; unfold overflowBound at h; norm_num at h
  finite _ := by decide
  sign _ := by simp
  nearest _ c _ := by
    have : real (0#32) = 0 := by decide +kernel
    simp [this]
  even _ _ _ _ _ := by decide

theorem abs_eq_num_div (x : ℚ) : |(x : ℝ)| = (x.num.natAbs : ℝ) / x.den := by
  have h : |x| = (x.num.natAbs : ℚ) / x.den := by
    conv_lhs => rw [← Rat.num_div_den x]
    rw [abs_div, Nat.abs_cast, ← Int.cast_abs, Int.abs_eq_natAbs, Int.cast_natCast]
  rw [← Rat.cast_abs, h]; push_cast; rfl

theorem compareRat_compares (x : ℚ) : Compares (compareRat x) |(x : ℝ)| := by
  have hd : (0 : ℝ) < x.den := by exact_mod_cast x.den_pos
  have e : ∀ k : ℕ, (k : ℝ) / 2 ^ 150 < |(x : ℝ)| ↔ k * x.den < x.num.natAbs * 2 ^ 150 := by
    intro k
    rw [abs_eq_num_div, div_lt_div_iff₀ (by positivity) hd]
    exact_mod_cast Iff.rfl
  have e' : ∀ k : ℕ, (k : ℝ) / 2 ^ 150 = |(x : ℝ)| ↔ x.num.natAbs * 2 ^ 150 = k * x.den := by
    intro k
    rw [abs_eq_num_div, div_eq_div_iff (by positivity) hd.ne', eq_comm]
    exact_mod_cast Iff.rfl
  constructor
  · intro k; rw [e, compareRat, Nat.compare_eq_gt]
  · intro k; rw [e', compareRat, Nat.compare_eq_eq]

theorem compareSqrt_compares (x : ℚ) (hx : 0 ≤ x) : Compares (compareSqrt x) (Real.sqrt x) := by
  have hd : (0 : ℝ) < x.den := by exact_mod_cast x.den_pos
  have hx' : (0 : ℝ) ≤ x := by exact_mod_cast hx
  have hxx : (x : ℝ) = (x.num.natAbs : ℝ) / x.den := by rw [← abs_eq_num_div, abs_of_nonneg hx']
  have e : ∀ k : ℕ, (k : ℝ) / 2 ^ 150 < Real.sqrt x ↔ k ^ 2 * x.den < x.num.natAbs * (2 ^ 150) ^ 2 := by
    intro k
    rw [Real.lt_sqrt (by positivity), div_pow, hxx, div_lt_div_iff₀ (by positivity) hd]
    exact_mod_cast Iff.rfl
  have e' : ∀ k : ℕ, (k : ℝ) / 2 ^ 150 = Real.sqrt x ↔ x.num.natAbs * (2 ^ 150) ^ 2 = k ^ 2 * x.den := by
    intro k
    rw [eq_comm, Real.sqrt_eq_iff_mul_self_eq hx' (by positivity), ← sq, div_pow, hxx, eq_comm,
      div_eq_div_iff (by positivity) hd.ne', eq_comm]
    exact_mod_cast Iff.rfl
  constructor
  · intro k; rw [e, compareSqrt, Nat.compare_eq_gt]
  · intro k; rw [e', compareSqrt, Nat.compare_eq_eq]

/-- The rounding of a rational is its nearest pattern (R10). -/
theorem rne32_isRne32 (x : ℚ) : IsRne32 (x : ℝ) (rne32 x) := by
  unfold rne32
  split
  · next h => rw [h, Rat.cast_zero]; exact isRne32_zero
  · next h =>
    have hx : (x : ℝ) ≠ 0 := by exact_mod_cast h
    have hw : BitVec.ofNat 32 ((if x < 0 then 2 ^ 31 else 0) + roundMagnitude (compareRat x)) =
        signedWord (decide (x < 0)) (roundMagnitude (compareRat x)) := by
      unfold signedWord; simp
    rw [hw]
    refine isRne32_of_mag hx (roundMagnitude_rounds (compareRat_compares x)) _ ?_
    simp

/-- The rounding of a square root is its nearest pattern (R10, R11). -/
theorem rneSqrt32_isRne32 (x : ℚ) (hx : 0 ≤ x) : IsRne32 (Real.sqrt x) (rneSqrt32 x) := by
  have h := roundMagnitude_rounds (compareSqrt_compares x hx)
  have hw : rneSqrt32 x = signedWord false (roundMagnitude (compareSqrt x)) := by simp [rneSqrt32, signedWord]
  rcases hx.eq_or_lt with h0 | h0
  · subst h0
    have : rneSqrt32 0 = 0#32 := by decide +kernel
    rw [this]; simpa using isRne32_zero
  · have hpos : 0 < Real.sqrt x := Real.sqrt_pos.2 (by exact_mod_cast h0)
    rw [hw]
    refine isRne32_of_mag hpos.ne' (by rwa [abs_of_pos hpos]) false ?_
    simp [hpos.le]

/-- R10 leaves no choice: a real has one rounding. -/
theorem IsRne32.unique {x : ℝ} {a b : Word} (ha : IsRne32 x a) (hb : IsRne32 x b) : a = b := by
  rcases le_or_gt overflowBound |x| with ho | hl
  · rw [ha.overflow ho, hb.overflow ho]
  rcases eq_or_ne x 0 with h0 | hx
  · rw [ha.zero h0, hb.zero h0]
  have hfa := ha.finite hl
  have hfb := hb.finite hl
  have hd := le_antisymm (ha.nearest hl b hfb) (hb.nearest hl a hfa)
  have hsign : a.getLsbD 31 = b.getLsbD 31 := by
    rw [Bool.eq_iff_iff, ha.sign hl, hb.sign hl]
  have hmag : magnitude a = magnitude b := by
    by_contra hne
    have hreal : real b ≠ real a := by
      intro h
      apply hne
      have e1 := abs_real hfa
      rw [← h, abs_real hfb] at e1
      exact (magVal_inj.1 e1).symm
    have ea := (low_bit a).1 (ha.even hl b hfb hreal hd.symm)
    have eb := (low_bit b).1 (hb.even hl a hfa hreal.symm hd)
    rw [abs_sub_signed hfa x (ha.sign hl), abs_sub_signed hfb x (hb.sign hl)] at hd
    -- the pattern between the two is nearer
    wlog hlt : magnitude a < magnitude b generalizing a b with H
    · exact H hb ha hfb hfa hd.symm hsign.symm (Ne.symm hne) hreal.symm eb ea (by omega)
    have hc31 : magnitude a + 1 < 2 ^ 31 := by have := magnitude_lt b; omega
    have hcf : isFinite (signedWord (a.getLsbD 31) (magnitude a + 1)) = true :=
      isFinite_signedWord _ (by rw [isFinite_iff] at hfb; omega)
    have hn := ha.nearest hl _ hcf
    have hn2 := hb.nearest hl _ hcf
    have hcs : (signedWord (a.getLsbD 31) (magnitude a + 1)).getLsbD 31 = true ↔ x < 0 := by
      rw [signedWord_sign _ hc31]; exact ha.sign hl
    rw [abs_sub_signed hcf x hcs, signedWord_magnitude _ hc31] at hn hn2
    rw [abs_sub_signed hfa x (ha.sign hl)] at hn
    rw [abs_sub_signed hfb x (hb.sign hl)] at hn2
    have l1 := magVal_strictMono (Nat.lt_succ_self (magnitude a))
    have l2 : magVal (magnitude a + 1) < magVal (magnitude b) := magVal_strictMono (by omega)
    rcases abs_cases (magVal (magnitude a) - |x|) with h1 | h1 <;>
      rcases abs_cases (magVal (magnitude b) - |x|) with h2 | h2 <;>
      rcases abs_cases (magVal (magnitude a + 1) - |x|) with h3 | h3 <;> simp only [Nat.succ_eq_add_one] at l1 <;> linarith
  have hw : ∀ w : Word, w.toNat = (if w.getLsbD 31 then 2 ^ 31 else 0) + magnitude w := by
    intro w
    have := w.isLt
    rw [BitVec.getLsbD, Nat.testBit_eq_decide_div_mod_eq, magnitude]
    by_cases h : w.toNat / 2 ^ 31 % 2 = 1
    · rw [if_pos (by simpa using h)]; omega
    · rw [if_neg (by simpa using h)]; omega
  apply BitVec.eq_of_toNat_eq
  rw [hw a, hw b, hsign, hmag]

/-- A finite pattern with the smallest distance stays nearest between two points where it is nearest. -/
theorem nearest_between {lo x hi t c : ℝ} (h1 : lo ≤ x) (h2 : x ≤ hi) (hlo : |t - lo| ≤ |c - lo|)
    (hhi : |t - hi| ≤ |c - hi|) : |t - x| ≤ |c - x| := by
  rw [← sq_le_sq] at *
  rcases le_total c t with h | h <;> nlinarith

/-- What both ends of an interval round to is the rounding of everything between (the test of the BETA stage). -/
theorem isRne32_between {lo x hi : ℝ} {t : Word} (hlo : IsRne32 lo t) (hhi : IsRne32 hi t) (h1 : lo ≤ x) (h2 : x ≤ hi) :
    IsRne32 x t := by
  have hpos : (0 : ℝ) < overflowBound := by unfold overflowBound; norm_num
  have ninf : isFinite (0xFF800000#32) = false := by decide
  have pinf : isFinite (0x7F800000#32) = false := by decide
  have hov : overflowBound ≤ |lo| → overflowBound ≤ |hi| := by
    intro ho
    by_contra hh
    have hf := hhi.finite (not_le.1 hh)
    rw [hlo.overflow ho] at hf
    split at hf <;> simp_all
  have hov' : overflowBound ≤ |hi| → overflowBound ≤ |lo| := by
    intro ho
    by_contra hh
    have hf := hlo.finite (not_le.1 hh)
    rw [hhi.overflow ho] at hf
    split at hf <;> simp_all
  rcases le_or_gt overflowBound |lo| with ho | hl
  · -- both ends overflow, to one sign
    have e := (hlo.overflow ho).symm.trans (hhi.overflow (hov ho))
    have hsg : lo < 0 ↔ hi < 0 := by
      by_cases a : lo < 0 <;> by_cases b : hi < 0
      · exact iff_of_true a b
      · rw [if_pos a, if_neg b] at e; exact absurd e (by decide)
      · rw [if_neg a, if_pos b] at e; exact absurd e (by decide)
      · exact iff_of_false a b
    have hox : overflowBound ≤ |x| := by
      by_cases a : lo < 0
      · have b := hsg.1 a
        have := hov ho
        rw [abs_of_neg b] at this
        rw [abs_of_nonpos (by linarith)]; linarith
      · rw [abs_of_nonneg (not_lt.1 a)] at ho
        rw [abs_of_nonneg (by linarith)]; linarith
    have hxs : x < 0 ↔ lo < 0 := ⟨fun h => by linarith, fun h => by have := hsg.1 h; linarith⟩
    refine isRne32_of (fun h0 => ?_) (fun _ => ?_) (fun h => ?_) (fun h => ?_) (fun h => ?_) (fun h => ?_)
    · rw [h0, abs_zero] at hox; linarith
    · rw [hlo.overflow ho]; simp only [hxs]
    all_goals linarith
  · have hh : |hi| < overflowBound := not_le.1 fun h => absurd (hov' h) (not_le.2 hl)
    have hx : |x| < overflowBound := abs_lt.2 ⟨by linarith [(abs_lt.1 hl).1], by linarith [(abs_lt.1 hh).2]⟩
    have hsl := hlo.sign hl
    have hsh := hhi.sign hh
    have hsx : t.getLsbD 31 = true ↔ x < 0 :=
      ⟨fun h => lt_of_le_of_lt h2 (hsh.1 h), fun h => hsl.2 (lt_of_le_of_lt h1 h)⟩
    refine isRne32_of ?_ (fun h => absurd h (not_le.2 hx)) (fun _ => hlo.finite hl) (fun _ => hsx) ?_ ?_
    · intro h0
      have hnn : ¬ lo < 0 := fun h => by
        have := hsx.1 (hsl.2 h); linarith
      exact hlo.zero (le_antisymm (h0 ▸ h1) (not_lt.1 hnn))
    · exact fun _ c hc => nearest_between h1 h2 (hlo.nearest hl c hc) (hhi.nearest hh c hc)
    · intro _ c hc hne heq
      have n1 := hlo.nearest hl c hc
      have n2 := hhi.nearest hh c hc
      -- the tie at x is a tie at an end
      have hne' : (real c : ℝ) ≠ real t := by exact_mod_cast hne
      have key : |(real c : ℝ) - lo| = |(real t : ℝ) - lo| ∨ |(real c : ℝ) - hi| = |(real t : ℝ) - hi| := by
        rw [← sq_le_sq] at n1 n2
        rw [← sq_eq_sq_iff_abs_eq_abs] at heq
        rcases lt_or_gt_of_ne hne' with hct | hct
        · left
          rw [← sq_eq_sq_iff_abs_eq_abs]
          nlinarith
        · right
          rw [← sq_eq_sq_iff_abs_eq_abs]
          nlinarith
      rcases key with k | k
      · exact hlo.even hl c hc hne k
      · exact hhi.even hh c hc hne k

/-- Two rationals that round differently have 0 or a midpoint between them (R10). -/
theorem midpoint_between {lo hi : ℚ} (hle : lo ≤ hi) (hne : rne32 lo ≠ rne32 hi) :
    ∃ μ : ℤ, |μ| ≤ 2 ^ 278 ∧ (lo : ℝ) ≤ μ / 2 ^ 150 ∧ (μ : ℝ) / 2 ^ 150 ≤ hi := by
  have hleR : (lo : ℝ) ≤ hi := by exact_mod_cast hle
  have mag : ∀ a b : ℚ, |(a : ℝ)| ≤ |(b : ℝ)| → roundMagnitude (compareRat a) ≠ roundMagnitude (compareRat b) →
      ∃ m : ℕ, m ≤ 2 ^ 278 ∧ |(a : ℝ)| ≤ (m : ℝ) / 2 ^ 150 ∧ (m : ℝ) / 2 ^ 150 ≤ |(b : ℝ)| := by
    intro a b hab hr
    have ca := compareRat_compares a
    have cb := compareRat_compares b
    have la := roundMagnitude_last ca
    have lb := roundMagnitude_last cb
    have down : ∀ {x : ℝ} {m : ℕ} {cmp}, Compares cmp x → roundsUpTo cmp m = false → x ≤ (midpointUnits m : ℝ) / 2 ^ 150 := by
      intro x m cmp hc hf
      by_contra hh
      have := (hc.up_iff m).2 (.inl (not_le.1 hh))
      simp [hf] at this
    have up : ∀ {x : ℝ} {m : ℕ} {cmp}, Compares cmp x → roundsUpTo cmp m = true → (midpointUnits m : ℝ) / 2 ^ 150 ≤ x := by
      intro x m cmp hc hf
      rcases (hc.up_iff m).1 hf with h | h
      · exact h.le
      · exact h.1.le
    rcases Nat.lt_or_gt_of_ne hr with h | h
    · refine ⟨midpointUnits (roundMagnitude (compareRat b)), midpoint_le lb.le, ?_, ?_⟩
      · exact down ca (la.last _ h lb.le)
      · exact up cb (lb.up.resolve_left (by omega))
    · refine ⟨midpointUnits (roundMagnitude (compareRat a)), midpoint_le la.le, ?_, ?_⟩
      · exact hab.trans (down cb (lb.last _ h la.le))
      · exact (up ca (la.up.resolve_left (by omega))).trans hab
  rcases le_or_gt lo 0 with hl0 | hl0
  · rcases le_or_gt 0 hi with hh0 | hh0
    · exact ⟨0, by norm_num, by simpa using (by exact_mod_cast hl0 : (lo : ℝ) ≤ 0),
        by simpa using (by exact_mod_cast hh0 : (0 : ℝ) ≤ hi)⟩
    · have hl1 : lo < 0 := lt_of_le_of_lt hle hh0
      have hr : roundMagnitude (compareRat hi) ≠ roundMagnitude (compareRat lo) := by
        intro h; apply hne
        simp only [rne32, hl1, hh0, hl1.ne, hh0.ne, h, if_true, if_false]
      have hhR : (hi : ℝ) < 0 := by exact_mod_cast hh0
      have hlR : (lo : ℝ) < 0 := by exact_mod_cast hl1
      obtain ⟨m, h1, h2, h3⟩ := mag hi lo (by rw [abs_of_neg hhR, abs_of_neg hlR]; linarith) hr
      rw [abs_of_neg hhR] at h2; rw [abs_of_neg hlR] at h3
      refine ⟨-m, by rw [abs_neg, Nat.abs_cast]; exact_mod_cast h1, ?_, ?_⟩ <;> push_cast <;>
        simp only [neg_div] <;> linarith
  · have hh0 : 0 < hi := lt_of_lt_of_le hl0 hle
    have hr : roundMagnitude (compareRat lo) ≠ roundMagnitude (compareRat hi) := by
      intro h; apply hne
      simp only [rne32, hl0.ne', hh0.ne', hl0.not_gt, hh0.not_gt, h, if_false]
    have hhR : (0 : ℝ) < hi := by exact_mod_cast hh0
    have hlR : (0 : ℝ) < lo := by exact_mod_cast hl0
    obtain ⟨m, h1, h2, h3⟩ := mag lo hi (by rw [abs_of_pos hhR, abs_of_pos hlR]; linarith) hr
    rw [abs_of_pos hlR] at h2; rw [abs_of_pos hhR] at h3
    exact ⟨m, by rw [Nat.abs_cast]; exact_mod_cast h1, by rwa [Int.cast_natCast], by rwa [Int.cast_natCast]⟩

end Sys2Proof.Laws
end

