-- ==== Sys2Proof/Laws/LogEnclosure.lean ====
section
/-! SUPPORT. The enclosure of Machine/LogEnclosure.lean holds the natural logarithm (`lnEnclosure_holds`) and is narrow
(`lnRest_le`). -/

namespace Sys2Proof.Laws

open Sys2Proof.Machine

theorem artanhSum_cast (z : ℚ) (n : ℕ) :
    ((artanhSum z n : ℚ) : ℝ) = ∑ i ∈ Finset.range n, (z : ℝ) ^ (2 * i + 1) / (2 * i + 1) := by
  induction n with
  | zero => simp [artanhSum]
  | succ n ih => rw [artanhSum, Finset.sum_range_succ, ← ih]; push_cast; rfl

/-- artanh of z with |z| < 1, half the logarithm of (1+z)/(1-z), is within the rest of the sum. -/
theorem artanh_near (z : ℚ) (hz : |(z : ℝ)| < 1) (n : ℕ) :
    |1 / 2 * Real.log ((1 + (z : ℝ)) / (1 - z)) - (artanhSum z n : ℚ)| ≤ (artanhRest z n : ℚ) := by
  have h := Real.sum_range_sub_log_div_le hz n
  rw [← artanhSum_cast] at h
  refine h.trans (le_of_eq ?_)
  unfold artanhRest; push_cast; rfl

theorem two_pow_log2_le {n : ℕ} (h : n ≠ 0) : 2 ^ Nat.log2 n ≤ n ∧ n < 2 ^ (Nat.log2 n + 1) :=
  ⟨Nat.log2_self_le h, Nat.lt_log2_self⟩

/-- The part of x left after the power of two lies strictly between 1/2 and 2. -/
theorem reduced_bounds {x : ℚ} (hx : 0 < x) :
    1 / 2 < (x : ℝ) / 2 ^ log2Floor x ∧ (x : ℝ) / 2 ^ log2Floor x < 2 := by
  have hn : x.num.natAbs ≠ 0 := by
    have := Rat.num_pos.2 hx; omega
  obtain ⟨n1, n2⟩ := two_pow_log2_le hn
  obtain ⟨d1, d2⟩ := two_pow_log2_le x.den_nz
  have hxe : (x : ℝ) = (x.num.natAbs : ℝ) / x.den := by
    rw [← abs_eq_num_div, abs_of_pos (by exact_mod_cast hx)]
  have e : (x : ℝ) / 2 ^ log2Floor x =
      ((x.num.natAbs : ℝ) / 2 ^ Nat.log2 x.num.natAbs) * (2 ^ Nat.log2 x.den / x.den) := by
    rw [log2Floor, zpow_sub₀ (by norm_num), zpow_natCast, zpow_natCast, hxe]
    have : (x.den : ℝ) ≠ 0 := by exact_mod_cast x.den_nz
    field_simp
  have p1 : (1 : ℝ) ≤ (x.num.natAbs : ℝ) / 2 ^ Nat.log2 x.num.natAbs := by
    rw [le_div_iff₀ (by positivity), one_mul]; exact_mod_cast n1
  have p2 : (x.num.natAbs : ℝ) / 2 ^ Nat.log2 x.num.natAbs < 2 := by
    rw [div_lt_iff₀ (by positivity), mul_comm, ← pow_succ]; exact_mod_cast n2
  have hd0 : (0 : ℝ) < x.den := by exact_mod_cast x.den_pos
  have q1 : (2 : ℝ) ^ Nat.log2 x.den / x.den ≤ 1 := by
    rw [div_le_one hd0]; exact_mod_cast d1
  have q2 : (1 / 2 : ℝ) < 2 ^ Nat.log2 x.den / x.den := by
    rw [lt_div_iff₀ hd0]
    have : (x.den : ℝ) < 2 ^ (Nat.log2 x.den + 1) := by exact_mod_cast d2
    rw [pow_succ] at this; linarith
  rw [e]
  constructor <;> nlinarith

theorem artanhArg_cast (x : ℚ) :
    ((artanhArg x : ℚ) : ℝ) = ((x : ℝ) / 2 ^ log2Floor x - 1) / ((x : ℝ) / 2 ^ log2Floor x + 1) := by
  unfold artanhArg; push_cast; rfl

theorem artanhArg_abs_lt {x : ℚ} (hx : 0 < x) : |((artanhArg x : ℚ) : ℝ)| < 1 / 3 := by
  obtain ⟨h1, h2⟩ := reduced_bounds hx
  rw [artanhArg_cast]
  generalize (x : ℝ) / 2 ^ log2Floor x = m at h1 h2
  rw [abs_lt]
  constructor
  · rw [lt_div_iff₀ (by linarith)]; linarith
  · rw [div_lt_iff₀ (by linarith)]; linarith

/-- ln x = k ln 2 + ln m, each as an artanh. -/
theorem log_reduced {x : ℚ} (hx : 0 < x) :
    Real.log x = Real.log ((1 + ((artanhArg x : ℚ) : ℝ)) / (1 - (artanhArg x : ℚ))) +
      log2Floor x * Real.log ((1 + ((1 / 3 : ℚ) : ℝ)) / (1 - ((1 / 3 : ℚ) : ℝ))) := by
  obtain ⟨h1, h2⟩ := reduced_bounds hx
  have e1 : (1 + ((artanhArg x : ℚ) : ℝ)) / (1 - (artanhArg x : ℚ)) = (x : ℝ) / 2 ^ log2Floor x := by
    rw [artanhArg_cast]
    generalize (x : ℝ) / 2 ^ log2Floor x = m at h1 h2
    have : m + 1 ≠ 0 := by linarith
    field_simp; ring
  have e2 : (1 + ((1 / 3 : ℚ) : ℝ)) / (1 - ((1 / 3 : ℚ) : ℝ)) = 2 := by push_cast; norm_num
  have hxR : (x : ℝ) ≠ 0 := by exact_mod_cast hx.ne'
  rw [e1, e2, Real.log_div hxR (by positivity), Real.log_zpow]; ring

/-- ln x lies within `lnRest x n` of `lnSum x n`. -/
theorem log_near {x : ℚ} (hx : 0 < x) (n : ℕ) : |Real.log x - (lnSum x n : ℚ)| ≤ (lnRest x n : ℚ) := by
  have a1 := artanh_near (artanhArg x) ((artanhArg_abs_lt hx).trans (by norm_num)) n
  have a2 := artanh_near (1 / 3) (by push_cast; norm_num [abs_of_pos]) n
  rw [log_reduced hx]
  unfold lnSum lnRest
  push_cast at a1 a2 ⊢
  generalize Real.log ((1 + ((artanhArg x : ℚ) : ℝ)) / (1 - (artanhArg x : ℚ))) = A at *
  generalize Real.log ((1 + 1 / 3) / (1 - 1 / 3)) = B at *
  generalize (artanhSum (artanhArg x) n : ℝ) = S at *
  generalize (artanhSum (1 / 3) n : ℝ) = U at *
  have e : A + (log2Floor x : ℝ) * B - (2 * S + 2 * log2Floor x * U) =
      2 * (1 / 2 * A - S) + 2 * (log2Floor x * (1 / 2 * B - U)) := by ring
  rw [e]
  refine (abs_add_le _ _).trans ?_
  rw [abs_mul, abs_mul 2, abs_mul (log2Floor x : ℝ), abs_two, mul_assoc 2 |(log2Floor x : ℝ)|]
  gcongr

/-- The enclosure holds the logarithm. -/
theorem lnEnclosure_holds {x : ℚ} (hx : 0 < x) (n : ℕ) :
    ((lnEnclosure x n).lo : ℝ) ≤ Real.log x ∧ Real.log x ≤ ((lnEnclosure x n).hi : ℝ) := by
  have h := abs_le.1 (log_near hx n)
  unfold lnEnclosure; push_cast
  constructor <;> linarith [h.1, h.2]

theorem artanhRest_le (z : ℚ) (hz : |(z : ℝ)| ≤ 1 / 3) (n : ℕ) :
    ((artanhRest z n : ℚ) : ℝ) ≤ 3 / 8 * (1 / 9) ^ n := by
  unfold artanhRest; push_cast
  have h1 : (z : ℝ) ^ 2 ≤ (1 / 3) ^ 2 := by rw [← sq_abs]; gcongr
  have h2 : |(z : ℝ)| ^ (2 * n + 1) ≤ (1 / 3) ^ (2 * n + 1) := by gcongr
  calc |(z : ℝ)| ^ (2 * n + 1) / (1 - (z : ℝ) ^ 2) ≤ (1 / 3) ^ (2 * n + 1) / (1 - (1 / 3) ^ 2) := by
        gcongr
    _ = 3 / 8 * (1 / 9) ^ n := by rw [pow_succ, pow_mul]; norm_num; ring

theorem artanhRest_nonneg (z : ℚ) (hz : z ^ 2 ≤ 1) (n : ℕ) : 0 ≤ artanhRest z n := by
  unfold artanhRest
  have := sub_nonneg.2 hz
  positivity

theorem log2Floor_abs_le {x : ℚ} {K : ℕ} (hn : x.num.natAbs ≤ 2 ^ K) (hd : x.den ≤ 2 ^ K) (hx : 0 < x) :
    |(log2Floor x : ℝ)| ≤ K := by
  have hn0 : x.num.natAbs ≠ 0 := by
    have := Rat.num_pos.2 hx; omega
  have l1 : Nat.log2 x.num.natAbs ≤ K := by
    by_contra h
    have := (two_pow_log2_le hn0).1
    have := Nat.pow_lt_pow_right (show 1 < 2 by norm_num) (not_le.1 h)
    omega
  have l2 : Nat.log2 x.den ≤ K := by
    by_contra h
    have := (two_pow_log2_le x.den_nz).1
    have := Nat.pow_lt_pow_right (show 1 < 2 by norm_num) (not_le.1 h)
    omega
  have : |log2Floor x| ≤ (K : ℤ) := by unfold log2Floor; rw [abs_le]; omega
  exact_mod_cast this

/-- The enclosure is narrow: with n terms, n > K, its half width is at most 2^-(2n+1). -/
theorem lnRest_le {x : ℚ} {K n : ℕ} (hn : x.num.natAbs ≤ 2 ^ K) (hd : x.den ≤ 2 ^ K) (hx : 0 < x) (hKn : K < n) :
    ((lnRest x n : ℚ) : ℝ) ≤ (1 / 2) ^ (2 * n + 1) := by
  have r1 := artanhRest_le (artanhArg x) (artanhArg_abs_lt hx).le n
  have r2 := artanhRest_le (1 / 3) (by push_cast; norm_num [abs_of_pos]) n
  have hk := log2Floor_abs_le hn hd hx
  have hKn' : (K : ℝ) + 1 ≤ n := by exact_mod_cast hKn
  have hn2 : (n : ℝ) ≤ 2 ^ (n - 1) := by
    have : n ≤ 2 ^ (n - 1) := by
      obtain ⟨m, rfl⟩ : ∃ m, n = m + 1 := ⟨n - 1, by omega⟩
      have := Nat.lt_two_pow_self (n := m); simpa using this
    exact_mod_cast this
  have h9 : (1 / 9 : ℝ) ^ n ≤ (1 / 8) ^ n := by gcongr; norm_num
  have e8 : (2 : ℝ) ^ (n - 1) * (1 / 8) ^ n = (1 / 2) ^ (2 * n + 1) := by
    obtain ⟨m, rfl⟩ : ∃ m, n = m + 1 := ⟨n - 1, by omega⟩
    rw [Nat.add_sub_cancel, show 2 * (m + 1) + 1 = 2 * m + 3 by ring, pow_add (1 / 2 : ℝ), pow_mul, pow_succ,
      ← mul_assoc, ← mul_pow]
    norm_num
  unfold lnRest
  push_cast at r2 ⊢
  calc 2 * ((artanhRest (artanhArg x) n : ℚ) : ℝ) + 2 * |(log2Floor x : ℝ)| * ((artanhRest (1 / 3) n : ℚ) : ℝ)
      ≤ 2 * (3 / 8 * (1 / 9) ^ n) + 2 * K * (3 / 8 * (1 / 9) ^ n) := by
        gcongr
        · have := artanhRest_nonneg (1 / 3) (by norm_num) n
          exact_mod_cast this
    _ = 3 / 4 * ((K + 1) * (1 / 9) ^ n) := by ring
    _ ≤ 1 * (2 ^ (n - 1) * (1 / 8) ^ n) := by
        gcongr
        · norm_num
        · linarith
    _ = (1 / 2) ^ (2 * n + 1) := by rw [one_mul, e8]

end Sys2Proof.Laws
end

