-- ==== Sys2Proof/Laws/Beta.lean ====
section
/-! SUPPORT. The BETA stage (spec/40_thermistor.md R109) computes what the rule says: the search of
Machine/Thermistor.lean always finds a pattern, and it is the rounding of the exact 1/(1/T0 + ln(R/R0)/B) - 273
(`betaRound_correct`, `betaStage_spec`). The pole 1/T = 0 does not occur for binary32 operands (R110). -/

namespace Sys2Proof.Laws

open Sys2Proof.Machine

/-- A positive multiple of 2^-149 in the range of the finite patterns (R8). -/
structure IsUnits (q : ℚ) (n : ℕ) : Prop where
  eq : (q : ℝ) = (n : ℝ) / 2 ^ 149
  pos : 0 < n
  le : n ≤ 2 ^ 277

theorem unitsOf_le {m : ℕ} (h : m < infMagnitude) : unitsOf m ≤ 2 ^ 277 :=
  (unitsOf_strictMono.monotone h.le).trans (by decide +kernel)

/-- A positive finite pattern is such a multiple. -/
theorem isUnits_of_pos {w : Word} (hf : isFinite w = true) (hp : 0 < real w) :
    IsUnits (real w) (unitsOf (magnitude w)) := by
  have hr := real_eq hf
  have hpR : (0 : ℝ) < real w := by exact_mod_cast hp
  have hnn := magVal_nonneg (magnitude w)
  have hv : (real w : ℝ) = magVal (magnitude w) := by
    split at hr
    · exfalso; linarith
    · exact hr
  refine ⟨hv, ?_, unitsOf_le ((isFinite_iff w).1 hf)⟩
  rcases Nat.eq_zero_or_pos (unitsOf (magnitude w)) with h0 | h0
  · exfalso; rw [hv, magVal, h0] at hpR; simp at hpR
  · exact h0

theorem IsUnits.pos' {q n} (h : IsUnits q n) : 0 < q := by
  have h1 := h.eq
  have h2 : (0 : ℝ) < n := by exact_mod_cast h.pos
  have : (0 : ℝ) < q := by rw [h1]; positivity
  exact_mod_cast this

/-- The quotient of two such multiples: its value, and the size of its numerator and denominator. -/
theorem IsUnits.quotient {r r0 : ℚ} {P Q : ℕ} (hr : IsUnits r P) (hr0 : IsUnits r0 Q) :
    ((r / r0 : ℚ) : ℝ) = (P : ℝ) / Q ∧ (r / r0).num.natAbs ≤ 2 ^ 277 ∧ (r / r0).den ≤ 2 ^ 277 := by
  have hQ : (0 : ℝ) < Q := by exact_mod_cast hr0.pos
  have e : ((r / r0 : ℚ) : ℝ) = (P : ℝ) / Q := by
    push_cast; rw [hr.eq, hr0.eq]; field_simp
  have e2 : r / r0 = Rat.divInt (P : ℤ) (Q : ℤ) := by
    rw [Rat.divInt_eq_div]
    apply Rat.cast_injective (α := ℝ)
    rw [e]; push_cast; rfl
  refine ⟨e, ?_, ?_⟩
  · have h1 := Rat.num_dvd (P : ℤ) (b := (Q : ℤ)) (by have := hr0.pos; omega)
    rw [← e2] at h1
    have h2 := Int.natAbs_dvd_natAbs.2 h1
    rw [Int.natAbs_natCast] at h2
    exact (Nat.le_of_dvd hr.pos h2).trans hr.le
  · have h1 := Rat.den_dvd (P : ℤ) (Q : ℤ)
    rw [← e2] at h1
    exact (Nat.le_of_dvd hr0.pos (by exact_mod_cast h1)).trans hr0.le

/-- The interval of 1/T holds 1/T. -/
theorem inverseTemp_holds {x t0 b : ℚ} (hx : 0 < x) (hb : 0 < b) (n : ℕ) :
    ((inverseTemp x t0 b n).lo : ℝ) ≤ 1 / (t0 : ℝ) + Real.log x / b ∧
      1 / (t0 : ℝ) + Real.log x / b ≤ ((inverseTemp x t0 b n).hi : ℝ) := by
  obtain ⟨h1, h2⟩ := lnEnclosure_holds hx n
  have hbR : (0 : ℝ) < b := by exact_mod_cast hb
  unfold inverseTemp; push_cast
  constructor <;> gcongr

theorem one_div_between {lo y hi : ℝ} (h1 : lo ≤ y) (h2 : y ≤ hi) (hs : 0 < lo ∨ hi < 0) :
    1 / hi ≤ 1 / y ∧ 1 / y ≤ 1 / lo := by
  rcases hs with hs | hs
  · exact ⟨one_div_le_one_div_of_le (by linarith) h2, one_div_le_one_div_of_le hs h1⟩
  · exact ⟨one_div_le_one_div_of_neg_of_le hs h2, one_div_le_one_div_of_neg_of_le (by linarith) h1⟩

/-- A decided pole is the pole. -/
theorem betaTry_pole {x t0 b : ℚ} (hx : 0 < x) (hb : 0 < b) {n : ℕ} (h : betaTry x t0 b n = .pole) :
    1 / (t0 : ℝ) + Real.log x / b = 0 := by
  obtain ⟨h1, h2⟩ := inverseTemp_holds (t0 := t0) hx hb n
  unfold betaTry at h
  simp only at h
  split at h
  · next hz =>
    rw [hz.1] at h1; rw [hz.2] at h2
    push_cast at h1 h2
    linarith
  · split at h
    · split at h <;> simp at h
    · simp at h

/-- A decided rounding is the rounding of the exact temperature. -/
theorem betaTry_rounded {x t0 b : ℚ} (hx : 0 < x) (hb : 0 < b) {n : ℕ} {t : Word}
    (h : betaTry x t0 b n = .rounded t) :
    1 / (t0 : ℝ) + Real.log x / b ≠ 0 ∧ IsRne32 (1 / (1 / (t0 : ℝ) + Real.log x / b) - 273) t := by
  obtain ⟨h1, h2⟩ := inverseTemp_holds (t0 := t0) hx hb n
  unfold betaTry at h
  simp only at h
  generalize inverseTemp x t0 b n = i at *
  generalize 1 / (t0 : ℝ) + Real.log x / b = y at *
  split at h
  · simp at h
  split at h
  · next hs =>
    have hsR : (0 : ℝ) < i.lo ∨ (i.hi : ℝ) < 0 := by exact_mod_cast hs
    split at h
    · next heq =>
      injection h with h
      subst h
      obtain ⟨d1, d2⟩ := one_div_between h1 h2 hsR
      refine ⟨?_, ?_⟩
      · rintro rfl; rcases hsR with hh | hh <;> linarith
      · have a1 := rne32_isRne32 (1 / i.hi - kelvinOffset)
        have a2 := rne32_isRne32 (1 / i.lo - kelvinOffset)
        rw [← heq] at a2
        unfold kelvinOffset at a1 a2 ⊢
        push_cast at a1 a2
        exact isRne32_between a1 a2 (by linarith) (by linarith)
    · simp at h
  · simp at h

/-- Where the enclosure decides nothing, it holds a rational of bounded size. -/
theorem betaTry_undecided {r r0 t0 b : ℚ} {P Q τ β : ℕ} (hr : IsUnits r P) (hr0 : IsUnits r0 Q) (ht : IsUnits t0 τ)
    (hb : IsUnits b β) {n : ℕ} (h : betaTry (r / r0) t0 b n = .undecided) :
    ∃ a c : ℤ, 0 < c ∧ |a| ≤ 2 ^ 560 ∧ c ≤ 2 ^ 560 ∧
      |Real.log ((P : ℝ) / Q) - a / c| ≤ 2 * ((lnRest (r / r0) n : ℚ) : ℝ) := by
  have hx : 0 < r / r0 := div_pos hr.pos' hr0.pos'
  have hτ : (0 : ℝ) < τ := by exact_mod_cast ht.pos
  have hβ : (0 : ℝ) < β := by exact_mod_cast hb.pos
  have hτZ : (τ : ℤ) ≤ 2 ^ 277 := by exact_mod_cast ht.le
  have hβZ : (β : ℤ) ≤ 2 ^ 277 := by exact_mod_cast hb.le
  have hbR : (0 : ℝ) < b := by exact_mod_cast hb.pos'
  -- a rational in the enclosure is near the logarithm, which is there too
  have near : ∀ q : ℝ, ((inverseTemp (r / r0) t0 b n).lo : ℝ) ≤ 1 / (t0 : ℝ) + q / b →
      1 / (t0 : ℝ) + q / b ≤ ((inverseTemp (r / r0) t0 b n).hi : ℝ) →
      |Real.log ((P : ℝ) / Q) - q| ≤ 2 * ((lnRest (r / r0) n : ℚ) : ℝ) := by
    intro q g1 g2
    have hl := abs_le.1 (log_near hx n)
    rw [(hr.quotient hr0).1] at hl
    unfold inverseTemp lnEnclosure at g1 g2
    push_cast at g1 g2
    have g3 : ((lnSum (r / r0) n : ℚ) : ℝ) - (lnRest (r / r0) n : ℚ) ≤ q := by
      have := (div_le_div_iff_of_pos_right hbR).1 (le_of_add_le_add_left g1); exact this
    have g4 : q ≤ ((lnSum (r / r0) n : ℚ) : ℝ) + (lnRest (r / r0) n : ℚ) := by
      have := (div_le_div_iff_of_pos_right hbR).1 (le_of_add_le_add_left g2); exact this
    rw [abs_le]
    constructor <;> linarith [hl.1, hl.2]
  have hord : (inverseTemp (r / r0) t0 b n).lo ≤ (inverseTemp (r / r0) t0 b n).hi := by
    obtain ⟨h1, h2⟩ := inverseTemp_holds (t0 := t0) hx hb.pos' n
    exact_mod_cast h1.trans h2
  unfold betaTry at h
  simp only at h
  generalize inverseTemp (r / r0) t0 b n = i at *
  split at h
  · simp at h
  split at h
  · next hs =>
    have hsR : (0 : ℝ) < i.lo ∨ (i.hi : ℝ) < 0 := by exact_mod_cast hs
    split at h
    · simp at h
    · next hne =>
      have hordR : (i.lo : ℝ) ≤ i.hi := by exact_mod_cast hord
      obtain ⟨-, d2⟩ := one_div_between hordR le_rfl hsR
      have hle : 1 / i.hi - kelvinOffset ≤ 1 / i.lo - kelvinOffset := by
        have : (1 / i.hi : ℚ) ≤ 1 / i.lo := by exact_mod_cast d2
        linarith
      obtain ⟨μ, m1, m2, m3⟩ := midpoint_between hle hne
      unfold kelvinOffset at m2 m3
      push_cast at m2 m3
      -- the midpoint in kelvin, μ' units of 2^-150
      obtain ⟨ν, hν⟩ : ∃ ν : ℤ, ν = μ + 273 * 2 ^ 150 := ⟨_, rfl⟩
      have hνR : (ν : ℝ) / 2 ^ 150 = μ / 2 ^ 150 + 273 := by rw [hν]; push_cast; ring
      have hν1 : |ν| ≤ 2 ^ 279 := by rw [abs_le] at *; omega
      have k1 : 1 / (i.hi : ℝ) ≤ (ν : ℝ) / 2 ^ 150 := by rw [hνR]; linarith
      have k2 : (ν : ℝ) / 2 ^ 150 ≤ 1 / (i.lo : ℝ) := by rw [hνR]; linarith
      have hν0 : ν ≠ 0 := by
        rintro rfl
        rw [Int.cast_zero, zero_div] at k1 k2
        rcases hsR with hh | hh
        · have : 0 < 1 / (i.hi : ℝ) := by have := hh.trans_le hordR; positivity
          linarith
        · have : 1 / (i.lo : ℝ) < 0 := one_div_neg.2 (hordR.trans_lt hh)
          linarith
      have hνR0 : (ν : ℝ) ≠ 0 := by exact_mod_cast hν0
      -- back to 1/T
      have hsν : 0 < 1 / (i.hi : ℝ) ∨ 1 / (i.lo : ℝ) < 0 := by
        rcases hsR with hh | hh
        · left; have := hh.trans_le hordR; positivity
        · right; exact one_div_neg.2 (hordR.trans_lt hh)
      obtain ⟨l1, l2⟩ := one_div_between k1 k2 hsν
      rw [one_div_one_div] at l1 l2
      have hq : (1 : ℝ) / (ν / 2 ^ 150) = 1 / (t0 : ℝ) +
          ((β * (2 * τ - ν) : ℤ) * (SignType.sign ν : ℤ) : ℤ) / ((|ν| * τ : ℤ) : ℝ) / b := by
        rw [ht.eq, hb.eq]
        rcases lt_or_gt_of_ne hν0 with hh | hh
        · rw [abs_of_neg hh, sign_neg hh]
          simp only [SignType.coe_neg, SignType.coe_one]
          push_cast; field_simp; ring
        · rw [abs_of_pos hh, sign_pos hh]
          simp only [SignType.coe_one]
          push_cast; field_simp; ring
      refine ⟨β * (2 * τ - ν) * (SignType.sign ν : ℤ), |ν| * τ, ?_, ?_, ?_, near _ ?_ ?_⟩
      · have := abs_pos.2 hν0
        have : (0 : ℤ) < τ := by exact_mod_cast ht.pos
        positivity
      · have s1 : |((SignType.sign ν : ℤ))| ≤ 1 := by
          rcases lt_or_gt_of_ne hν0 with hh | hh <;> simp [hh]
        have s2 : |2 * (τ : ℤ) - ν| ≤ 2 ^ 280 := by
          rw [abs_le] at *; omega
        rw [abs_mul, abs_mul, Nat.abs_cast]
        calc (β : ℤ) * |2 * (τ : ℤ) - ν| * |((SignType.sign ν : ℤ))| ≤ 2 ^ 277 * 2 ^ 280 * 1 := by gcongr
          _ ≤ 2 ^ 560 := by rw [mul_one, ← pow_add]; exact pow_le_pow_right₀ (by norm_num) (by norm_num)
      · calc |ν| * (τ : ℤ) ≤ 2 ^ 279 * 2 ^ 277 := by gcongr
          _ ≤ 2 ^ 560 := by rw [← pow_add]; exact pow_le_pow_right₀ (by norm_num) (by norm_num)
      · rw [← hq]; exact l1
      · rw [← hq]; exact l2
  · next hs =>
    rw [not_or, not_lt, not_lt] at hs
    have s1 : (i.lo : ℝ) ≤ 0 := by exact_mod_cast hs.1
    have s2 : (0 : ℝ) ≤ i.hi := by exact_mod_cast hs.2
    have hq : (0 : ℝ) = 1 / (t0 : ℝ) + (((-(β : ℤ)) : ℤ) : ℝ) / ((τ : ℤ) : ℝ) / b := by
      rw [ht.eq, hb.eq]; push_cast; field_simp; ring
    refine ⟨-(β : ℤ), τ, by exact_mod_cast ht.pos, ?_, ?_, near _ ?_ ?_⟩
    · rw [abs_neg, Nat.abs_cast]
      exact hβZ.trans (pow_le_pow_right₀ (by norm_num) (by norm_num))
    · exact hτZ.trans (pow_le_pow_right₀ (by norm_num) (by norm_num))
    · rw [← hq]; exact s1
    · rw [← hq]; exact s2

/-- ln(P/Q) is away from 0 unless P = Q. -/
theorem log_gap_zero {P Q K : ℕ} (hP : 0 < P) (hQ : 0 < Q) (hP' : P ≤ 2 ^ K) (hQ' : Q ≤ 2 ^ K) (hne : P ≠ Q) :
    (1 / 2 : ℝ) ^ K ≤ |Real.log ((P : ℝ) / Q)| := by
  wlog hlt : Q < P generalizing P Q with H
  · have := H hQ hP hQ' hP' hne.symm (by omega)
    have e : Real.log ((P : ℝ) / Q) = -Real.log ((Q : ℝ) / P) := by rw [← Real.log_inv, inv_div]
    rwa [e, abs_neg]
  have hP0 : (0 : ℝ) < P := by exact_mod_cast hP
  have hQ0 : (0 : ℝ) < Q := by exact_mod_cast hQ
  have h1 := Real.one_sub_inv_le_log_of_pos (x := (P : ℝ) / Q) (by positivity)
  have h2 : (1 : ℝ) / P ≤ 1 - ((P : ℝ) / Q)⁻¹ := by
    have : (Q : ℝ) + 1 ≤ P := by exact_mod_cast hlt
    rw [inv_div, div_le_iff₀ hP0, sub_mul, div_mul_cancel₀ _ hP0.ne']; linarith
  have h3 : (1 / 2 : ℝ) ^ K ≤ 1 / P := by
    have : (P : ℝ) ≤ 2 ^ K := by exact_mod_cast hP'
    rw [one_div_pow]; gcongr
  exact (h3.trans (h2.trans h1)).trans (le_abs_self _)

theorem lnEnclosure_one (n : ℕ) : lnEnclosure 1 n = ⟨0, 0⟩ := by
  have k0 : log2Floor 1 = 0 := by decide +kernel
  have a0 : artanhArg 1 = 0 := by simp [artanhArg, k0]
  have s0 : ∀ m, artanhSum 0 m = 0 := by
    intro m
    induction m with
    | zero => rfl
    | succ m ih => simp [artanhSum, ih]
  simp [lnEnclosure, lnSum, lnRest, k0, a0, s0, artanhRest]

/-- With enough terms the enclosure decides the rounding. -/
theorem betaTry_decided {r r0 t0 b : ℚ} {P Q τ β : ℕ} (hr : IsUnits r P) (hr0 : IsUnits r0 Q) (ht : IsUnits t0 τ)
    (hb : IsUnits b β) {n : ℕ} (hn : 2 ^ (5 * 560 + 20) ≤ n) : betaTry (r / r0) t0 b n ≠ .undecided := by
  intro h
  have hx : 0 < r / r0 := div_pos hr.pos' hr0.pos'
  obtain ⟨hv, q1, q2⟩ := hr.quotient hr0
  have up : ∀ m : ℕ, m ≤ 2 ^ 277 → m ≤ 2 ^ 560 := fun m hm =>
    hm.trans (Nat.pow_le_pow_right (by norm_num) (by norm_num))
  have h560 : 560 < n := by
    have h1 : 2 ^ 20 ≤ 2 ^ (5 * 560 + 20) := Nat.pow_le_pow_right (by norm_num) (Nat.le_add_left _ _)
    exact lt_of_lt_of_le (lt_of_lt_of_le (by norm_num) h1) hn
  by_cases hPQ : P = Q
  · -- x = 1: the enclosure is exact
    have hx1 : r / r0 = 1 := by
      have : ((r / r0 : ℚ) : ℝ) = 1 := by
        have : (Q : ℝ) ≠ 0 := by exact_mod_cast hr0.pos.ne'
        rw [hv, hPQ, div_self this]
      exact_mod_cast this
    have hpos : 0 < 1 / t0 := one_div_pos.2 ht.pos'
    rw [hx1] at h
    simp [betaTry, inverseTemp, lnEnclosure_one, ht.pos', ht.pos'.ne'] at h
  obtain ⟨a, c, hc, ha', hc', hnear⟩ := betaTry_undecided hr hr0 ht hb h
  have hrest := lnRest_le (up _ q1) (up _ q2) hx h560
  have hupper : |Real.log ((P : ℝ) / Q) - a / c| ≤ (1 / 2) ^ (2 * n) := by
    refine hnear.trans ?_
    rw [pow_succ] at hrest; linarith
  have hlower : (1 / 2 : ℝ) ^ n ≤ |Real.log ((P : ℝ) / Q) - a / c| := by
    by_cases ha0 : a = 0
    · subst ha0
      rw [Int.cast_zero, zero_div, sub_zero]
      exact (pow_le_pow_of_le_one (by norm_num) (by norm_num) h560.le).trans
        (log_gap_zero hr.pos hr0.pos (up _ hr.le) (up _ hr0.le) hPQ)
    · exact (pow_le_pow_of_le_one (by norm_num) (by norm_num) hn).trans
        (ExpGap.log_gap 560 (by norm_num) a c P Q ha0 hc ha' hc' hr.pos hr0.pos (up _ hr.le) (up _ hr0.le))
  have : (1 / 2 : ℝ) ^ (2 * n) < (1 / 2) ^ n := pow_lt_pow_right_of_lt_one₀ (by norm_num) (by norm_num) (by omega)
  linarith

theorem pow_le_pow_mul {k j : ℕ} (h : k ≤ j) : 2 ^ k ≤ 2 ^ j * 16 :=
  (Nat.pow_le_pow_right (by norm_num) h).trans (Nat.le_mul_of_pos_right _ (by norm_num))

/-- What a search result says. -/
def SearchSound (y : ℝ) : Option Word → Prop
  | none => y = 0
  | some t => y ≠ 0 ∧ IsRne32 (1 / y - 273) t

/-- The search is sound as soon as one of the enclosures it tries decides. -/
theorem betaSearch_sound {x t0 b : ℚ} (hx : 0 < x) (hb : 0 < b) : ∀ (fuel n j : ℕ), j < fuel →
    betaTry x t0 b (2 ^ j * n) ≠ .undecided →
    SearchSound (1 / (t0 : ℝ) + Real.log x / b) (betaSearch x t0 b fuel n) := by
  intro fuel
  induction fuel with
  | zero => intro n j hj; omega
  | succ fuel ih =>
    intro n j hj hd
    rw [betaSearch]
    cases ht : betaTry x t0 b n with
    | pole => exact betaTry_pole hx hb ht
    | rounded t => exact betaTry_rounded hx hb ht
    | undecided =>
      cases j with
      | zero => rw [pow_zero, one_mul] at hd; exact absurd ht hd
      | succ j => exact ih (2 * n) j (by omega) (by rwa [← mul_assoc, ← pow_succ])

/-- For positive binary32 operands 1/T is not 0, and the BETA stage's search finds the rounding of the exact temperature
(R109, R110). -/
theorem betaRound_correct {r r0 t0 b : Word} (fr : isFinite r = true) (fr0 : isFinite r0 = true) (ft : isFinite t0 = true)
    (fb : isFinite b = true) (pr : 0 < real r) (pr0 : 0 < real r0) (pt : 0 < real t0) (pb : 0 < real b) :
    inverseTempReal (real r) (real r0) (real t0) (real b) ≠ 0 ∧
      ∃ t, betaRound (real r) (real r0) (real t0) (real b) = some t ∧
        IsRne32 (tempReal (real r) (real r0) (real t0) (real b)) t := by
  have hr := isUnits_of_pos fr pr
  have hr0 := isUnits_of_pos fr0 pr0
  have ht := isUnits_of_pos ft pt
  have hb := isUnits_of_pos fb pb
  generalize real r = qr at *
  generalize real r0 = qr0 at *
  generalize real t0 = qt at *
  generalize real b = qb at *
  have hx : 0 < qr / qr0 := div_pos pr pr0
  have hn : 2 ^ (5 * 560 + 20) ≤ 2 ^ 4000 * 16 := pow_le_pow_mul (by norm_num)
  have hs := betaSearch_sound hx pb 4096 16 4000 (by norm_num) (betaTry_decided hr hr0 ht hb hn)
  have hlog : Real.log ((qr / qr0 : ℚ) : ℝ) = Real.log ((qr : ℝ) / qr0) := by push_cast; rfl
  rw [hlog] at hs
  have hne : inverseTempReal qr qr0 qt qb ≠ 0 := by
    intro h0
    unfold inverseTempReal at h0
    obtain ⟨hv, q1, q2⟩ := hr.quotient hr0
    push_cast at hv
    rw [hv, ht.eq, hb.eq] at h0
    have hτ : (0 : ℝ) < (unitsOf (magnitude t0) : ℝ) := by exact_mod_cast ht.pos
    have hβ : (0 : ℝ) < (unitsOf (magnitude b) : ℝ) := by exact_mod_cast hb.pos
    have up : ∀ m : ℕ, m ≤ 2 ^ 277 → m ≤ 2 ^ 560 := fun m hm =>
      hm.trans (Nat.pow_le_pow_right (by norm_num) (by norm_num))
    have hβ' : (0 : ℤ) < (unitsOf (magnitude b) : ℤ) := by exact_mod_cast hb.pos
    have g := ExpGap.log_gap 560 (by norm_num) (-(unitsOf (magnitude b) : ℤ)) (unitsOf (magnitude t0) : ℤ) _ _
      (by omega) (by exact_mod_cast ht.pos)
      (by rw [abs_neg, Nat.abs_cast]; exact_mod_cast up _ hb.le) (by exact_mod_cast up _ ht.le) hr.pos hr0.pos
      (up _ hr.le) (up _ hr0.le)
    have e : Real.log ((unitsOf (magnitude r) : ℝ) / (unitsOf (magnitude r0) : ℝ)) -
        ((-(unitsOf (magnitude b) : ℤ) : ℤ) : ℝ) / ((unitsOf (magnitude t0) : ℤ) : ℝ) = 0 := by
      push_cast
      field_simp at h0 ⊢
      linarith
    rw [e, abs_zero] at g
    exact absurd g (not_le.2 (pow_pos (by norm_num) _))
  refine ⟨hne, ?_⟩
  unfold betaRound
  cases hbs : betaSearch (qr / qr0) qt qb 4096 16 with
  | none => rw [hbs] at hs; exact absurd hs hne
  | some t => rw [hbs] at hs; exact ⟨t, rfl, hs.2⟩

/-- Stage BETA on a resistance of 0 (R109, D8). -/
theorem betaStage_zero {r r0 t0 b : Word} (h : real r = 0) :
    betaStage r r0 t0 b = .ok ⟨0xC3888000#32, true⟩ := by simp [betaStage, h]

/-- Stage BETA on a positive resistance (R109): the rounded exact temperature where it is finite, else the fault. -/
theorem betaStage_spec {r r0 t0 b : Word} (fr : isFinite r = true) (fr0 : isFinite r0 = true) (ft : isFinite t0 = true)
    (fb : isFinite b = true) (pr : 0 < real r) (pr0 : 0 < real r0) (pt : 0 < real t0) (pb : 0 < real b) :
    (|tempReal (real r) (real r0) (real t0) (real b)| < overflowBound ∧
      ∃ t, betaStage r r0 t0 b = .ok ⟨t, false⟩ ∧ isFinite t = true ∧
        IsRne32 (tempReal (real r) (real r0) (real t0) (real b)) t) ∨
    (overflowBound ≤ |tempReal (real r) (real r0) (real t0) (real b)| ∧
      betaStage r r0 t0 b = .error .tempNonfinite) := by
  obtain ⟨-, t, ht, hrne⟩ := betaRound_correct fr fr0 ft fb pr pr0 pt pb
  rcases lt_or_ge |tempReal (real r) (real r0) (real t0) (real b)| overflowBound with hl | ho
  · exact .inl ⟨hl, t, by simp [betaStage, pr.ne', ht, hrne.finite hl], hrne.finite hl, hrne⟩
  · refine .inr ⟨ho, ?_⟩
    have hf : isFinite t = false := by
      rw [hrne.overflow ho]; split <;> decide
    simp [betaStage, pr.ne', ht, hf]

end Sys2Proof.Laws
end

