-- ==== Sys2Proof/Laws/State.lean ====
section
/-! SUPPORT. The fields of the state after each named update, so that no proof unfolds a record update. -/

namespace Sys2Proof.Machine

@[simp] theorem State.setReg_regs (s : State) (r : Reg) (v : Word) : (s.setReg r v).regs = s.regs.set r v := rfl
@[simp] theorem State.setReg_valid (s : State) (r : Reg) (v : Word) : (s.setReg r v).valid = s.valid ||| (1#32 <<< r.validBit) := rfl
@[simp] theorem State.setReg_status (s : State) (r : Reg) (v : Word) : (s.setReg r v).status = s.status := rfl
@[simp] theorem State.setReg_params (s : State) (r : Reg) (v : Word) : (s.setReg r v).params = s.params := rfl
@[simp] theorem State.setReg_host (s : State) (r : Reg) (v : Word) : (s.setReg r v).host = s.host := rfl
@[simp] theorem State.setReg_pending (s : State) (r : Reg) (v : Word) : (s.setReg r v).pending = s.pending := rfl
@[simp] theorem State.setReg_reads (s : State) (r : Reg) (v : Word) : (s.setReg r v).reads = s.reads := rfl
@[simp] theorem State.setReg_draws (s : State) (r : Reg) (v : Word) : (s.setReg r v).draws = s.draws := rfl

@[simp] theorem State.setRatioFlags_regs (s : State) (a b : Bool) : (s.setRatioFlags a b).regs = s.regs := rfl
@[simp] theorem State.setRatioFlags_valid (s : State) (a b : Bool) : (s.setRatioFlags a b).valid = s.valid := rfl
@[simp] theorem State.setRatioFlags_fatal (s : State) (a b : Bool) : (s.setRatioFlags a b).status.fatal = s.status.fatal := rfl
@[simp] theorem State.setRatioFlags_cause (s : State) (a b : Bool) : (s.setRatioFlags a b).status.cause = s.status.cause := rfl
@[simp] theorem State.setRatioFlags_fop (s : State) (a b : Bool) : (s.setRatioFlags a b).status.fop = s.status.fop := rfl
@[simp] theorem State.setRatioFlags_rclLo (s : State) (a b : Bool) : (s.setRatioFlags a b).status.rclLo = a := rfl
@[simp] theorem State.setRatioFlags_rclHi (s : State) (a b : Bool) : (s.setRatioFlags a b).status.rclHi = b := rfl
@[simp] theorem State.setRatioFlags_rzero (s : State) (a b : Bool) : (s.setRatioFlags a b).status.rzero = s.status.rzero := rfl
@[simp] theorem State.setRatioFlags_vcl (s : State) (a b : Bool) : (s.setRatioFlags a b).status.vcl = s.status.vcl := rfl
@[simp] theorem State.setRatioFlags_dcl (s : State) (a b : Bool) : (s.setRatioFlags a b).status.dcl = s.status.dcl := rfl
@[simp] theorem State.setRatioFlags_params (s : State) (a b : Bool) : (s.setRatioFlags a b).params = s.params := rfl
@[simp] theorem State.setRatioFlags_host (s : State) (a b : Bool) : (s.setRatioFlags a b).host = s.host := rfl
@[simp] theorem State.setRatioFlags_pending (s : State) (a b : Bool) : (s.setRatioFlags a b).pending = s.pending := rfl
@[simp] theorem State.setRatioFlags_reads (s : State) (a b : Bool) : (s.setRatioFlags a b).reads = s.reads := rfl
@[simp] theorem State.setRatioFlags_draws (s : State) (a b : Bool) : (s.setRatioFlags a b).draws = s.draws := rfl

@[simp] theorem State.setZeroFlag_regs (s : State) (a : Bool) : (s.setZeroFlag a).regs = s.regs := rfl
@[simp] theorem State.setZeroFlag_valid (s : State) (a : Bool) : (s.setZeroFlag a).valid = s.valid := rfl
@[simp] theorem State.setZeroFlag_fatal (s : State) (a : Bool) : (s.setZeroFlag a).status.fatal = s.status.fatal := rfl
@[simp] theorem State.setZeroFlag_cause (s : State) (a : Bool) : (s.setZeroFlag a).status.cause = s.status.cause := rfl
@[simp] theorem State.setZeroFlag_fop (s : State) (a : Bool) : (s.setZeroFlag a).status.fop = s.status.fop := rfl
@[simp] theorem State.setZeroFlag_rclLo (s : State) (a : Bool) : (s.setZeroFlag a).status.rclLo = s.status.rclLo := rfl
@[simp] theorem State.setZeroFlag_rclHi (s : State) (a : Bool) : (s.setZeroFlag a).status.rclHi = s.status.rclHi := rfl
@[simp] theorem State.setZeroFlag_rzero (s : State) (a : Bool) : (s.setZeroFlag a).status.rzero = a := rfl
@[simp] theorem State.setZeroFlag_vcl (s : State) (a : Bool) : (s.setZeroFlag a).status.vcl = s.status.vcl := rfl
@[simp] theorem State.setZeroFlag_dcl (s : State) (a : Bool) : (s.setZeroFlag a).status.dcl = s.status.dcl := rfl
@[simp] theorem State.setZeroFlag_params (s : State) (a : Bool) : (s.setZeroFlag a).params = s.params := rfl
@[simp] theorem State.setZeroFlag_host (s : State) (a : Bool) : (s.setZeroFlag a).host = s.host := rfl
@[simp] theorem State.setZeroFlag_pending (s : State) (a : Bool) : (s.setZeroFlag a).pending = s.pending := rfl
@[simp] theorem State.setZeroFlag_reads (s : State) (a : Bool) : (s.setZeroFlag a).reads = s.reads := rfl
@[simp] theorem State.setZeroFlag_draws (s : State) (a : Bool) : (s.setZeroFlag a).draws = s.draws := rfl

@[simp] theorem State.setDutyFlags_regs (s : State) (a b : Bool) : (s.setDutyFlags a b).regs = s.regs := rfl
@[simp] theorem State.setDutyFlags_valid (s : State) (a b : Bool) : (s.setDutyFlags a b).valid = s.valid := rfl
@[simp] theorem State.setDutyFlags_fatal (s : State) (a b : Bool) : (s.setDutyFlags a b).status.fatal = s.status.fatal := rfl
@[simp] theorem State.setDutyFlags_cause (s : State) (a b : Bool) : (s.setDutyFlags a b).status.cause = s.status.cause := rfl
@[simp] theorem State.setDutyFlags_fop (s : State) (a b : Bool) : (s.setDutyFlags a b).status.fop = s.status.fop := rfl
@[simp] theorem State.setDutyFlags_rclLo (s : State) (a b : Bool) : (s.setDutyFlags a b).status.rclLo = s.status.rclLo := rfl
@[simp] theorem State.setDutyFlags_rclHi (s : State) (a b : Bool) : (s.setDutyFlags a b).status.rclHi = s.status.rclHi := rfl
@[simp] theorem State.setDutyFlags_rzero (s : State) (a b : Bool) : (s.setDutyFlags a b).status.rzero = s.status.rzero := rfl
@[simp] theorem State.setDutyFlags_vcl (s : State) (a b : Bool) : (s.setDutyFlags a b).status.vcl = a := rfl
@[simp] theorem State.setDutyFlags_dcl (s : State) (a b : Bool) : (s.setDutyFlags a b).status.dcl = b := rfl
@[simp] theorem State.setDutyFlags_params (s : State) (a b : Bool) : (s.setDutyFlags a b).params = s.params := rfl
@[simp] theorem State.setDutyFlags_host (s : State) (a b : Bool) : (s.setDutyFlags a b).host = s.host := rfl
@[simp] theorem State.setDutyFlags_pending (s : State) (a b : Bool) : (s.setDutyFlags a b).pending = s.pending := rfl
@[simp] theorem State.setDutyFlags_reads (s : State) (a b : Bool) : (s.setDutyFlags a b).reads = s.reads := rfl
@[simp] theorem State.setDutyFlags_draws (s : State) (a b : Bool) : (s.setDutyFlags a b).draws = s.draws := rfl

@[simp] theorem faultEntry_regs (c : Cause) (o : BitVec 4) (s : State) : (faultEntry c o s).regs = s.regs := rfl
@[simp] theorem faultEntry_valid (c : Cause) (o : BitVec 4) (s : State) : (faultEntry c o s).valid = s.valid := rfl
@[simp] theorem faultEntry_fatal (c : Cause) (o : BitVec 4) (s : State) : (faultEntry c o s).status.fatal = true := rfl
@[simp] theorem faultEntry_cause (c : Cause) (o : BitVec 4) (s : State) : (faultEntry c o s).status.cause = some c := rfl
@[simp] theorem faultEntry_fop (c : Cause) (o : BitVec 4) (s : State) : (faultEntry c o s).status.fop = o := rfl
@[simp] theorem faultEntry_rclLo (c : Cause) (o : BitVec 4) (s : State) : (faultEntry c o s).status.rclLo = s.status.rclLo := rfl
@[simp] theorem faultEntry_rclHi (c : Cause) (o : BitVec 4) (s : State) : (faultEntry c o s).status.rclHi = s.status.rclHi := rfl
@[simp] theorem faultEntry_rzero (c : Cause) (o : BitVec 4) (s : State) : (faultEntry c o s).status.rzero = s.status.rzero := rfl
@[simp] theorem faultEntry_vcl (c : Cause) (o : BitVec 4) (s : State) : (faultEntry c o s).status.vcl = s.status.vcl := rfl
@[simp] theorem faultEntry_dcl (c : Cause) (o : BitVec 4) (s : State) : (faultEntry c o s).status.dcl = s.status.dcl := rfl
@[simp] theorem faultEntry_params (c : Cause) (o : BitVec 4) (s : State) : (faultEntry c o s).params = s.params := rfl
@[simp] theorem faultEntry_host (c : Cause) (o : BitVec 4) (s : State) : (faultEntry c o s).host = s.host := rfl
@[simp] theorem faultEntry_pending (c : Cause) (o : BitVec 4) (s : State) : (faultEntry c o s).pending = s.pending := rfl
@[simp] theorem faultEntry_reads (c : Cause) (o : BitVec 4) (s : State) : (faultEntry c o s).reads = s.reads := rfl
@[simp] theorem faultEntry_draws (c : Cause) (o : BitVec 4) (s : State) : (faultEntry c o s).draws = s.draws := rfl

@[simp] theorem resetDevice_regs (s : State) : (resetDevice s).regs = Regs.reset := rfl
@[simp] theorem resetDevice_valid (s : State) : (resetDevice s).valid = 0 := rfl
@[simp] theorem resetDevice_status (s : State) : (resetDevice s).status = Status.reset := rfl
@[simp] theorem resetDevice_params (s : State) : (resetDevice s).params = s.params := rfl
@[simp] theorem resetDevice_host (s : State) : (resetDevice s).host = HostState.startup := rfl
@[simp] theorem resetDevice_pending (s : State) : (resetDevice s).pending = s.pending := rfl
@[simp] theorem resetDevice_reads (s : State) : (resetDevice s).reads = s.reads := rfl
@[simp] theorem resetDevice_draws (s : State) : (resetDevice s).draws = s.draws := rfl

@[simp] theorem afterRead_regs (off : Nat) (s : State) : (afterRead off s).regs = s.regs := rfl
@[simp] theorem afterRead_valid (off : Nat) (s : State) : (afterRead off s).valid = s.valid := rfl
@[simp] theorem afterRead_status (off : Nat) (s : State) : (afterRead off s).status = s.status := rfl
@[simp] theorem afterRead_params (off : Nat) (s : State) : (afterRead off s).params = s.params := rfl
@[simp] theorem afterRead_host (off : Nat) (s : State) : (afterRead off s).host = s.host := rfl
@[simp] theorem afterRead_pending (off : Nat) (s : State) : (afterRead off s).pending = s.pending := rfl
@[simp] theorem afterRead_reads (off : Nat) (s : State) : (afterRead off s).reads = readWord off s :: s.reads := rfl
@[simp] theorem afterRead_draws (off : Nat) (s : State) : (afterRead off s).draws = if readDraws off s then s.draws + 1 else s.draws := rfl

/-! Reading a register and its VALID bit after each update. -/

@[simp] theorem State.setRatioFlags_get (s : State) (a b : Bool) (r : Reg) : (s.setRatioFlags a b).get r = s.get r := rfl
@[simp] theorem State.setZeroFlag_get (s : State) (a : Bool) (r : Reg) : (s.setZeroFlag a).get r = s.get r := rfl
@[simp] theorem State.setDutyFlags_get (s : State) (a b : Bool) (r : Reg) : (s.setDutyFlags a b).get r = s.get r := rfl
@[simp] theorem faultEntry_get (c : Cause) (o : BitVec 4) (s : State) (r : Reg) : (faultEntry c o s).get r = s.get r := rfl
@[simp] theorem afterRead_get (off : Nat) (s : State) (r : Reg) : (afterRead off s).get r = s.get r := rfl
@[simp] theorem State.setRatioFlags_isValid (s : State) (a b : Bool) (r : Reg) :
    (s.setRatioFlags a b).isValid r = s.isValid r := rfl
@[simp] theorem State.setZeroFlag_isValid (s : State) (a : Bool) (r : Reg) : (s.setZeroFlag a).isValid r = s.isValid r := rfl
@[simp] theorem State.setDutyFlags_isValid (s : State) (a b : Bool) (r : Reg) :
    (s.setDutyFlags a b).isValid r = s.isValid r := rfl
@[simp] theorem faultEntry_isValid (c : Cause) (o : BitVec 4) (s : State) (r : Reg) :
    (faultEntry c o s).isValid r = s.isValid r := rfl
@[simp] theorem afterRead_isValid (off : Nat) (s : State) (r : Reg) : (afterRead off s).isValid r = s.isValid r := rfl

@[simp] theorem Regs.get_set (g : Regs) (r r' : Reg) (v : Word) :
    (g.set r v).get r' = if r' = r then v else g.get r' := by
  cases r <;> cases r' <;> rfl

theorem Reg.validBit_inj {r r' : Reg} (h : r.validBit = r'.validBit) : r = r' := by
  cases r <;> cases r' <;> first | rfl | exact absurd h (by decide)

theorem Reg.validBit_lt (r : Reg) : r.validBit < 32 := by cases r <;> decide

@[simp] theorem State.setReg_get (s : State) (r r' : Reg) (v : Word) :
    (s.setReg r v).get r' = if r' = r then v else s.get r' := Regs.get_set _ _ _ _

@[simp] theorem State.setReg_isValid (s : State) (r r' : Reg) (v : Word) :
    (s.setReg r v).isValid r' = (decide (r' = r) || s.isValid r') := by
  have hr := r.validBit_lt
  have hr' := r'.validBit_lt
  simp only [State.isValid, State.setReg_valid, BitVec.getLsbD_or, BitVec.getLsbD_shiftLeft, BitVec.getLsbD_one]
  by_cases h : r' = r
  · subst h; simp [hr]
  · have hb : r'.validBit ≠ r.validBit := fun e => h (Reg.validBit_inj e)
    simp [h]
    intro; omega

@[simp] theorem Regs.reset_get (r : Reg) : Regs.reset.get r = 0 := by cases r <;> rfl
@[simp] theorem resetDevice_get (s : State) (r : Reg) : (resetDevice s).get r = 0 := Regs.reset_get r
@[simp] theorem resetDevice_isValid (s : State) (r : Reg) : (resetDevice s).isValid r = false := by
  simp [State.isValid]

/-! What the host holds and has still to do is no part of a register. -/

@[simp] theorem State.pending_get (s : State) (ops : List HostOp) (r : Reg) :
    ({ s with pending := ops } : State).get r = s.get r := rfl
@[simp] theorem State.pending_isValid (s : State) (ops : List HostOp) (r : Reg) :
    ({ s with pending := ops } : State).isValid r = s.isValid r := rfl

@[simp] theorem State.host_get (s : State) (h : HostState) (r : Reg) : ({ s with host := h } : State).get r = s.get r := rfl
@[simp] theorem State.host_isValid (s : State) (h : HostState) (r : Reg) :
    ({ s with host := h } : State).isValid r = s.isValid r := rfl

/-- Writing a register twice with one value is writing it once (spec/20_memory.md R57). -/
theorem State.setReg_setReg (s : State) (r : Reg) (v : Word) : (s.setReg r v).setReg r v = s.setReg r v := by
  have h1 : (s.regs.set r v).set r v = s.regs.set r v := by cases r <;> rfl
  simp only [State.setReg, h1, BitVec.or_assoc, BitVec.or_self]

/-- One bit of a flag's word. -/
theorem flagBit_getLsbD (b : Bool) (k i : Nat) (hk : k < 32) : (flagBit b k).getLsbD i = (b && decide (i = k)) := by
  cases b
  · simp [flagBit]
  · by_cases h : i = k
    · subst h; simp [flagBit, hk]
    · simp [flagBit, BitVec.getLsbD_one, h]
      intros; omega

/-- Bit 0 of STATUS is FATAL (R27). -/
@[simp] theorem Status.word_getLsbD_zero (t : Status) : t.word.getLsbD 0 = t.fatal := by
  simp only [Status.word, BitVec.getLsbD_or, flagBit_getLsbD _ _ _ (by decide : 0 < 32), flagBit_getLsbD _ _ _ (by decide : 16 < 32),
    flagBit_getLsbD _ _ _ (by decide : 17 < 32), flagBit_getLsbD _ _ _ (by decide : 18 < 32),
    flagBit_getLsbD _ _ _ (by decide : 19 < 32), flagBit_getLsbD _ _ _ (by decide : 20 < 32), BitVec.getLsbD_shiftLeft]
  simp

/-- Two register files with the same contents are the same. -/
theorem Regs.ext_get {g h : Regs} (e : ∀ r, g.get r = h.get r) : g = h := by
  cases g; cases h
  have := e .adcCode; have := e .ratio; have := e .res; have := e .temp; have := e .filt; have := e .vratio
  have := e .duty; have := e .rKnown; have := e .nomOhms; have := e .nomTempK; have := e .beta; have := e .alpha
  have := e .dcmVi; have := e .dcmL; have := e .dcmIo; have := e .dcmT
  simp_all [Regs.get]

end Sys2Proof.Machine
end

