-- ==== Sys2Proof/Laws/Ops.lean ====
section
/-! SUPPORT. What a command can do, said once: the frame `perform` (spec/60_exceptions.md R212, R214), the body of each
command, what a body that completes commits (spec/00_scope.md R14, spec/10_state.md R28) and which causes a body can raise
(R211). -/

namespace Sys2Proof.Machine

theorem perform_fatal {op : BitVec 4} {body : State → Except Cause State} {s : State} (h : s.status.fatal = true) :
    perform op body s = .next s := by simp [perform, h]

theorem perform_ok {op : BitVec 4} {body : State → Except Cause State} {s t : State} (h : s.status.fatal = false)
    (hb : body s = .ok t) : perform op body s = .next t := by simp [perform, h, hb]

theorem perform_error {op : BitVec 4} {body : State → Except Cause State} {s : State} {c : Cause}
    (h : s.status.fatal = false) (hb : body s = .error c) : perform op body s = .next (faultEntry c op s) := by
  simp [perform, h, hb]

/-- Everything `perform` can do. -/
theorem perform_cases {op : BitVec 4} {body : State → Except Cause State} {s : State}
    {o : Host.Outcome State Fault Refusal} (h : perform op body s = o) :
    (s.status.fatal = true ∧ o = .next s) ∨
      (s.status.fatal = false ∧ ∃ t, body s = .ok t ∧ o = .next t) ∨
      (s.status.fatal = false ∧ ∃ c, body s = .error c ∧ o = .next (faultEntry c op s)) := by
  subst h
  cases hf : s.status.fatal with
  | true => exact .inl ⟨rfl, perform_fatal hf⟩
  | false =>
    cases hb : body s with
    | ok t => exact .inr (.inl ⟨rfl, t, rfl, perform_ok hf hb⟩)
    | error c => exact .inr (.inr ⟨rfl, c, rfl, perform_error hf hb⟩)

/-- The body that `exec` performs for a command. -/
def bodyOf : Instr → State → Except Cause State
  | .nop => nopBody
  | .norm => normBody
  | .bridge => bridgeBody
  | .rtot => rtotBody
  | .conv => convBody
  | .iir => iirBody
  | .seed => seedBody
  | .dcmd => dcmdBody

theorem exec_eq (i : Instr) (s : State) : exec i s = perform (opcode i) (bodyOf i) s := by cases i <;> rfl

/-- Everything a command can do (R14, R212, R214). -/
theorem exec_cases {i : Instr} {s t : State} (h : exec i s = .next t) :
    (s.status.fatal = true ∧ t = s) ∨ (s.status.fatal = false ∧ bodyOf i s = .ok t) ∨
      (s.status.fatal = false ∧ ∃ c, bodyOf i s = .error c ∧ t = faultEntry c (opcode i) s) := by
  rw [exec_eq] at h
  rcases perform_cases h with ⟨a, b⟩ | ⟨a, u, b, c⟩ | ⟨a, u, b, c⟩
  · exact .inl ⟨a, by injection b⟩
  · injection c with c; subst c; exact .inr (.inl ⟨a, b⟩)
  · injection c with c; exact .inr (.inr ⟨a, u, b, c⟩)

theorem decode_encode (i : Instr) : decode (encode i) = .ok i := by cases i <;> decide

/-- A word is its two fields (spec/30_encoding.md R70). -/
theorem word_fields (w : Word) : w = rsvField w ++ opField w := by
  apply BitVec.eq_of_toNat_eq
  have hw := w.isLt
  have e : (w.extractLsb' 4 28 ++ w.extractLsb' 0 4 : BitVec (28 + 4)).toNat = w.toNat := by
    rw [BitVec.toNat_append, BitVec.extractLsb'_toNat, BitVec.extractLsb'_toNat, Nat.shiftRight_eq_div_pow,
      Nat.shiftRight_eq_div_pow, Nat.shiftLeft_eq, Nat.mod_eq_of_lt (by omega : w.toNat / 2 ^ 4 < 2 ^ 28), mul_comm,
      ← Nat.two_pow_add_eq_or_of_lt (by omega)]
    omega
  exact e.symm

/-- The only word that decodes to a command is the one the encoder gives it (R71). -/
theorem decode_ok {w : Word} {i : Instr} (h : decode w = .ok i) : w = encode i := by
  have key : ∀ o : BitVec 4, ∀ i ∈ [Instr.nop, .norm, .bridge, .rtot, .conv, .iir, .seed, .dcmd],
      commandOf o = some i → o = opcode i := by decide
  unfold decode at h
  split at h
  · next hr =>
    split at h
    · next j hc =>
      cases h
      rw [word_fields w, hr, key _ i (by cases i <;> simp) hc]; rfl
    · cases h
  · cases h

/-- Every command answers a next state: a fault of the block is one (R212). -/
theorem exec_total (i : Instr) (s : State) : ∃ t, exec i s = .next t := by
  rw [exec_eq]
  rcases perform_cases (rfl : perform (opcode i) (bodyOf i) s = _) with ⟨-, e⟩ | ⟨-, t, -, e⟩ | ⟨-, c, -, e⟩ <;>
    exact ⟨_, e⟩

/-- A write to CMD (spec/30_encoding.md R72). -/
theorem writeCmd_cases {w : Word} {s : State} {o : Host.Outcome State Fault Refusal} (h : writeCmd w s = o) :
    (∃ i, decode w = .ok i ∧ o = exec i s) ∨
      (∃ e, decode w = .error e ∧
        ((s.status.fatal = true ∧ o = .next s) ∨
          (s.status.fatal = false ∧ o = .next (faultEntry .illegalCmd (opField w) s)))) := by
  unfold writeCmd at h
  cases hd : decode w with
  | ok i => rw [hd] at h; exact .inl ⟨i, rfl, h.symm⟩
  | error e =>
    rw [hd] at h
    refine .inr ⟨e, rfl, ?_⟩
    rcases perform_cases h with ⟨a, b⟩ | ⟨a, u, b, c⟩ | ⟨a, u, b, c⟩
    · exact .inl ⟨a, b⟩
    · cases b
    · cases b; exact .inr ⟨a, c⟩

/-- A faulted block ignores every command (R214). -/
theorem exec_fatal {i : Instr} {s : State} (h : s.status.fatal = true) : exec i s = .next s := by
  rw [exec_eq]; exact perform_fatal h

theorem writeCmd_fatal {w : Word} {s : State} (h : s.status.fatal = true) : writeCmd w s = .next s := by
  rcases writeCmd_cases (rfl : writeCmd w s = _) with ⟨i, -, e⟩ | ⟨e, -, ⟨-, h'⟩ | ⟨h', -⟩⟩
  · rw [e, exec_fatal h]
  · exact h'
  · simp [h] at h'

/-- The registers and flags a completed command leaves. -/
structure Committed (i : Instr) (s t : State) : Prop where
  kept : ∀ r, r ∉ resultsOf i → t.get r = s.get r ∧ t.isValid r = s.isValid r
  written : ∀ r, r ∈ resultsOf i → t.isValid r = true
  fatal : t.status.fatal = s.status.fatal
  cause : t.status.cause = s.status.cause
  fop : t.status.fop = s.status.fop
  ratioFlags : i ∉ [.norm, .conv] → t.status.rclLo = s.status.rclLo ∧ t.status.rclHi = s.status.rclHi
  zeroFlag : i ∉ [.rtot, .conv] → t.status.rzero = s.status.rzero
  dutyFlags : i ∉ [.dcmd] → t.status.vcl = s.status.vcl ∧ t.status.dcl = s.status.dcl
  params : t.params = s.params
  host : t.host = s.host
  pending : t.pending = s.pending
  reads : t.reads = s.reads
  draws : t.draws = s.draws

/-! What each body commits. -/

theorem normBody_ok {s t : State} (h : normBody s = .ok t) :
    s.isValid .adcCode = true ∧
      t = (s.setReg .ratio (normStage s.params (s.get .adcCode)).ratio).setRatioFlags
        (normStage s.params (s.get .adcCode)).lo (normStage s.params (s.get .adcCode)).hi := by
  unfold normBody at h
  split at h
  · cases h
  · next hv => exact ⟨by simpa using hv, by injection h with h; exact h.symm⟩

theorem bridgeBody_ok {s t : State} (h : bridgeBody s = .ok t) : ∃ v, t = s.setReg .res v := by
  unfold bridgeBody at h
  repeat' split at h
  all_goals first | (cases h; done) | (cases h; exact ⟨_, rfl⟩)

theorem rtotBody_ok {s t : State} (h : rtotBody s = .ok t) : ∃ v z, t = (s.setReg .temp v).setZeroFlag z := by
  unfold rtotBody at h
  repeat' split at h
  all_goals first | (cases h; done) | (cases h; exact ⟨_, _, rfl⟩)

theorem convBody_ok {s t : State} (h : convBody s = .ok t) :
    s.isValid .adcCode = true ∧ ∃ res o, convBridge s (normStage s.params (s.get .adcCode)).ratio = .ok res ∧
      convBeta s res = .ok o ∧ t = convCommit s (normStage s.params (s.get .adcCode)) res o := by
  unfold convBody at h
  split at h
  · cases h
  · next hv =>
    split at h
    · cases h
    · next res hr =>
      split at h
      · cases h
      · next o ho => cases h; exact ⟨by simpa using hv, res, o, hr, ho, rfl⟩

theorem iirBody_ok {s t : State} (h : iirBody s = .ok t) :
    t = s.setReg .filt (filterStage (s.get .temp) (s.get .filt) (s.get .alpha)) := by
  unfold iirBody at h
  repeat' split at h
  all_goals first | (cases h; done) | (cases h; rfl)

theorem seedBody_ok {s t : State} (h : seedBody s = .ok t) : t = s.setReg .filt (s.get .temp) := by
  unfold seedBody at h
  repeat' split at h
  all_goals first | (cases h; done) | (cases h; rfl)

theorem dcmdBody_ok {s t : State} (h : dcmdBody s = .ok t) : ∃ v a b, t = (s.setReg .duty v).setDutyFlags a b := by
  unfold dcmdBody at h
  repeat' split at h
  all_goals first | (cases h; done) | (cases h; exact ⟨_, _, _, rfl⟩)

/-- What a completed command leaves (R14, R28, spec/30_encoding.md R73). -/
theorem bodyOf_ok {i : Instr} {s t : State} (h : bodyOf i s = .ok t) : Committed i s t := by
  cases i with
  | nop => cases h; constructor <;> simp [resultsOf]
  | norm =>
    obtain ⟨-, rfl⟩ := normBody_ok h
    constructor <;> simp +contextual [resultsOf]
  | bridge =>
    obtain ⟨v, rfl⟩ := bridgeBody_ok h
    constructor <;> simp +contextual [resultsOf]
  | rtot =>
    obtain ⟨v, z, rfl⟩ := rtotBody_ok h
    constructor <;> simp +contextual [resultsOf]
  | conv =>
    obtain ⟨-, res, o, -, -, rfl⟩ := convBody_ok h
    constructor <;> simp +contextual [resultsOf, convCommit]
  | iir =>
    cases iirBody_ok h
    constructor <;> simp +contextual [resultsOf]
  | seed =>
    cases seedBody_ok h
    constructor <;> simp +contextual [resultsOf]
  | dcmd =>
    obtain ⟨v, a, b, rfl⟩ := dcmdBody_ok h
    constructor <;> simp +contextual [resultsOf]

theorem bridgeStage_error {r k : Word} {c : Cause} (h : bridgeStage r k = .error c) : c = .resRange := by
  unfold bridgeStage at h
  split at h <;> cases h
  rfl

theorem betaStage_error {r r0 t0 b : Word} {c : Cause} (h : betaStage r r0 t0 b = .error c) : c = .tempNonfinite := by
  unfold betaStage at h
  repeat' split at h
  all_goals first | (cases h; done) | (cases h; rfl)

theorem convBridge_error {s : State} {r : Word} {c : Cause} (h : convBridge s r = .error c) :
    c ∈ [Cause.operandUnset, .operandNonfinite, .cfgKnown, .resRange] := by
  unfold convBridge at h
  repeat' split at h
  all_goals first | (cases h; simp) | (cases bridgeStage_error h; simp)

theorem convBeta_error {s : State} {r : Word} {c : Cause} (h : convBeta s r = .error c) :
    c ∈ [Cause.operandUnset, .operandNonfinite, .cfgTherm, .tempNonfinite] := by
  unfold convBeta at h
  repeat' split at h
  all_goals first | (cases h; simp) | (cases betaStage_error h; simp)

/-- Which causes a command can raise (R211). -/
theorem bodyOf_error {i : Instr} {s : State} {c : Cause} (h : bodyOf i s = .error c) :
    causeRaisedBy c (opcode i) = true := by
  cases i with
  | nop => cases h
  | norm => simp only [bodyOf, normBody] at h; split at h <;> cases h; decide
  | bridge =>
    simp only [bodyOf, bridgeBody] at h
    repeat' split at h
    all_goals first
      | (cases h; done)
      | (next hb => cases h; cases bridgeStage_error hb; decide)
      | (cases h; decide)
  | rtot =>
    simp only [bodyOf, rtotBody] at h
    repeat' split at h
    all_goals first
      | (cases h; done)
      | (next hb => cases h; cases betaStage_error hb; decide)
      | (cases h; decide)
  | conv =>
    simp only [bodyOf, convBody] at h
    split at h
    · cases h; decide
    · split at h
      · next hb => cases h; revert hb; intro hb; have := convBridge_error hb; fin_cases this <;> decide
      · split at h
        · next hb => cases h; have := convBeta_error hb; fin_cases this <;> decide
        · cases h
  | iir =>
    simp only [bodyOf, iirBody] at h
    repeat' split at h
    all_goals first | (cases h; done) | (cases h; decide)
  | seed =>
    simp only [bodyOf, seedBody] at h
    repeat' split at h
    all_goals first | (cases h; done) | (cases h; decide)
  | dcmd =>
    simp only [bodyOf, dcmdBody] at h
    repeat' split at h
    all_goals first | (cases h; done) | (cases h; decide)

/-- What a write to CMD can leave: the state as it was, a fault, or a completed command. -/
theorem writeCmd_next {w : Word} {s t : State} (h : writeCmd w s = .next t) :
    t = s ∨ (s.status.fatal = false ∧ ∃ c op, causeRaisedBy c op = true ∧ t = faultEntry c op s) ∨
      (s.status.fatal = false ∧ ∃ i, bodyOf i s = .ok t ∧ exec i s = .next t) := by
  rcases writeCmd_cases h with ⟨i, -, e⟩ | ⟨e, -, ⟨-, h'⟩ | ⟨h', e⟩⟩
  · rcases exec_cases e.symm with ⟨-, rfl⟩ | ⟨a, b⟩ | ⟨a, c, b, e⟩
    · exact .inl rfl
    · exact .inr (.inr ⟨a, i, b, by rw [← e]⟩)
    · refine .inr (.inl ⟨a, c, opcode i, ?_, e⟩)
      exact bodyOf_error b
  · injection h' with h'; exact .inl h'
  · injection e with e; exact .inr (.inl ⟨h', _, _, rfl, e⟩)

end Sys2Proof.Machine
end

