-- ==== Sys2Proof/Laws/Bus.lean ====
section
/-! SUPPORT. The register window (spec/20_memory.md R50, R52-R55) and what one host operation and one step can do to the
block, said once. -/

namespace Sys2Proof.Machine

@[simp] theorem portAt_reg (r : Reg) : portAt r.offset = some (.reg r) := by cases r <;> rfl

@[simp] theorem portAt_port (p : Port) : portAt p.offset = some p := by
  cases p with
  | reg r => exact portAt_reg r
  | _ => rfl

theorem Reg.offset_lt (r : Reg) : r.offset < 0x80 := by cases r <;> decide

theorem Reg.offset_mod (r : Reg) : r.offset % 4 = 0 := by cases r <;> rfl

/-- The named offsets are those of the list of R50. -/
theorem portAt_some {off : Nat} {p : Port} (h : portAt off = some p) : off = p.offset := by
  unfold portAt at h
  split at h <;> cases h <;> rfl

theorem accessRefusal_none {off : Nat} (h1 : off < 0x80) (h2 : off % 4 = 0) : accessRefusal off 4 = none := by
  simp [accessRefusal, h2]; omega

@[simp] theorem accessRefusal_reg (r : Reg) : accessRefusal r.offset 4 = none :=
  accessRefusal_none r.offset_lt r.offset_mod

@[simp] theorem memRead_reg (r : Reg) (s : State) : memRead r.offset 4 s = .next (afterRead r.offset s) := by
  simp [memRead]

@[simp] theorem memWrite_reg (r : Reg) (v : Word) (s : State) : memWrite r.offset 4 v s = .next (s.setReg r v) := by
  simp [memWrite]

@[simp] theorem memWrite_cmd (w : Word) (s : State) : memWrite 0x00 4 w s = writeCmd w s := rfl

/-- Everything a read can do (R52, R55). -/
theorem memRead_next {off size : Nat} {s t : State} (h : memRead off size s = .next t) : t = afterRead off s := by
  unfold memRead at h
  split at h
  · cases h
  · injection h with h; exact h.symm

/-- Everything a write can do (R53, R54, R55). -/
theorem memWrite_next {off size : Nat} {v : Word} {s t : State} (h : memWrite off size v s = .next t) :
    t = s ∨ (∃ r, off = r.offset ∧ t = s.setReg r v) ∨ (off = 0 ∧ writeCmd v s = .next t) := by
  unfold memWrite at h
  split at h
  · cases h
  · split at h
    · injection h with h; exact .inl h.symm
    · next hp => exact .inr (.inr ⟨portAt_some hp, h⟩)
    · injection h with h; exact .inl h.symm
    · injection h with h; exact .inl h.symm
    · next r hp => injection h with h; exact .inr (.inl ⟨r, portAt_some hp, h.symm⟩)

/-- What no command and no register access touches. -/
structure SameOutside (s t : State) : Prop where
  params : t.params = s.params
  host : t.host = s.host
  pending : t.pending = s.pending

theorem exec_outside {i : Instr} {s t : State} (h : exec i s = .next t) : SameOutside s t := by
  rcases exec_cases h with ⟨-, rfl⟩ | ⟨-, b⟩ | ⟨-, c, -, rfl⟩
  · exact ⟨rfl, rfl, rfl⟩
  · exact ⟨(bodyOf_ok b).params, (bodyOf_ok b).host, (bodyOf_ok b).pending⟩
  · exact ⟨rfl, rfl, rfl⟩

theorem memWrite_outside {off size : Nat} {v : Word} {s t : State} (h : memWrite off size v s = .next t) :
    SameOutside s t := by
  rcases memWrite_next h with rfl | ⟨r, -, rfl⟩ | ⟨-, h⟩
  · exact ⟨rfl, rfl, rfl⟩
  · exact ⟨rfl, rfl, rfl⟩
  · rcases writeCmd_next h with rfl | ⟨-, c, o, -, rfl⟩ | ⟨-, i, -, e⟩
    · exact ⟨rfl, rfl, rfl⟩
    · exact ⟨rfl, rfl, rfl⟩
    · exact exec_outside e

theorem memRead_outside {off size : Nat} {s t : State} (h : memRead off size s = .next t) : SameOutside s t := by
  rw [memRead_next h]; exact ⟨rfl, rfl, rfl⟩

/-- The block part of the state is the same in both. -/
structure SameBlock (s t : State) : Prop where
  regs : t.regs = s.regs
  valid : t.valid = s.valid
  status : t.status = s.status

theorem SameBlock.refl (s : State) : SameBlock s s := ⟨rfl, rfl, rfl⟩

/-- Everything a write can do, with the size it has and the word of the command it performs (R52 to R55, R72). -/
theorem memWrite_cases {off size : Nat} {v : Word} {s t : State} (h : memWrite off size v s = .next t) :
    t = s ∨ (∃ r : Reg, off = r.offset ∧ size = 4 ∧ t = s.setReg r v) ∨
      (off = 0x00 ∧ size = 4 ∧ ((writeCmd v s = .next t ∧ ∃ c o, t = faultEntry c o s) ∨
        ∃ i, v = encode i ∧ s.status.fatal = false ∧ bodyOf i s = .ok t ∧ exec i s = .next t)) := by
  have hsz : size = 4 := by
    unfold memWrite accessRefusal at h
    by_contra hh
    split at h
    · cases h
    · next e => simp [hh] at e; split at e <;> cases e
  rcases memWrite_next h with e | ⟨r, a, b⟩ | ⟨a, b⟩
  · exact .inl e
  · exact .inr (.inl ⟨r, a, hsz, b⟩)
  · rcases writeCmd_cases b with ⟨i, hd, e⟩ | ⟨-, -, ⟨-, e⟩ | ⟨-, e⟩⟩
    · rcases exec_cases e.symm with ⟨-, e'⟩ | ⟨hf, hb⟩ | ⟨-, c, -, e'⟩
      · exact .inl e'
      · exact .inr (.inr ⟨a, hsz, .inr ⟨i, decode_ok hd, hf, hb, e.symm⟩⟩)
      · exact .inr (.inr ⟨a, hsz, .inl ⟨b, c, _, e'⟩⟩)
    · injection e with e; exact .inl e
    · injection e with e; exact .inr (.inr ⟨a, hsz, .inl ⟨b, _, _, e⟩⟩)

theorem windowOffset_some {p : Params} {addr off : Nat} (h : windowOffset p addr = some off) : addr = p.base + off := by
  unfold windowOffset at h
  split at h
  · next hb => injection h with h; omega
  · cases h

/-- Everything one host operation can do to the block, with the operation that does it: a reset, nothing, a fault of a
command word, a write of a register, or a command that completes. -/
theorem hostStep_writes {op : HostOp} {s t : State} (h : hostStep op s = .next t) :
    (op = .reset ∧ t = resetDevice s) ∨ SameBlock s t ∨
      (∃ w c o, writeCmd w s = .next t ∧ t = faultEntry c o s) ∨
      (∃ r v, (op = .write r.offset 4 v ∨ op = .writeAt (s.params.base + r.offset) 4 v ∨
        (op = .writeRatio ∧ r = .vratio ∧ v = s.host.ratio)) ∧ t = s.setReg r v) ∨
      ∃ i, (op = .write 0x00 4 (encode i) ∨ op = .writeAt (s.params.base + 0x00) 4 (encode i)) ∧
        s.status.fatal = false ∧ bodyOf i s = .ok t ∧ exec i s = .next t := by
  cases op with
  | reset => simp only [hostStep] at h; injection h with h; exact .inl ⟨rfl, h.symm⟩
  | write off size v =>
    rcases memWrite_cases h with rfl | ⟨r, rfl, rfl, e⟩ | ⟨rfl, rfl, ⟨hw, c, o, e⟩ | ⟨i, rfl, k⟩⟩
    · exact .inr (.inl (.refl _))
    · exact .inr (.inr (.inr (.inl ⟨r, v, .inl rfl, e⟩)))
    · exact .inr (.inr (.inl ⟨v, c, o, hw, e⟩))
    · exact .inr (.inr (.inr (.inr ⟨i, .inl rfl, k⟩)))
  | writeAt addr size v =>
    simp only [hostStep, busWrite] at h
    split at h
    · next off ho =>
      rw [windowOffset_some ho]
      rcases memWrite_cases h with rfl | ⟨r, rfl, rfl, e⟩ | ⟨rfl, rfl, ⟨hw, c, o, e⟩ | ⟨i, rfl, k⟩⟩
      · exact .inr (.inl (.refl _))
      · exact .inr (.inr (.inr (.inl ⟨r, v, .inr (.inl rfl), e⟩)))
      · exact .inr (.inr (.inl ⟨v, c, o, hw, e⟩))
      · exact .inr (.inr (.inr (.inr ⟨i, .inr rfl, k⟩)))
    · cases h
  | writeRatio =>
    simp only [hostStep] at h
    rw [memWrite_reg] at h; injection h with h
    exact .inr (.inr (.inr (.inl ⟨.vratio, s.host.ratio, .inr (.inr ⟨rfl, rfl, rfl⟩), h.symm⟩)))
  | read off size => exact .inr (.inl (by rw [memRead_next h]; exact ⟨rfl, rfl, rfl⟩))
  | readAt addr size =>
    simp only [hostStep, busRead] at h
    split at h
    · exact .inr (.inl (by rw [memRead_next h]; exact ⟨rfl, rfl, rfl⟩))
    · cases h
  | launch c =>
    simp only [hostStep, hostLaunch] at h
    repeat' split at h
    all_goals first | (cases h; done) | (cases h; exact .inr (.inl ⟨rfl, rfl, rfl⟩))
  | fanVoltageRatio n ms =>
    simp only [hostStep, hostFanCall] at h
    split at h <;> cases h
    exact .inr (.inl ⟨rfl, rfl, rfl⟩)
  | controlCycle c ms =>
    simp only [hostStep, hostCycle] at h
    split at h <;> cases h
    exact .inr (.inl ⟨rfl, rfl, rfl⟩)
  | checkFatal =>
    simp only [hostStep, hostCheck] at h
    split at h <;> cases h <;> exact .inr (.inl ⟨rfl, rfl, rfl⟩)
  | evalPhases ms =>
    simp only [hostStep, hostEval] at h
    repeat' split at h
    all_goals first | (cases h; done) | (cases h; exact .inr (.inl ⟨rfl, rfl, rfl⟩))

/-- `hostStep_writes` without the operation. -/
theorem hostStep_effect {op : HostOp} {s t : State} (h : hostStep op s = .next t) :
    (op ≠ .reset ∧ ((SameBlock s t) ∨ (∃ r v, t = s.setReg r v) ∨ ∃ w, writeCmd w s = .next t)) ∨
      (op = .reset ∧ t = resetDevice s) := by
  by_cases hop : op = .reset
  · subst hop; simp only [hostStep] at h; injection h with h; exact .inr ⟨rfl, h.symm⟩
  · refine .inl ⟨hop, ?_⟩
    rcases hostStep_writes h with ⟨e, -⟩ | hb | ⟨w, -, -, hw, -⟩ | ⟨r, v, -, e⟩ | ⟨i, -, -, -, e⟩
    · exact absurd e hop
    · exact .inl hb
    · exact .inr (.inr ⟨w, hw⟩)
    · exact .inr (.inl ⟨r, v, e⟩)
    · exact .inr (.inr ⟨encode i, by unfold writeCmd; rw [decode_encode]; exact e⟩)

/-- Everything one host operation can do to what is not the block: nothing, or it resets the device, launches the host,
queues operations, aborts the loop, or records what a fan call returned. -/
theorem hostStep_outside {op : HostOp} {s t : State} (h : hostStep op s = .next t) :
    SameOutside s t ∨ (op = .reset ∧ t = resetDevice s) ∨
      (∃ c, s.host.config = none ∧ c.legal = true ∧
        t = { s with host := { HostState.startup with config := some c } }) ∨
      (∃ ops, t = { s with pending := ops ++ s.pending }) ∨
      (t.params = s.params ∧ t.host = { s.host with aborted := true } ∧
        t.pending = s.pending.dropWhile fun op => !op.isReset) ∨
      (t.params = s.params ∧ t.pending = s.pending ∧
        ∃ p l r, t.host = { s.host with phase := p, lastChangeTimeMs := l, ratio := r }) := by
  cases op with
  | read off size => exact .inl (memRead_outside h)
  | write off size v => exact .inl (memWrite_outside h)
  | readAt a size =>
    simp only [hostStep, busRead] at h; split at h
    · exact .inl (memRead_outside h)
    · cases h
  | writeAt a size v =>
    simp only [hostStep, busWrite] at h; split at h
    · exact .inl (memWrite_outside h)
    · cases h
  | reset => cases h; exact .inr (.inl ⟨rfl, rfl⟩)
  | launch c =>
    simp only [hostStep, hostLaunch] at h
    split at h
    · cases h
    · next hc =>
      split at h
      · next hl => cases h; exact .inr (.inr (.inl ⟨c, by simpa using hc, hl, rfl⟩))
      · cases h
  | fanVoltageRatio n ms =>
    simp only [hostStep, hostFanCall] at h; split at h <;> cases h
    exact .inr (.inr (.inr (.inl ⟨_, rfl⟩)))
  | controlCycle c ms =>
    simp only [hostStep, hostCycle] at h; split at h <;> cases h
    exact .inr (.inr (.inr (.inl ⟨_, rfl⟩)))
  | checkFatal =>
    simp only [hostStep, hostCheck] at h; split at h <;> cases h
    · exact .inr (.inr (.inr (.inr (.inl ⟨rfl, rfl, rfl⟩))))
    · exact .inl ⟨rfl, rfl, rfl⟩
  | evalPhases ms =>
    simp only [hostStep, hostEval] at h
    split at h
    · cases h
    · split at h
      · cases h; exact .inr (.inr (.inr (.inr (.inr ⟨rfl, rfl, _, _, _, rfl⟩))))
      · cases h
  | writeRatio => simp only [hostStep] at h; exact .inl (memWrite_outside h)

/-- Everything one step can do. -/
theorem step_effect {s t : State} (h : step s = .next t) :
    (s.pending = [] ∧ t = s) ∨
      ∃ op rest, s.pending = op :: rest ∧ hostStep op { s with pending := rest } = .next t := by
  unfold step at h
  split at h
  · next hp =>
    unfold idle at h
    split at h
    · cases h
    · injection h with h; exact .inl ⟨hp, h.symm⟩
  · next op rest hp => exact .inr ⟨op, rest, hp, h⟩

end Sys2Proof.Machine
end

