-- ==== Sys2Proof/Laws/Congr.lean ====
section
/-! SUPPORT. What a command does is a function of the parameters and of its operand registers (spec/30_encoding.md R73): on
two states that agree on those it raises the same fault or makes the same commit. -/

namespace Sys2Proof.Machine

/-- The commits a command can make: its result registers and its flags, with values. -/
def IsCommit : Instr → (State → State) → Prop
  | .nop, f => f = id
  | .norm, f => ∃ v a b, f = fun s => (s.setReg .ratio v).setRatioFlags a b
  | .bridge, f => ∃ v, f = fun s => s.setReg .res v
  | .rtot, f => ∃ v z, f = fun s => (s.setReg .temp v).setZeroFlag z
  | .conv, f => ∃ n v o, f = fun s => convCommit s n v o
  | .iir, f => ∃ v, f = fun s => s.setReg .filt v
  | .seed, f => ∃ v, f = fun s => s.setReg .filt v
  | .dcmd, f => ∃ v a b, f = fun s => (s.setReg .duty v).setDutyFlags a b

/-- `s'` has what `s` has in the registers of the list. -/
structure SameOperands (rs : List Reg) (s s' : State) : Prop where
  valid : ∀ r ∈ rs, s'.isValid r = s.isValid r
  get : ∀ r ∈ rs, s.isValid r = true → s'.get r = s.get r

theorem SameOperands.mono {rs rs' : List Reg} {s s' : State} (h : SameOperands rs s s') (hs : ∀ r ∈ rs', r ∈ rs) :
    SameOperands rs' s s' := ⟨fun r hr => h.valid r (hs r hr), fun r hr => h.get r (hs r hr)⟩

theorem SameOperands.allValid {rs : List Reg} {s s' : State} (h : SameOperands rs s s') :
    allValid rs s' = allValid rs s := by
  rw [Bool.eq_iff_iff]; simp only [Machine.allValid, List.all_eq_true]
  exact forall₂_congr fun r hr => by rw [h.valid r hr]

theorem SameOperands.gets {rs : List Reg} {s s' : State} (h : SameOperands rs s s') (hv : Machine.allValid rs s = true) :
    ∀ r ∈ rs, s'.get r = s.get r := fun r hr => h.get r hr (List.all_eq_true.1 hv r hr)

theorem allFinite_congr {rs : List Reg} {s s' : State} (h : ∀ r ∈ rs, s'.get r = s.get r) :
    allFinite rs s' = allFinite rs s := by
  rw [Bool.eq_iff_iff]; simp only [allFinite, List.all_eq_true]
  exact forall₂_congr fun r hr => by rw [h r hr]

theorem allPositive_congr {rs : List Reg} {s s' : State} (h : ∀ r ∈ rs, s'.get r = s.get r) :
    allPositive rs s' = allPositive rs s := by
  rw [Bool.eq_iff_iff]; simp only [allPositive, List.all_eq_true]
  exact forall₂_congr fun r hr => by rw [h r hr]

theorem realOf_congr {r : Reg} {s s' : State} (h : s'.get r = s.get r) : realOf s' r = realOf s r := by
  unfold realOf; rw [h]

/-- The same fault, or the same commit. -/
def Agree (i : Instr) (s s' : State) (a b : Except Cause State) : Prop :=
  (∃ c, a = .error c ∧ b = .error c) ∨ ∃ f, IsCommit i f ∧ a = .ok (f s) ∧ b = .ok (f s')

theorem Agree.err {i : Instr} {s s' : State} (c : Cause) : Agree i s s' (.error c) (.error c) := .inl ⟨c, rfl, rfl⟩

theorem Agree.ok {i : Instr} {s s' : State} (f : State → State) (h : IsCommit i f) :
    Agree i s s' (.ok (f s)) (.ok (f s')) := .inr ⟨f, h, rfl, rfl⟩

theorem Agree.ite {i : Instr} {s s' : State} {p : Prop} [Decidable p] {a b c d : Except Cause State}
    (h1 : p → Agree i s s' a b) (h2 : ¬p → Agree i s s' c d) :
    Agree i s s' (if p then a else c) (if p then b else d) := by
  split
  · exact h1 ‹_›
  · exact h2 ‹_›

theorem convBridge_congr {s s' : State} {ratio : Word} (h : SameOperands [.rKnown] s s') :
    convBridge s' ratio = convBridge s ratio := by
  unfold convBridge
  rw [h.allValid]
  split
  · rfl
  · next hv =>
    have g := h.gets (by simpa using hv)
    rw [allFinite_congr g, allPositive_congr g, g .rKnown (by simp)]

theorem convBeta_congr {s s' : State} {res : Word} (h : SameOperands calibration s s') :
    convBeta s' res = convBeta s res := by
  unfold convBeta
  rw [h.allValid]
  split
  · rfl
  · next hv =>
    have g := h.gets (by simpa using hv)
    rw [allFinite_congr g, allPositive_congr g, g .nomOhms (by simp [calibration]), g .nomTempK (by simp [calibration]),
      g .beta (by simp [calibration])]

theorem bodyOf_congr {i : Instr} {s s' : State} (hm : s'.params.normMode = s.params.normMode)
    (hd : s'.params.fsDiv = s.params.fsDiv) (h : SameOperands (operandsOf i) s s') :
    Agree i s s' (bodyOf i s) (bodyOf i s') := by
  have hn : ∀ c, normStage s'.params c = normStage s.params c := by
    intro c
    have hq : normQuotient s'.params c = normQuotient s.params c := by simp only [normQuotient, hm, hd]
    simp only [normStage, hq]
  cases i with
  | nop => exact Agree.ok id rfl
  | norm =>
    simp only [bodyOf, normBody, h.valid .adcCode (by simp [operandsOf]), hn]
    refine Agree.ite (fun _ => .err _) fun hv => ?_
    rw [h.get .adcCode (by simp [operandsOf]) (by simpa using hv)]
    exact Agree.ok (fun s => (s.setReg .ratio _).setRatioFlags _ _) ⟨_, _, _, rfl⟩
  | bridge =>
    simp only [bodyOf, bridgeBody, SameOperands.allValid (rs := [.ratio, .rKnown]) h]
    refine Agree.ite (fun _ => .err _) fun hv => ?_
    have g := SameOperands.gets (rs := [.ratio, .rKnown]) h (by simpa using hv)
    have g1 : ∀ r ∈ [Reg.rKnown], s'.get r = s.get r := fun r hr => g r (List.mem_cons_of_mem _ hr)
    simp only [allFinite_congr g, allPositive_congr g1, realOf_congr (g .ratio (by simp)), g .ratio (by simp),
      g .rKnown (by simp)]
    refine Agree.ite (fun _ => .err _) fun _ => Agree.ite (fun _ => .err _) fun _ => Agree.ite (fun _ => .err _) fun _ => ?_
    cases bridgeStage (s.get .ratio) (s.get .rKnown) with
    | error c => exact .err c
    | ok res => exact Agree.ok (fun s => s.setReg .res res) ⟨res, rfl⟩
  | rtot =>
    simp only [bodyOf, rtotBody, SameOperands.allValid (rs := .res :: calibration) h]
    refine Agree.ite (fun _ => .err _) fun hv => ?_
    have g := SameOperands.gets (rs := .res :: calibration) h (by simpa using hv)
    have g1 : ∀ r ∈ calibration, s'.get r = s.get r := fun r hr => g r (List.mem_cons_of_mem _ hr)
    simp only [allFinite_congr g, allPositive_congr g1, realOf_congr (g .res (by simp)), g .res (by simp),
      g .nomOhms (by simp [calibration]), g .nomTempK (by simp [calibration]), g .beta (by simp [calibration])]
    refine Agree.ite (fun _ => .err _) fun _ => Agree.ite (fun _ => .err _) fun _ => Agree.ite (fun _ => .err _) fun _ => ?_
    cases betaStage (s.get .res) (s.get .nomOhms) (s.get .nomTempK) (s.get .beta) with
    | error c => exact .err c
    | ok o => exact Agree.ok (fun s => (s.setReg .temp o.temp).setZeroFlag o.rzero) ⟨_, _, rfl⟩
  | conv =>
    simp only [bodyOf, convBody, h.valid .adcCode (by simp [operandsOf]), hn]
    refine Agree.ite (fun _ => .err _) fun hv => ?_
    rw [h.get .adcCode (by simp [operandsOf]) (by simpa using hv), convBridge_congr (h.mono (by simp [operandsOf]))]
    cases convBridge s (normStage s.params (s.get .adcCode)).ratio with
    | error c => exact .err c
    | ok res =>
      simp only
      rw [convBeta_congr (h.mono (by simp [operandsOf, calibration]))]
      cases convBeta s res with
      | error c => exact .err c
      | ok o => exact Agree.ok (fun s => convCommit s _ res o) ⟨_, res, o, rfl⟩
  | iir =>
    simp only [bodyOf, iirBody, SameOperands.allValid (rs := [.temp, .filt, .alpha]) h]
    refine Agree.ite (fun _ => .err _) fun hv => ?_
    have g := SameOperands.gets (rs := [.temp, .filt, .alpha]) h (by simpa using hv)
    simp only [allFinite_congr g, realOf_congr (g .alpha (by simp)), g .temp (by simp), g .filt (by simp),
      g .alpha (by simp)]
    exact Agree.ite (fun _ => .err _) fun _ => Agree.ite (fun _ => .err _) fun _ =>
      Agree.ok (fun s => s.setReg .filt _) ⟨_, rfl⟩
  | seed =>
    simp only [bodyOf, seedBody, SameOperands.allValid (rs := [.temp]) h]
    refine Agree.ite (fun _ => .err _) fun hv => ?_
    have g := SameOperands.gets (rs := [.temp]) h (by simpa using hv)
    simp only [allFinite_congr g, g .temp (by simp)]
    exact Agree.ite (fun _ => .err _) fun _ => Agree.ok (fun s => s.setReg .filt _) ⟨_, rfl⟩
  | dcmd =>
    simp only [bodyOf, dcmdBody, SameOperands.allValid (rs := .vratio :: dcmConstants) h]
    refine Agree.ite (fun _ => .err _) fun hv => ?_
    have g := SameOperands.gets (rs := .vratio :: dcmConstants) h (by simpa using hv)
    have g1 : ∀ r ∈ dcmConstants, s'.get r = s.get r := fun r hr => g r (List.mem_cons_of_mem _ hr)
    simp only [allFinite_congr g1, allPositive_congr g1, g .vratio (by simp), realOf_congr (g1 .dcmVi (by simp [dcmConstants])),
      realOf_congr (g1 .dcmL (by simp [dcmConstants])), realOf_congr (g1 .dcmIo (by simp [dcmConstants])),
      realOf_congr (g1 .dcmT (by simp [dcmConstants]))]
    exact Agree.ite (fun _ => .err _) fun _ => Agree.ite (fun _ => .err _) fun _ => Agree.ite (fun _ => .err _) fun _ =>
      Agree.ok (fun s => (s.setReg .duty _).setDutyFlags _ _) ⟨_, _, _, rfl⟩

/-- On two states that agree on the parameters, the operands and FATAL, `exec` ignores the command on both, or faults on
both with one cause, or makes one commit on both. -/
theorem exec_congr {i : Instr} {s s' t : State} (hf : s'.status.fatal = s.status.fatal)
    (hm : s'.params.normMode = s.params.normMode) (hd : s'.params.fsDiv = s.params.fsDiv)
    (h : SameOperands (operandsOf i) s s') (he : exec i s = .next t) :
    (t = s ∧ exec i s' = .next s') ∨
      (∃ c, t = faultEntry c (opcode i) s ∧ exec i s' = .next (faultEntry c (opcode i) s')) ∨
      ∃ f, IsCommit i f ∧ t = f s ∧ exec i s' = .next (f s') := by
  rcases exec_cases he with ⟨a, e⟩ | ⟨a, b⟩ | ⟨a, c, b, e⟩
  · exact .inl ⟨e, exec_fatal (hf.trans a)⟩
  · rcases bodyOf_congr hm hd h with ⟨c, e, -⟩ | ⟨f, hc, e, e'⟩
    · rw [e] at b; cases b
    · rw [e] at b; cases b
      exact .inr (.inr ⟨f, hc, rfl, by rw [exec_eq]; exact perform_ok (hf.trans a) e'⟩)
  · rcases bodyOf_congr hm hd h with ⟨c', e1, e'⟩ | ⟨f, hc, e1, e'⟩
    · rw [e1] at b; cases b
      exact .inr (.inl ⟨c, e, by rw [exec_eq]; exact perform_error (hf.trans a) e'⟩)
    · rw [e1] at b; cases b

end Sys2Proof.Machine
end

