-- ==== Sys2Proof/Laws/PerInstr.lean ====
section
/-! SUPPORT. The family `Encoding`: what the host's case split asks of every command as syntax (spec/30_encoding.md R70,
R71, R74). -/

namespace Sys2Proof.Laws.Encoding

/-- A command is well formed, its word has `RSV` = 0 and its `OP` in 3:0, and no other command has that word. -/
def Statement (i : Instr) : Prop :=
  i.wellFormed = true ∧ rsvField (encode i) = 0#28 ∧ opField (encode i) = opcode i ∧ (opcode i).toNat < 8 ∧
    ∀ j, encode j = encode i → j = i

theorem nop : Statement .nop :=
  ⟨rfl, by decide, by decide, by decide, fun j => by cases j <;> decide⟩

theorem norm : Statement .norm :=
  ⟨rfl, by decide, by decide, by decide, fun j => by cases j <;> decide⟩

theorem bridge : Statement .bridge :=
  ⟨rfl, by decide, by decide, by decide, fun j => by cases j <;> decide⟩

theorem rtot : Statement .rtot :=
  ⟨rfl, by decide, by decide, by decide, fun j => by cases j <;> decide⟩

theorem conv : Statement .conv :=
  ⟨rfl, by decide, by decide, by decide, fun j => by cases j <;> decide⟩

theorem iir : Statement .iir :=
  ⟨rfl, by decide, by decide, by decide, fun j => by cases j <;> decide⟩

theorem seed : Statement .seed :=
  ⟨rfl, by decide, by decide, by decide, fun j => by cases j <;> decide⟩

theorem dcmd : Statement .dcmd :=
  ⟨rfl, by decide, by decide, by decide, fun j => by cases j <;> decide⟩

end Sys2Proof.Laws.Encoding
end

