-- ==== Sys2Proof/Laws/Run.lean ====
section
/-! SUPPORT. One step of a run whose next host operation is known: a register write, a command, a launch. -/

namespace Sys2Proof.Machine

theorem step_write {s : State} {r : Reg} {v : Word} {rest : List HostOp} (h : s.pending = wrOp r v :: rest) :
    step s = .next (({ s with pending := rest } : State).setReg r v) := by
  unfold step; rw [h]; exact memWrite_reg r v _

theorem step_command {s : State} {i : Instr} {rest : List HostOp} (h : s.pending = cmdOp i :: rest) :
    step s = exec i { s with pending := rest } := by
  have e : ∀ u : State, writeCmd (encode i) u = exec i u := fun u => by unfold writeCmd; rw [decode_encode]
  unfold step; rw [h]; exact e _

theorem step_launch {s : State} {c : HostConfig} {rest : List HostOp} (h : s.pending = .launch c :: rest)
    (hn : s.host.config = none) (hl : c.legal = true) :
    step s = .next { s with pending := rest, host := { HostState.startup with config := some c } } := by
  unfold step; rw [h]; simp [hostStep, hostLaunch, hn, hl]

/-- A run goes on from the state its first step answers. -/
theorem run_succ {s t : State} (n : Nat) (h : step s = .next t) :
    Sys2Proof.core.run (n + 1) s = Sys2Proof.core.run n t := by
  have h' : Sys2Proof.core.step s = _ := h
  simp only [Host.Core.run]; rw [h']

theorem run_write {s : State} {r : Reg} {v : Word} {rest : List HostOp} (n : Nat) (h : s.pending = wrOp r v :: rest) :
    Sys2Proof.core.run (n + 1) s = Sys2Proof.core.run n (({ s with pending := rest } : State).setReg r v) :=
  run_succ n (step_write h)

/-- A run of `n + m` steps is one of `m` steps from where `n` steps lead. -/
theorem run_add (m : Nat) {n : Nat} : ∀ {s t : State}, Sys2Proof.core.run n s = .next t →
    Sys2Proof.core.run (n + m) s = Sys2Proof.core.run m t := by
  induction n with
  | zero => intro s t h; cases h; rw [Nat.zero_add]
  | succ n ih =>
    intro s t h
    have e : n + 1 + m = n + m + 1 := by omega
    rw [e]
    cases hs : step s with
    | next u => rw [run_succ n hs] at h; rw [run_succ _ hs]; exact ih h
    | fault f =>
      have h' : Sys2Proof.core.step s = .fault f := hs
      simp only [Host.Core.run, h'] at h; cases h
    | refused r =>
      have h' : Sys2Proof.core.step s = .refused r := hs
      simp only [Host.Core.run, h'] at h; cases h

end Sys2Proof.Machine
end

