-- ==== Sys2Proof/Laws/Stages.lean ====
section
/-! SUPPORT. What each stage and each operand check can answer, said once (spec/00_scope.md R9-R12, spec/40_thermistor.md
R100, R104, spec/43_dcm_duty.md R180, spec/60_exceptions.md R213). -/

namespace Sys2Proof.Laws

open Sys2Proof.Machine

/-! ## Operand checks -/

theorem allValid_iff (rs : List Reg) (s : State) : allValid rs s = true ↔ ∀ r ∈ rs, s.isValid r = true := by
  simp [allValid]

theorem allFinite_iff (rs : List Reg) (s : State) : allFinite rs s = true ↔ ∀ r ∈ rs, isFinite (s.get r) = true := by
  simp [allFinite]

theorem allPositive_iff (rs : List Reg) (s : State) : allPositive rs s = true ↔ ∀ r ∈ rs, 0 < real (s.get r) := by
  simp [allPositive]

/-! ## Rounding between two binary32 values -/

theorem overflowBound_pos : 0 < overflowBound := by unfold overflowBound; norm_num

theorem abs_real_lt {b : Word} (h : isFinite b = true) : |(real b : ℝ)| < overflowBound := by
  rw [abs_real h, ← midpoint_inf]
  have h1 : magnitude b ≤ infMagnitude - 1 := by have := (isFinite_iff b).1 h; omega
  have h2 := magVal_strictMono.monotone h1
  have h3 : magVal (infMagnitude - 1) < magVal infMagnitude := magVal_strictMono (by decide)
  rw [midpoint_eq]; linarith

/-- A value between two binary32 values rounds to one between them (R10). -/
theorem rounded_between {x : ℝ} {b c d : Word} (h : IsRounded32 x b) (fc : isFinite c = true) (fd : isFinite d = true)
    (h1 : (real c : ℝ) ≤ x) (h2 : x ≤ real d) : isFinite b = true ∧ real c ≤ real b ∧ real b ≤ real d := by
  have hc := abs_lt.1 (abs_real_lt fc)
  have hd := abs_lt.1 (abs_real_lt fd)
  have hx : |x| < overflowBound := abs_lt.2 ⟨by linarith, by linarith⟩
  have n1 := abs_le.1 (h.nearest hx c fc)
  have n2 := abs_le.1 (h.nearest hx d fd)
  rw [abs_of_nonpos (by linarith : (real c : ℝ) - x ≤ 0)] at n1
  rw [abs_of_nonneg (by linarith : 0 ≤ (real d : ℝ) - x)] at n2
  refine ⟨h.finite hx, ?_, ?_⟩
  · have : (real c : ℝ) ≤ real b := by linarith
    exact_mod_cast this
  · have : (real b : ℝ) ≤ real d := by linarith
    exact_mod_cast this

theorem clampRat_eq {x lo hi : ℚ} (h : lo ≤ hi) : clampRat x lo hi = max lo (min x hi) := by
  unfold clampRat
  split
  · next h1 => rw [min_eq_left (by linarith), max_eq_left h1.le]
  · next h1 =>
    split
    · next h2 => rw [min_eq_right h2.le, max_eq_right h]
    · next h2 => rw [min_eq_left (not_lt.1 h2), max_eq_right (not_lt.1 h1)]

theorem real_one : real (0x3F800000#32) = 1 := by decide +kernel

theorem real_zero : real (0#32) = 0 := by decide +kernel

theorem real_resMax : real (0x4E6E6B28#32) = resMax := by decide +kernel

/-- A value in [0, 10^9] rounds to one in it (R104). -/
theorem rne32_resistance {x : ℚ} (h0 : 0 ≤ x) (h1 : x ≤ resMax) :
    isFinite (rne32 x) = true ∧ 0 ≤ real (rne32 x) ∧ real (rne32 x) ≤ resMax := by
  have := rounded_between (rne32_isRne32 x).toIsRounded32 (c := 0#32) (d := 0x4E6E6B28#32) (by decide) (by decide)
    (by rw [real_zero]; exact_mod_cast h0) (by rw [real_resMax]; exact_mod_cast h1)
  rwa [real_zero, real_resMax] at this

/-! ## Stage NORM -/

/-- The ratio of the NORM stage is finite and in (0, 1], whatever the code and the mode (R100). -/
theorem normStage_ratio (p : Params) (code : Word) :
    isFinite (normStage p code).ratio = true ∧ 0 < real (normStage p code).ratio ∧ real (normStage p code).ratio ≤ 1 := by
  have e : (normStage p code).ratio = rne32 (max ratioFloor (min (normQuotient p code) ratioCeil)) := by
    simp only [normStage]; rw [clampRat_eq (by decide +kernel)]
  have hlo : real (0x38000000#32) ≤ ratioFloor := by decide +kernel
  have hpos : 0 < real (0x38000000#32) := by decide +kernel
  have := rounded_between (rne32_isRne32 (max ratioFloor (min (normQuotient p code) ratioCeil))).toIsRounded32
    (c := 0x38000000#32) (d := 0x3F800000#32) (by decide) (by decide)
    (by exact_mod_cast hlo.trans (le_max_left _ _))
    (by rw [real_one]; exact_mod_cast max_le (by decide +kernel) (min_le_right _ _))
  rw [e]
  refine ⟨this.1, hpos.trans_le this.2.1, ?_⟩
  rw [real_one] at this; exact this.2.2

/-! ## Stage BRIDGE -/

/-- Everything the BRIDGE stage can answer on checked operands (R104). -/
theorem bridgeStage_cases {r k : Word} (h0 : 0 < real r) (h1 : real r ≤ 1) (hk : 0 < real k) :
    0 ≤ real k * (1 / real r - 1) ∧
      ((resMax < real k * (1 / real r - 1) ∧ bridgeStage r k = .error .resRange) ∨
        (real k * (1 / real r - 1) ≤ resMax ∧ bridgeStage r k = .ok (rne32 (real k * (1 / real r - 1))))) := by
  refine ⟨mul_nonneg hk.le (sub_nonneg.2 ((one_le_div h0).2 h1)), ?_⟩
  unfold bridgeStage
  by_cases h : resMax < real k * (1 / real r - 1)
  · exact .inl ⟨h, by rw [if_pos h]⟩
  · exact .inr ⟨not_lt.1 h, by rw [if_neg h]⟩

/-! ## Stage DUTY -/

/-- The clamp of the DUTY stage is the one of R180. -/
theorem clampRatio_spec {v : Value} (h : v ≠ .nan) : IsClampedRatio v (clampRatio v) (ratioClamped v) := by
  cases v with
  | nan => exact absurd rfl h
  | inf neg => exact ⟨rfl, rfl⟩
  | fin q => exact ⟨clampRat_eq (by norm_num), by simp [ratioClamped]⟩

theorem clampRatio_mem (v : Value) : 0 ≤ clampRatio v ∧ clampRatio v ≤ 1 := by
  cases v with
  | nan => simp [clampRatio]
  | inf neg => cases neg <;> simp [clampRatio]
  | fin q =>
    simp only [clampRatio, clampRat_eq (show (0 : ℚ) ≤ 1 by norm_num)]
    exact ⟨le_max_left _ _, max_le (by norm_num) (min_le_right _ _)⟩

theorem dutyReal_eq {vr vi l io t : ℚ} :
    dutyReal vr vi l io t = Real.sqrt (dutyNum2 vr vi l io : ℝ) / Real.sqrt (dutyDen2 vr vi t : ℝ) := by
  simp [dutyReal, dutyNum2, dutyDen2]

theorem dutyDen2_nonneg {vr vi t : ℚ} (h1 : vr ≤ 1) (hi : 0 < vi) (ht : 0 < t) : 0 ≤ dutyDen2 vr vi t := by
  have : dutyDen2 vr vi t = vi * vi * t * (1 - vr) := by unfold dutyDen2; ring
  rw [this]; exact mul_nonneg (by positivity) (by linarith)

theorem dutyNum2_nonneg {vr vi l io : ℚ} (h0 : 0 ≤ vr) (hi : 0 < vi) (hl : 0 < l) (ho : 0 < io) :
    0 ≤ dutyNum2 vr vi l io := by unfold dutyNum2; positivity

/-- D is the square root of the quotient of its radicands. -/
theorem dutyReal_sqrt {vr vi l io t : ℚ} (h0 : 0 ≤ vr) (hi : 0 < vi) (hl : 0 < l) (ho : 0 < io) :
    dutyReal vr vi l io t = Real.sqrt ((dutyNum2 vr vi l io / dutyDen2 vr vi t : ℚ) : ℝ) := by
  rw [dutyReal_eq, Rat.cast_div, Real.sqrt_div]
  exact_mod_cast dutyNum2_nonneg h0 hi hl ho

/-- Everything the DUTY stage can answer on checked operands (R180). -/
theorem dcmStage_cases (v : Value) {vi l io t : ℚ} (hi : 0 < vi) (hl : 0 < l) (ho : 0 < io) (ht : 0 < t) :
    (dutyDen2 (clampRatio v) vi t = 0 ∧ dcmStage v vi l io t = ⟨0x3F800000#32, ratioClamped v, true⟩) ∨
      (dutyDen2 (clampRatio v) vi t ≠ 0 ∧
        ∃ d z, dcmStage v vi l io t = ⟨d, ratioClamped v, z⟩ ∧
          IsRne32 (min (dutyReal (clampRatio v) vi l io t) 1) d ∧
          (z = true ↔ 1 < dutyReal (clampRatio v) vi l io t)) := by
  have h0 := (clampRatio_mem v).1
  have e := dutyReal_sqrt (t := t) h0 hi hl ho
  by_cases hd : dutyDen2 (clampRatio v) vi t = 0
  · exact .inl ⟨hd, by simp [dcmStage, hd]⟩
  · refine .inr ⟨hd, ?_⟩
    by_cases h1 : 1 < dutyNum2 (clampRatio v) vi l io / dutyDen2 (clampRatio v) vi t
    · have h1R : 1 < dutyReal (clampRatio v) vi l io t := by
        rw [e, Real.lt_sqrt zero_le_one, one_pow]; exact_mod_cast h1
      refine ⟨rne32 1, true, by simp [dcmStage, hd, h1], ?_, by simp [h1R]⟩
      rw [min_eq_right h1R.le]
      have := rne32_isRne32 1
      rwa [Rat.cast_one] at this
    · have h1R : dutyReal (clampRatio v) vi l io t ≤ 1 := by
        rw [e, Real.sqrt_le_one]; exact_mod_cast not_lt.1 h1
      refine ⟨rneSqrt32 (dutyNum2 (clampRatio v) vi l io / dutyDen2 (clampRatio v) vi t), false, by simp [dcmStage, hd, h1], ?_,
        by simp [h1R]⟩
      rw [min_eq_left h1R, e]
      exact rneSqrt32_isRne32 _ (div_nonneg (dutyNum2_nonneg h0 hi hl ho) (dutyDen2_nonneg (clampRatio_mem v).2 hi ht))

end Sys2Proof.Laws
end

