-- ==== Sys2Proof/Tests/Slice0.lean ====
section
/-! SUPPORT. Tests and witnesses. The expected words of a test come from spec/: the encodings of spec/30_encoding.md R70, R71
and the vectors of spec/95_test_vectors.md, named in each comment. A `witness_X_…` shows states and operands that meet the
hypotheses of the statement X, clause by clause, at the boundary of the clause. -/

namespace Sys2Proof.Tests

open Sys2Proof Sys2Proof.Machine

-- One theorem after another: a kernel evaluation waits for all theorems before it, and each that waits holds a thread.
set_option Elab.async false

/-! ## Helpers -/

/-- The state a command leaves. -/
def ran (i : Instr) (s : State) : State :=
  match exec i s with
  | .next t => t
  | _ => s

/-- The state a step leaves. -/
def stepped (s : State) : State :=
  match step s with
  | .next t => t
  | _ => s

/-- Does the step answer a next state? -/
def steps (s : State) : Bool :=
  match step s with
  | .next _ => true
  | _ => false

theorem exec_ran (i : Instr) (s : State) : exec i s = .next (ran i s) := by
  obtain ⟨t, h⟩ := exec_total i s
  unfold ran; rw [h]

theorem step_stepped {s : State} (h : steps s = true) : step s = .next (stepped s) := by
  unfold steps at h; unfold stepped
  split at h
  · next t e => rw [e]
  · cases h

/-- Register writes, in order. -/
def writes (l : List (Reg × Word)) (s : State) : State := l.foldl (fun s p => s.setReg p.1 p.2) s

/-- "after EX" (spec/95_test_vectors.md section 2). -/
def ex : State :=
  writes [(.rKnown, 0x461C4000#32), (.nomOhms, 0x461C4000#32), (.nomTempK, 0x43951333#32), (.beta, 0x4576E000#32),
    (.alpha, 0x3B000000#32), (.dcmVi, 0x41200000#32), (.dcmL, 0x37D1B717#32), (.dcmIo, 0x3DCCCCCD#32),
    (.dcmT, 0x3727C5AC#32)] State.reset

/-- The host `Config` of spec/95_test_vectors.md section 6. -/
def hostEx : HostConfig :=
  ⟨0x3E99999A#32, 0x3F800000#32, 0x3F800000#32, 1000#32, 0x41F00000#32, 0x42A00000#32, 0x40A00000#32⟩

/-- EX with some registers written, what the host does next, and the host launched. -/
def doing (ops : List HostOp) (l : List (Reg × Word)) : State :=
  { writes l ex with pending := ops, host := { HostState.startup with config := some hostEx } }

/-- The state after the word of a command is written to `CMD`, by one step (30_encoding.md R72). -/
def sent (w : Nat) (s : State) : State := stepped (s.withFetchWord 32 w)

/-! ## Decoding: words written out from spec/30_encoding.md R70, R71 -/

theorem test_decode_thermistor :
    decode 0b00000000000000000000000000000001#32 = .ok .norm ∧
      decode 0b00000000000000000000000000000010#32 = .ok .bridge ∧
      decode 0b00000000000000000000000000000011#32 = .ok .rtot ∧
      decode 0b00000000000000000000000000000100#32 = .ok .conv := by decide

theorem test_decode_filter_dcm_control :
    decode 0b00000000000000000000000000000101#32 = .ok .iir ∧
      decode 0b00000000000000000000000000000110#32 = .ok .seed ∧
      decode 0b00000000000000000000000000000111#32 = .ok .dcmd ∧
      decode 0b00000000000000000000000000000000#32 = .ok .nop := by decide

/-- The ill-formed words of R74: a reserved `OP`, and a bit of `RSV` at each end of the field. -/
theorem test_decode_refuses :
    decode 0x00000008#32 = .error .reservedOp ∧ decode 0x0000000F#32 = .error .reservedOp ∧
      decode 0x00000010#32 = .error .reservedBits ∧ decode 0x80000001#32 = .error .reservedBits ∧
      decode 0xFFFFFFFF#32 = .error .reservedBits := by decide

/-- R73: a command has no operand, so no ill-formed term of `Instr` exists; the checks that refuse something stand in the
decoder, on the bus and at the launch, and are tested there. -/
theorem test_every_command_wellFormed :
    [Instr.nop, .norm, .bridge, .rtot, .conv, .iir, .seed, .dcmd].all Instr.wellFormed = true := by decide

/-- 30_encoding.md R75: a command is one 32-bit word; a table row of 32 bits decodes, a longer one does not. -/
theorem test_decodeTableWord :
    decodeTableWord 32 7 = some .dcmd ∧ decodeTableWord 32 8 = none ∧ decodeTableWord 40 0x100000007 = none := by decide

/-! ## Commands: vectors of spec/95_test_vectors.md -/

/-- CTL-2: NOP keeps the flags (`STATUS` = 0x00010000 after NORM-1). -/
theorem test_nop : (sent 0 (ran .norm (writes [(.adcCode, 0#32)] State.reset))).status.word = 0x00010000#32 := by
  decide +kernel

/-- NORM-1: code 0 is at the floor. -/
theorem test_norm_floor : (sent 1 (writes [(.adcCode, 0#32)] State.reset)).get .ratio = 0x38D1B717#32 := by decide +kernel

/-- NORM-18: `SATURATE` takes the whole code and clamps. -/
theorem test_norm_saturate :
    let s : State := writes [(.adcCode, 0x00001001#32)] { State.reset with params := ⟨.saturate, .div4096, 0⟩ };
    (sent 1 s).get .ratio = 0x3F800000#32 ∧ (sent 1 s).status.word = 0x00020000#32 := by decide +kernel

/-- BR-5: 10000·(1/0.75 - 1), rounded once. -/
theorem test_bridge :
    (sent 2 (writes [(.ratio, 0x3F400000#32)] ex)).get .res = 0x45505555#32 := by decide +kernel

/-- BR-20: `CFG_KNOWN` is reported before `RATIO_DOMAIN`. -/
theorem test_bridge_order :
    (sent 2 (writes [(.ratio, 0x3FC00000#32), (.rKnown, 0#32)] ex)).status.word = 0x00000251#32 := by decide +kernel

/-- RTOT-11: just below the pole of the Beta equation. -/
theorem test_rtot_pole : (sent 3 (writes [(.res, 0x3C907189#32)] ex)).get .temp = 0xD0E91E78#32 := by decide +kernel

/-- RTOT-3: a resistance of -0 gives -273.0 and `RZERO`. -/
theorem test_rtot_zero :
    (sent 3 (writes [(.res, 0x80000000#32)] ex)).get .temp = 0xC3888000#32 ∧
      (sent 3 (writes [(.res, 0x80000000#32)] ex)).status.word = 0x00040000#32 := by decide +kernel

/-- CONV-6: each stage reads the rounded result of the one before. -/
theorem test_conv :
    let t := sent 4 (writes [(.adcCode, 0x00000BB8#32)] ex)
    t.get .ratio = 0x3F3B8000#32 ∧ t.get .res = 0x45645555#32 ∧ t.get .temp = 0x4246B32E#32 := by decide +kernel

/-- CONV-12: a CONV that faults writes nothing, not even the ratio of its first stage. -/
theorem test_conv_all_or_nothing :
    let s := writes [(.adcCode, 0#32), (.rKnown, 0x48435000#32)] ex;
    (sent 4 s).status.word = 0x00000491#32 ∧ (sent 4 s).regs = s.regs ∧ (sent 4 s).valid = s.valid := by decide +kernel

/-- IIR-8: opposite ends of the number range, no overflow. -/
theorem test_iir : (sent 5 (writes [(.temp, 0xFF7FFFFF#32), (.filt, 0x7F7FFFFF#32)] ex)).get .filt = 0x7F7EFFFF#32 := by
  decide +kernel

/-- IIR-18: `OPERAND_NONFINITE` is reported before `CFG_ALPHA`. -/
theorem test_iir_order :
    (sent 5 (writes [(.temp, 0x420C0000#32), (.filt, 0x7F800000#32), (.alpha, 0x3F800000#32)] ex)).status.word =
      0x00000531#32 := by decide +kernel

/-- SEED-2: the copy keeps the sign of zero. -/
theorem test_seed : (sent 6 (writes [(.temp, 0x80000000#32)] State.reset)).get .filt = 0x80000000#32 := by decide +kernel

/-- SEED-4: a NaN is not copied. -/
theorem test_seed_nan :
    let t := sent 6 (writes [(.temp, 0x7FC00000#32)] State.reset)
    t.status.word = 0x00000631#32 ∧ t.isValid .filt = false := by decide +kernel

/-- DCMD-10: the last ratio below the knee. -/
theorem test_dcmd :
    (sent 7 (writes [(.vratio, 0x3F73CF3C#32)] ex)).get .duty = 0x3F7FFFF6#32 ∧
      (sent 7 (writes [(.vratio, 0x3F73CF3C#32)] ex)).status.word = 0#32 := by decide +kernel

/-- DCMD-16: +∞ is clamped, not faulted. -/
theorem test_dcmd_infinity :
    (sent 7 (writes [(.vratio, 0x7F800000#32)] ex)).get .duty = 0x3F800000#32 ∧
      (sent 7 (writes [(.vratio, 0x7F800000#32)] ex)).status.word = 0x00180000#32 := by decide +kernel

/-- CTL-5, CTL-7 and CTL-8: illegal words, and the faulted state. -/
theorem test_illegal_words :
    (sent 0x00000010 State.reset).status.word = 0x00000011#32 ∧
      (sent 0xFFFFFFFF State.reset).status.word = 0x00000F11#32 ∧
      (sent 0x12345678 (faultEntry .ratioDomain 2#4 State.reset)).status.word = 0x00000281#32 := by decide +kernel

/-! ## The bus -/

/-- BUS-1, BUS-5, BUS-8: what offsets 0x00, 0x0C and a register read. -/
theorem test_bus_reads :
    readWord 0x00 ex = 0#32 ∧ readWord 0x0C ex = 0#32 ∧
      readWord 0x28 (writes [(.duty, 0x7FC00000#32)] State.reset) = 0x7FC00000#32 ∧
      readWord 0x08 (writes [(.duty, 0x7FC00000#32)] State.reset) = 0x00000040#32 := by decide

/-- BUS-10: the accesses that do not exist are refused. -/
theorem test_bus_refuses :
    accessRefusal 0x02 4 = some .accessMisaligned ∧ accessRefusal 0x04 1 = some .accessSize ∧
      accessRefusal 0x10 2 = some .accessSize ∧ accessRefusal 0x80 4 = some .outsideWindow ∧
      accessRefusal 0x7C 4 = none := by decide

/-- 20_memory.md R58: byte lanes are little-endian. -/
theorem test_byte_lanes : [0, 1, 2, 3].map (byteLane 0x461C4000#32) = [0x00#8, 0x40#8, 0x1C#8, 0x46#8] := by decide

/-! ## The host model -/

/-- H-5 and H-6: the chains out of SPINUP. -/
theorem test_host_chains :
    evalPhase hostEx .spinup 35 1100#32 100#32 = ⟨0x3EBD70A4#32, .on, 1100#32⟩ ∧
      evalPhase hostEx .spinup 10 1100#32 100#32 = ⟨0#32, .off, 1100#32⟩ := by decide +kernel

/-- H-7: the elapsed time is a modular difference. -/
theorem test_host_wrap :
    evalPhase hostEx .spinup 35 100#32 0xFFFFFF9B#32 = ⟨0x3F800000#32, .spinup, 0xFFFFFF9B#32⟩ := by decide +kernel

/-- R151: the invariants of the host's `Config`, each broken in turn, and one value that is no number. -/
theorem test_host_config_refused :
    hostEx.legal = true ∧ HostConfig.legal { hostEx with fanMaxDutyCycle := 0#32 } = false ∧
      HostConfig.legal { hostEx with tempMaxC := 0x41F00000#32 } = false ∧
      HostConfig.legal { hostEx with tempHysteresisC := 0xBF800000#32 } = false ∧
      HostConfig.legal { hostEx with fanSpinupDutyCycle := 0x7FC00000#32 } = false := by decide +kernel

/-- 30_encoding.md R77: SAMPLE is three bus accesses. -/
theorem test_sample :
    (Pseudo.sample 0x800#32).lines.map Line.op =
      [.write 0x10 4 0x800#32, .write 0x00 4 4#32, .write 0x00 4 5#32] := by decide

/-! ## Witnesses: the command word -/

theorem witness_CmdWriteRule :
    (faultEntry .illegalCmd 8#4 ex).status.fatal = true ∧ ex.status.fatal = false ∧
      (8#32 : Word).extractLsb' 4 28 = 0#28 ∧ 8 ≤ ((8#32 : Word).extractLsb' 0 4).toNat ∧
      (16#32 : Word).extractLsb' 4 28 ≠ 0#28 ∧
      (7#32 : Word).extractLsb' 4 28 = 0#28 ∧ ((7#32 : Word).extractLsb' 0 4).toNat < 8 := by decide

theorem witness_StepRunsTheCommand :
    decode 7#32 = .ok .dcmd ∧ (doing [.write 0x00 4 7#32] []).pending = .write 0x00 4 7#32 :: [] := by decide

theorem witness_NopChangesNothing :
    State.reset.status.fatal = false ∧ (0x10#32 : Word).extractLsb' 0 4 = 0#4 ∧ (0x10#32 : Word) ≠ 0#32 := by decide

/-! ## Witnesses: completion and faults of the commands -/

theorem witness_NormCompletesOrFaults :
    (writes [(.adcCode, 0x800#32)] State.reset).status.fatal = false ∧
      (writes [(.adcCode, 0x800#32)] State.reset).isValid .adcCode = true ∧
      State.reset.status.fatal = false ∧ State.reset.isValid .adcCode = false := by decide

/-- The registers of the list hold finite values. -/
def ready (rs : List Reg) (s : State) : Prop :=
  (∀ x ∈ rs, s.isValid x = true) ∧ ∀ x ∈ rs, isFinite (s.get x) = true

/-- A resistance of exactly 1e9 completes. -/
theorem witness_BridgeCompletesOrFaults_completes :
    let s := writes [(.ratio, 0x3F000000#32), (.rKnown, 0x4E6E6B28#32)] ex;
    s.status.fatal = false ∧ (∀ x ∈ [Reg.ratio, .rKnown], s.isValid x = true) ∧
      (∀ x ∈ [Reg.ratio, .rKnown], isFinite (s.get x) = true) ∧ 0 < real (s.get .rKnown) ∧ 0 < real (s.get .ratio) ∧
      real (s.get .ratio) ≤ 1 ∧ real (s.get .rKnown) * (1 / real (s.get .ratio) - 1) = 10 ^ 9 := by decide +kernel

/-- Each fault clause: unset, infinite, a known resistance of 0, the ratio next above 1, the resistance next above 1e9. -/
theorem witness_BridgeCompletesOrFaults_faults :
    ¬(∀ x ∈ [Reg.ratio, .rKnown], State.reset.isValid x = true) ∧
    (let s := writes [(.ratio, 0x7F800000#32)] ex;
      (∀ x ∈ [Reg.ratio, .rKnown], s.isValid x = true) ∧ ¬∀ x ∈ [Reg.ratio, .rKnown], isFinite (s.get x) = true) ∧
    (let s := writes [(.ratio, 0x3F000000#32), (.rKnown, 0#32)] ex;
      (∀ x ∈ [Reg.ratio, .rKnown], s.isValid x = true) ∧ (∀ x ∈ [Reg.ratio, .rKnown], isFinite (s.get x) = true) ∧
        ¬0 < real (s.get .rKnown)) ∧
    (let s := writes [(.ratio, 0x3F800001#32)] ex;
      (∀ x ∈ [Reg.ratio, .rKnown], s.isValid x = true) ∧ (∀ x ∈ [Reg.ratio, .rKnown], isFinite (s.get x) = true) ∧
        0 < real (s.get .rKnown) ∧ ¬(0 < real (s.get .ratio) ∧ real (s.get .ratio) ≤ 1)) ∧
    let s := writes [(.ratio, 0x3F000000#32), (.rKnown, 0x4E6E6B29#32)] ex;
    (∀ x ∈ [Reg.ratio, .rKnown], s.isValid x = true) ∧ (∀ x ∈ [Reg.ratio, .rKnown], isFinite (s.get x) = true) ∧
      0 < real (s.get .rKnown) ∧ 0 < real (s.get .ratio) ∧ real (s.get .ratio) ≤ 1 ∧
      10 ^ 9 < real (s.get .rKnown) * (1 / real (s.get .ratio) - 1) := by decide +kernel

/-- The operands of the BETA stage at which the logarithm is 0: R = R0. -/
theorem inverseTempReal_nominal {r t b : ℚ} (h : r ≠ 0) : inverseTempReal r r t b = 1 / (t : ℝ) := by
  unfold inverseTempReal
  rw [div_self (by exact_mod_cast h)]; simp

theorem overflowBound_pos : (600 : ℝ) < overflowBound := by unfold overflowBound; norm_num

/-- The nominal point is inside the number range, whatever the beta coefficient. -/
theorem nominal_in_range {r b : ℚ} (h : r ≠ 0) :
    0 < inverseTempReal r r (real 0x43951333#32) b ∧ |tempReal r r (real 0x43951333#32) b| < overflowBound := by
  have e : real 0x43951333#32 = 9769779 / 32768 := by decide +kernel
  refine ⟨?_, ?_⟩
  · rw [inverseTempReal_nominal h, e]; norm_num
  · unfold tempReal; rw [inverseTempReal_nominal h, e]
    refine lt_trans ?_ overflowBound_pos
    norm_num [abs_lt]

/-- Operands just above the pole, with a nominal temperature at the top of the number range: the result overflows. -/
theorem hot_overflows :
    overflowBound ≤ |tempReal (real 0x3F7FFFFF#32) (real 0x3F800000#32) (real 0x7F7FFFFF#32) (real 0x7F000000#32)| := by
  have e1 : real 0x3F7FFFFF#32 = 1 - 1 / 2 ^ 24 := by decide +kernel
  have e2 : real 0x3F800000#32 = 1 := by decide +kernel
  have e3 : real 0x7F7FFFFF#32 = 2 ^ 128 * (1 - 1 / 2 ^ 24) := by decide +kernel
  have e4 : real 0x7F000000#32 = 2 ^ 127 := by decide +kernel
  have up := Real.log_le_sub_one_of_pos (show (0 : ℝ) < 1 - 1 / 2 ^ 24 by norm_num)
  have lo := Real.one_sub_inv_le_log_of_pos (show (0 : ℝ) < 1 - 1 / 2 ^ 24 by norm_num)
  unfold tempReal inverseTempReal
  rw [e1, e2, e3, e4]
  push_cast
  rw [div_one]
  generalize Real.log (1 - 1 / 2 ^ 24) = l at up lo
  have hpos : 0 < 1 / ((2 : ℝ) ^ 128 * (1 - 1 / 2 ^ 24)) + l / 2 ^ 127 := by
    have : (1 - (1 - 1 / 2 ^ 24)⁻¹ : ℝ) / 2 ^ 127 ≤ l / 2 ^ 127 := by gcongr
    refine lt_of_lt_of_le ?_ (add_le_add_right this _)
    norm_num
  have hle : 1 / ((2 : ℝ) ^ 128 * (1 - 1 / 2 ^ 24)) + l / 2 ^ 127 ≤
      1 / ((2 : ℝ) ^ 128 * (1 - 1 / 2 ^ 24)) + (1 - 1 / 2 ^ 24 - 1) / 2 ^ 127 := by gcongr
  have hT := one_div_le_one_div_of_le hpos hle
  refine le_trans ?_ (le_abs_self _)
  refine le_trans ?_ (sub_le_sub_right hT 273)
  unfold overflowBound
  norm_num

theorem witness_RtotCompletesOrFaults_completes :
    let s := writes [(.res, 0x461C4000#32)] ex;
    s.status.fatal = false ∧ ready [.res, .nomOhms, .nomTempK, .beta] s ∧
      (∀ x ∈ [Reg.nomOhms, .nomTempK, .beta], 0 < real (s.get x)) ∧ 0 ≤ real (s.get .res) ∧
      real (s.get .res) ≤ 10 ^ 9 ∧ real (s.get .res) ≠ 0 ∧
      inverseTempReal (real (s.get .res)) (real (s.get .nomOhms)) (real (s.get .nomTempK)) (real (s.get .beta)) ≠ 0 ∧
      |tempReal (real (s.get .res)) (real (s.get .nomOhms)) (real (s.get .nomTempK)) (real (s.get .beta))| <
        overflowBound := by
  refine ⟨by decide, ⟨by decide, by decide⟩, by decide +kernel, by decide +kernel, by decide +kernel, by decide +kernel, ?_⟩
  have := nominal_in_range (r := real 0x461C4000#32) (b := real 0x4576E000#32) (by decide +kernel)
  exact ⟨this.1.ne', this.2⟩

/-- The zero clause at -0, and each fault clause: unset, a NaN, a beta of -0, the resistance next above 1e9 and one below
0. -/
theorem witness_RtotCompletesOrFaults_zero_faults :
    (let s := writes [(.res, 0x80000000#32)] ex;
      ready [.res, .nomOhms, .nomTempK, .beta] s ∧ (∀ x ∈ [Reg.nomOhms, .nomTempK, .beta], 0 < real (s.get x)) ∧
        real (s.get .res) = 0) ∧
    ¬(∀ x ∈ [Reg.res, .nomOhms, .nomTempK, .beta], ex.isValid x = true) ∧
    (let s := writes [(.res, 0x461C4000#32), (.beta, 0x7FC00000#32)] ex;
      (∀ x ∈ [Reg.res, .nomOhms, .nomTempK, .beta], s.isValid x = true) ∧
        ¬∀ x ∈ [Reg.res, .nomOhms, .nomTempK, .beta], isFinite (s.get x) = true) ∧
    (let s := writes [(.res, 0x461C4000#32), (.beta, 0x80000000#32)] ex;
      ready [.res, .nomOhms, .nomTempK, .beta] s ∧ ¬∀ x ∈ [Reg.nomOhms, .nomTempK, .beta], 0 < real (s.get x)) ∧
    (let s := writes [(.res, 0x4E6E6B29#32)] ex;
      ready [.res, .nomOhms, .nomTempK, .beta] s ∧ (∀ x ∈ [Reg.nomOhms, .nomTempK, .beta], 0 < real (s.get x)) ∧
        ¬(0 ≤ real (s.get .res) ∧ real (s.get .res) ≤ 10 ^ 9)) ∧
    let s := writes [(.res, 0x80000001#32)] ex;
    ready [.res, .nomOhms, .nomTempK, .beta] s ∧ (∀ x ∈ [Reg.nomOhms, .nomTempK, .beta], 0 < real (s.get x)) ∧
      ¬(0 ≤ real (s.get .res) ∧ real (s.get .res) ≤ 10 ^ 9) := by
  unfold ready; decide +kernel

/-- The calibration of `hot_overflows`. -/
def hot : State :=
  writes [(.nomOhms, 0x3F800000#32), (.nomTempK, 0x7F7FFFFF#32), (.beta, 0x7F000000#32), (.rKnown, 0x3F7FFFFF#32)] ex

theorem witness_RtotCompletesOrFaults_nonfinite :
    let s := writes [(.res, 0x3F7FFFFF#32)] hot;
    s.status.fatal = false ∧ ready [.res, .nomOhms, .nomTempK, .beta] s ∧
      (∀ x ∈ [Reg.nomOhms, .nomTempK, .beta], 0 < real (s.get x)) ∧ 0 ≤ real (s.get .res) ∧
      real (s.get .res) ≤ 10 ^ 9 ∧ real (s.get .res) ≠ 0 ∧
      overflowBound ≤
        |tempReal (real (s.get .res)) (real (s.get .nomOhms)) (real (s.get .nomTempK)) (real (s.get .beta))| := by
  unfold ready
  exact ⟨by decide, ⟨by decide, by decide⟩, by decide +kernel, by decide +kernel, by decide +kernel, by decide +kernel,
    hot_overflows⟩

/-- The exact resistance of CONV's second stage. -/
def convResistance (s : State) : ℚ :=
  let k : ℕ := if s.params.normMode = .mask then (s.get .adcCode).toNat % 2 ^ 12 else (s.get .adcCode).toNat;
  let q : ℚ := k / (if s.params.fsDiv = .div4096 then 4096 else 4095);
  real (s.get .rKnown) * (1 / real (rne32 (max (1 / 10000) (min q 1))) - 1)

/-- The checks of CONV up to its third stage. -/
def convReady (s : State) : Prop :=
  s.isValid .adcCode = true ∧ ready [.rKnown, .nomOhms, .nomTempK, .beta] s ∧
    (∀ x ∈ [Reg.rKnown, .nomOhms, .nomTempK, .beta], 0 < real (s.get x)) ∧ convResistance s ≤ 10 ^ 9

theorem witness_ConvCompletesOrFaults_completes :
    let s := writes [(.adcCode, 0x800#32)] ex;
    let res := rne32 (convResistance s);
    s.status.fatal = false ∧ convReady s ∧ real res ≠ 0 ∧
      inverseTempReal (real res) (real (s.get .nomOhms)) (real (s.get .nomTempK)) (real (s.get .beta)) ≠ 0 ∧
      |tempReal (real res) (real (s.get .nomOhms)) (real (s.get .nomTempK)) (real (s.get .beta))| < overflowBound := by
  have e : rne32 (convResistance (writes [(.adcCode, 0x800#32)] ex)) = 0x461C4000#32 := by decide +kernel
  have := nominal_in_range (r := real 0x461C4000#32) (b := real 0x4576E000#32) (by decide +kernel)
  simp only [e]
  unfold convReady ready
  exact ⟨by decide, by decide +kernel, by decide +kernel, this.1.ne', this.2⟩

theorem witness_ConvCompletesOrFaults_nonfinite :
    let s := writes [(.adcCode, 0x800#32)] hot;
    let res := rne32 (convResistance s);
    s.status.fatal = false ∧ convReady s ∧ real res ≠ 0 ∧
      overflowBound ≤ |tempReal (real res) (real (s.get .nomOhms)) (real (s.get .nomTempK)) (real (s.get .beta))| := by
  have e : rne32 (convResistance (writes [(.adcCode, 0x800#32)] hot)) = 0x3F7FFFFF#32 := by decide +kernel
  simp only [e]
  unfold convReady ready
  exact ⟨by decide, by decide +kernel, by decide +kernel, hot_overflows⟩

/-- The clause of a resistance of 0: the divisor 4095 with the code 4095 (CONV-11). -/
theorem witness_ConvCompletesOrFaults_zero :
    let s : State := writes [(.adcCode, 0xFFF#32)] { ex with params := ⟨.mask, .div4095, 0⟩ };
    s.status.fatal = false ∧ convReady s ∧ real (rne32 (convResistance s)) = 0 := by
  unfold convReady ready; decide +kernel

/-- The fault clauses in order: no code, no known resistance, an infinite one, one of 0, a resistance above 1e9, an unset,
an infinite and a non-positive calibration. -/
theorem witness_ConvCompletesOrFaults_faults :
    ex.isValid .adcCode = false ∧
    (let s := writes [(.adcCode, 0x800#32)] State.reset;
      s.isValid .adcCode = true ∧ s.isValid .rKnown = false) ∧
    (let s := writes [(.adcCode, 0x800#32), (.rKnown, 0x7F800000#32)] State.reset;
      s.isValid .adcCode = true ∧ s.isValid .rKnown = true ∧ isFinite (s.get .rKnown) = false) ∧
    (let s := writes [(.adcCode, 0x800#32), (.rKnown, 0#32)] State.reset;
      s.isValid .adcCode = true ∧ s.isValid .rKnown = true ∧ isFinite (s.get .rKnown) = true ∧ ¬0 < real (s.get .rKnown)) ∧
    (let s := writes [(.adcCode, 0x800#32), (.rKnown, 0x4E6E6B29#32)] State.reset;
      s.isValid .adcCode = true ∧ ready [.rKnown] s ∧ 0 < real (s.get .rKnown) ∧ ¬convResistance s ≤ 10 ^ 9) ∧
    (let s := writes [(.adcCode, 0x800#32), (.rKnown, 0x4E6E6B28#32)] State.reset;
      s.isValid .adcCode = true ∧ ready [.rKnown] s ∧ 0 < real (s.get .rKnown) ∧ convResistance s ≤ 10 ^ 9 ∧
        ¬∀ x ∈ [Reg.nomOhms, .nomTempK, .beta], s.isValid x = true) ∧
    (let s := writes [(.adcCode, 0x800#32), (.beta, 0x7F800000#32)] ex;
      s.isValid .adcCode = true ∧ ready [.rKnown] s ∧ 0 < real (s.get .rKnown) ∧ convResistance s ≤ 10 ^ 9 ∧
        (∀ x ∈ [Reg.nomOhms, .nomTempK, .beta], s.isValid x = true) ∧
        ¬∀ x ∈ [Reg.nomOhms, .nomTempK, .beta], isFinite (s.get x) = true) ∧
    let s := writes [(.adcCode, 0x800#32), (.beta, 0#32)] ex;
    s.isValid .adcCode = true ∧ ready [.rKnown, .nomOhms, .nomTempK, .beta] s ∧ 0 < real (s.get .rKnown) ∧
      convResistance s ≤ 10 ^ 9 ∧ ¬∀ x ∈ [Reg.nomOhms, .nomTempK, .beta], 0 < real (s.get x) := by
  unfold ready; decide +kernel

/-- The operands of IIR-1 with another coefficient. -/
def filtering (a : Word) : State := writes [(.temp, 0x420C0000#32), (.filt, 0x41C80000#32), (.alpha, a)] ex

/-- All checks of IIR pass. -/
def iirLegal (s : State) : Prop :=
  s.status.fatal = false ∧ ready [.temp, .filt, .alpha] s ∧ 0 < real (s.get .alpha) ∧ real (s.get .alpha) < 1

/-- The smallest and the largest legal coefficient complete; unset, infinite, and the two ends of the range fault. -/
theorem witness_IirCompletesOrFaults :
    iirLegal (filtering 0x00000001#32) ∧ iirLegal (filtering 0x3F7FFFFF#32) ∧
    ¬(∀ x ∈ [Reg.temp, .filt, .alpha], ex.isValid x = true) ∧
    (let s := writes [(.temp, 0x7F800000#32), (.filt, 0x41C80000#32)] ex;
      (∀ x ∈ [Reg.temp, .filt, .alpha], s.isValid x = true) ∧ ¬∀ x ∈ [Reg.temp, .filt, .alpha], isFinite (s.get x) = true) ∧
    (ready [.temp, .filt, .alpha] (filtering 0x00000000#32) ∧ ¬iirLegal (filtering 0x00000000#32)) ∧
    ready [.temp, .filt, .alpha] (filtering 0x3F800000#32) ∧ ¬iirLegal (filtering 0x3F800000#32) := by
  unfold iirLegal ready; decide +kernel

theorem witness_SeedCompletesOrFaults :
    (let s := writes [(.temp, 0x80000000#32)] State.reset;
      s.status.fatal = false ∧ s.isValid .temp = true ∧ isFinite (s.get .temp) = true) ∧
    State.reset.isValid .temp = false ∧
    let s := writes [(.temp, 0x7F800000#32)] State.reset;
    s.isValid .temp = true ∧ isFinite (s.get .temp) = false := by decide

/-- All checks of DCMD pass. -/
def dcmLegal (s : State) : Prop :=
  s.status.fatal = false ∧ (∀ x ∈ [Reg.vratio, .dcmVi, .dcmL, .dcmIo, .dcmT], s.isValid x = true) ∧
    isNaN (s.get .vratio) = false ∧ ready [.dcmVi, .dcmL, .dcmIo, .dcmT] s ∧
    ∀ x ∈ [Reg.dcmVi, .dcmL, .dcmIo, .dcmT], 0 < real (s.get x)

/-- Completion with a denominator of 0 (ratio 1) and above 0 (next below 1); an infinite ratio is legal. -/
theorem witness_DcmdCompletesOrFaults_completes :
    dcmLegal (writes [(.vratio, 0x3F7FFFFF#32)] ex) ∧ dcmLegal (writes [(.vratio, 0x3F800000#32)] ex) ∧
    dcmLegal (writes [(.vratio, 0xFF800000#32)] ex) ∧
    (let vi := real (ex.get .dcmVi);
      let t := real (ex.get .dcmT);
      vi * vi * t - vi * (real 0x3F800000#32 * vi) * t = 0 ∧ vi * vi * t - vi * (real 0x3F7FFFFF#32 * vi) * t ≠ 0) := by
  unfold dcmLegal ready; decide +kernel

/-- The fault clauses of DCMD: unset, a NaN ratio, an infinite constant, a constant of 0. -/
theorem witness_DcmdCompletesOrFaults_faults :
    ¬(∀ x ∈ [Reg.vratio, .dcmVi, .dcmL, .dcmIo, .dcmT], ex.isValid x = true) ∧
    (let s := writes [(.vratio, 0x7FC00000#32)] ex;
      (∀ x ∈ [Reg.vratio, .dcmVi, .dcmL, .dcmIo, .dcmT], s.isValid x = true) ∧ isNaN (s.get .vratio) = true) ∧
    (let s := writes [(.vratio, 0x3F000000#32), (.dcmT, 0x7F800000#32)] ex;
      (∀ x ∈ [Reg.vratio, .dcmVi, .dcmL, .dcmIo, .dcmT], s.isValid x = true) ∧
        ¬∀ x ∈ [Reg.dcmVi, .dcmL, .dcmIo, .dcmT], isFinite (s.get x) = true) ∧
    let s := writes [(.vratio, 0x3F000000#32), (.dcmVi, 0#32)] ex;
    (∀ x ∈ [Reg.vratio, .dcmVi, .dcmL, .dcmIo, .dcmT], s.isValid x = true) ∧ isNaN (s.get .vratio) = false ∧
      ready [.dcmVi, .dcmL, .dcmIo, .dcmT] s ∧ ¬∀ x ∈ [Reg.dcmVi, .dcmL, .dcmIo, .dcmT], 0 < real (s.get x) := by
  unfold ready; decide +kernel

/-! ## Witnesses: faults and frames -/

/-- A faulted state. -/
def faulted : State := faultEntry .illegalCmd 8#4 ex

theorem witness_FaultEntryIsPrecise :
    ex.status.fatal = false ∧ memWrite 0x00 4 8#32 ex = .next faulted ∧ faulted.status.fatal = true :=
  ⟨by decide, by rfl, by decide⟩

theorem witness_FaultedStateRule :
    faulted.status.fatal = true ∧ 0x7C % 4 = 0 ∧ (0x7C : Nat) ≤ 0x7C ∧ HostOp.read 0x7C 4 ≠ .reset ∧
      hostStep (.read 0x7C 4) faulted = .next (afterRead 0x7C faulted) :=
  ⟨by decide, by decide, by decide, by decide, by rfl⟩

/-- The three ways: idling, fault entry, reset. -/
theorem witness_FaultFieldsOnlyByEntryOrReset :
    (step ex = .next ex) ∧ step (ex.withFetchWord 32 8) = .next faulted ∧
      step { faulted with pending := [.reset] } = .next (resetDevice faulted) :=
  ⟨by rfl, by rfl, by rfl⟩

theorem witness_CommandFrame :
    let s := writes [(.adcCode, 0x800#32)] ex;
    exec .norm s = .next (ran .norm s) ∧ Reg.duty ∉ resultsOf .norm ∧
      (0x10 ≠ 0x04 ∧ 0x10 ≠ 0x08 ∧ ∀ r ∈ resultsOf .norm, 0x10 ≠ r.offset) :=
  ⟨exec_ran _ _, by decide, by decide⟩

/-- A command that owns no flag, one that faults, and a step that changes a flag. -/
theorem witness_FlagsFrame :
    exec .seed ex = .next (ran .seed ex) ∧ (ran .seed ex).status.fatal = true ∧
      (let s := State.withFetchWord (writes [(.adcCode, 0#32)] ex) 32 1;
        step s = .next (stepped s) ∧ s.pending.head? ≠ some .reset ∧ (stepped s).status.rclLo ≠ s.status.rclLo) :=
  ⟨exec_ran _ _, by decide +kernel, step_stepped (by decide +kernel), by decide, by decide +kernel⟩

/-! ## Witnesses: the window -/

theorem witness_ReadReturns :
    (∀ off ∈ [0x00, 0x04, 0x08, 0x0C, 0x50, 0x20, 0x7C], off % 4 = 0 ∧ off ≤ 0x7C) ∧ 0x50 = Reg.alpha.offset ∧
      ex.isValid .alpha = true ∧ 0x20 = Reg.filt.offset ∧ ex.isValid .filt = false ∧
      (∀ off ∈ [0x0C, 0x7C], off ≠ 0x00 ∧ off ≠ 0x04 ∧ off ≠ 0x08 ∧
        ∀ r ∈ [Reg.adcCode, .ratio, .res, .temp, .filt, .vratio, .duty, .rKnown, .nomOhms, .nomTempK, .beta, .alpha,
          .dcmVi, .dcmL, .dcmIo, .dcmT], off ≠ r.offset) := by decide

theorem witness_WriteEffects :
    (∀ off ∈ [0x00, 0x04, 0x60, 0x7C], off % 4 = 0 ∧ off ≤ 0x7C) ∧ 7#32 = encode .dcmd ∧ 0x60 = Reg.dcmT.offset ∧
      (0x04 ≠ 0x00 ∧ ∀ r : Reg, 0x04 ≠ r.offset) ∧ 0x7C ≠ 0x00 ∧ ∀ r : Reg, 0x7C ≠ r.offset :=
  ⟨by decide, by decide, by decide, ⟨by decide, fun r => by cases r <;> decide⟩, by decide, fun r => by cases r <;> decide⟩

theorem witness_RegisterWriteStores : Reg.duty ≠ Reg.filt := by decide

theorem witness_RegisterMapIsInjective :
    (Reg.dcmL, 0x58, 14) ∈ [(Reg.dcmL, 0x58, 14), (.dcmIo, 0x5C, 15)] ∧ ex.valid.getLsbD 14 = true ∧
      Reg.duty.offset = Reg.duty.offset ∧ Reg.duty.validBit = Reg.duty.validBit := by decide

theorem witness_RefusedAccesses :
    0x80 ≤ 0x80 ∧ (0x7F < 0x80 ∧ 2 ≠ 4) ∧ (0x7F < 0x80 ∧ 4 = 4 ∧ 0x7F % 4 ≠ 0) := by decide

theorem witness_AccessesRepeat :
    memRead 0x50 4 ex = .next (afterRead 0x50 ex) ∧ (∀ r : Reg, 0x50 = r.offset → ex.isValid r = true) ∧
      0x20 ≠ 0x00 ∧ memWrite 0x20 4 7#32 ex = .next (ex.setReg .filt 7#32) ∧ 0x20 ≠ Reg.duty.offset :=
  ⟨by rfl, fun r h => by cases r <;> revert h <;> decide, by decide, by rfl, by decide⟩

/-- The window at 0x1000: its two ends, and the addresses next to them. -/
theorem witness_PlatformAddress :
    let b := (State.params { ex with params := ⟨.mask, .div4096, 0x1000⟩ }).base;
    (b ≤ 0x1000 ∧ 0x1000 < b + 0x80) ∧ (b ≤ 0x107F ∧ 0x107F < b + 0x80) ∧ (0x0FFF < b ∨ b + 0x80 ≤ 0x0FFF) ∧
      (0x1080 < b ∨ b + 0x80 ≤ 0x1080) := by decide

theorem witness_BaseIsInvisible : exec .nop ex = .next (ran .nop ex) := exec_ran _ _

/-! ## Witnesses: reset, invariants, noninterference -/

theorem witness_ResetOperation : (doing [.reset] []).pending = .reset :: [] := by decide

/-- A reset clears a VALID bit; a write, a write at a platform address, the write of a cycle and a command set one. -/
theorem witness_ValidBitsOnlyClearedByReset :
    (let s : State := { ex with pending := [.reset] };
      step s = .next (stepped s) ∧ s.isValid .alpha = true ∧ (stepped s).isValid .alpha = false) ∧
    (let s : State := { ex with pending := [.write 0x20 4 7#32] };
      step s = .next (stepped s) ∧ s.isValid .filt = false ∧ (stepped s).isValid .filt = true) ∧
    (let s : State := { ex with pending := [.writeAt 0x20 4 7#32] };
      step s = .next (stepped s) ∧ s.isValid .filt = false ∧ (stepped s).isValid .filt = true) ∧
    (let s := doing [.writeRatio] [];
      step s = .next (stepped s) ∧ s.isValid .vratio = false ∧ (stepped s).isValid .vratio = true) ∧
    let s := State.withFetchWord (writes [(.adcCode, 0#32)] ex) 32 1;
    step s = .next (stepped s) ∧ s.isValid .ratio = false ∧ (stepped s).isValid .ratio = true :=
  ⟨⟨by rfl, by decide, by decide⟩, ⟨by rfl, by decide, by decide⟩, ⟨by rfl, by decide, by decide⟩,
    ⟨by rfl, by decide, by decide⟩, step_stepped (by decide +kernel), by decide,
    by decide +kernel⟩

/-- The invariant holds of a faulted state whose host has been aborted and waits for the reset. -/
theorem witness_StepKeepsInvariant :
    let s : State :=
      { faulted with host := { HostState.startup with config := some hostEx, aborted := true }, pending := [.reset] }
    s.Inv ∧ step s = .next (stepped s) := by
  refine ⟨⟨⟨by decide, fun _ => ⟨.illegalCmd, by decide, by decide⟩⟩, fun k hk => ?_, fun c h => ?_, fun _ => .inr ⟨[], rfl⟩⟩, by rfl⟩
  · rcases Nat.lt_or_ge k 32 with h | h
    · have : ∀ k < 32, k = 7 ∨ 17 ≤ k → faulted.valid.getLsbD k = false := by decide
      exact this k h hk
    · exact BitVec.getLsbD_of_ge _ _ h
  · injection h with h; subst h; decide +kernel

theorem witness_ConfigurationIsImmutable :
    let s := doing [] [];
    step s = .next s ∧ s.host.config = some hostEx := ⟨by rfl, by rfl⟩

/-- `FILT` changed by a write, a write at a platform address, SEED and reset. -/
theorem witness_FilterStateCarrier :
    (let s : State := { ex with pending := [.write 0x20 4 7#32] };
      step s = .next (stepped s) ∧ (stepped s).get .filt ≠ s.get .filt) ∧
    (let s : State := { ex with pending := [.writeAt 0x20 4 7#32] };
      step s = .next (stepped s) ∧ (stepped s).get .filt ≠ s.get .filt) ∧
    (let s := State.withFetchWord (writes [(.temp, 7#32)] ex) 32 6;
      step s = .next (stepped s) ∧ (stepped s).get .filt ≠ s.get .filt) ∧
    let s : State := { writes [(.filt, 7#32)] ex with pending := [.reset] };
    step s = .next (stepped s) ∧ (stepped s).isValid .filt ≠ s.isValid .filt :=
  ⟨⟨by rfl, by decide⟩, ⟨by rfl, by decide⟩, ⟨step_stepped (by decide +kernel), by decide +kernel⟩, by rfl, by decide⟩

/-- Another content of a register that holds no value. -/
def unset (s : State) : State := { s with regs := s.regs.set .filt 0xFFFFFFFF#32 }

theorem same_unset {s : State} (h : s.isValid .filt = false) : SameButUnset s (unset s) := by
  refine ⟨fun r hr => ?_, rfl, rfl, rfl, rfl, rfl, rfl, rfl⟩
  have : r ≠ .filt := by rintro rfl; rw [h] at hr; cases hr
  simp [unset, State.get, this]

/-- Two states that differ in such a content, which step, which stop with the fault, and which refuse. -/
theorem witness_UnsetContentsNeverMatter :
    (SameButUnset ex (unset ex) ∧ ex ≠ unset ex ∧ step ex = .next ex) ∧
      (let s : State := { ex with host := { HostState.startup with aborted := true } };
        SameButUnset s (unset s) ∧ step s = .fault .hostAborted) ∧
      let s : State := { ex with pending := [.read 0x20 1] };
      SameButUnset s (unset s) ∧ step s = .refused .accessSize :=
  ⟨⟨same_unset (by decide), by decide, by rfl⟩, ⟨same_unset (by decide), by rfl⟩, same_unset (by decide), by rfl⟩

theorem witness_FlagsAreNeverRead : exec .norm ex = .next (ran .norm ex) := exec_ran _ _

/-! ## Witnesses: properties of the families -/

theorem witness_ConvIsNormBridgeRtot :
    let s := writes [(.adcCode, 0xBB8#32)] ex;
    s.status.fatal = false ∧ exec .conv s = .next (ran .conv s) ∧ (ran .conv s).status.fatal = false :=
  ⟨by decide, exec_ran _ _, by decide +kernel⟩

theorem witness_ConvUsesTwelveBits :
    let s := writes [(.adcCode, 0xBB8#32)] ex;
    s.params.normMode = .mask ∧ exec .conv s = .next (ran .conv s) ∧ s.status.fatal = false ∧
      (ran .conv s).status.fatal = false ∧
      (0xFFFFFBB8#32 : Word).extractLsb' 0 12 = (s.get .adcCode).extractLsb' 0 12 :=
  ⟨by decide, exec_ran _ _, by decide, by decide +kernel, by decide⟩

theorem witness_RatioRange :
    let s := writes [(.adcCode, 0#32)] ex;
    s.status.fatal = false ∧ s.isValid .adcCode = true ∧ exec .norm s = .next (ran .norm s) :=
  ⟨by decide, by decide, exec_ran _ _⟩

/-- BRIDGE on the ratios 0.5 and 0.75, RTOT on the nominal resistance and on twice it, under one calibration. -/
theorem witness_TemperatureIsMonotone :
    (let s := writes [(.ratio, 0x3F000000#32)] ex;
      let s' := writes [(.ratio, 0x3F400000#32)] ex
      exec .bridge s = .next (ran .bridge s) ∧ exec .bridge s' = .next (ran .bridge s') ∧
        s.status.fatal = false ∧ s'.status.fatal = false ∧ (ran .bridge s).status.fatal = false ∧
        (ran .bridge s').status.fatal = false ∧ (∀ r ∈ [Reg.rKnown, .nomOhms, .nomTempK, .beta], s'.get r = s.get r) ∧
        real (s.get .ratio) ≤ real (s'.get .ratio)) ∧
    let s := writes [(.res, 0x461C4000#32)] ex;
    let s' := writes [(.res, 0x469C4000#32)] ex
    exec .rtot s = .next (ran .rtot s) ∧ exec .rtot s' = .next (ran .rtot s') ∧
      s.status.fatal = false ∧ s'.status.fatal = false ∧ (ran .rtot s).status.fatal = false ∧
      (ran .rtot s').status.fatal = false ∧ (∀ r ∈ [Reg.rKnown, .nomOhms, .nomTempK, .beta], s'.get r = s.get r) ∧
      0 < real (s.get .res) ∧ real (s.get .res) ≤ real (s'.get .res) ∧
      0 < inverseTempReal (real (s.get .res)) (real (s.get .nomOhms)) (real (s.get .nomTempK)) (real (s.get .beta)) := by
  have := nominal_in_range (r := real 0x461C4000#32) (b := real 0x4576E000#32) (by decide +kernel)
  exact ⟨⟨exec_ran _ _, exec_ran _ _, by decide, by decide, by decide +kernel, by decide +kernel, by decide,
      by decide +kernel⟩,
    exec_ran _ _, exec_ran _ _, by decide, by decide, by decide +kernel, by decide +kernel, by decide, by decide +kernel,
      by decide +kernel, this.1⟩

theorem witness_IirFixedPoint :
    let s := writes [(.temp, 0x41C80000#32), (.filt, 0x41C80000#32)] ex;
    s.status.fatal = false ∧ (∀ r ∈ operandsOf .iir, s.isValid r = true) ∧ isFinite (s.get .temp) = true ∧
      s.get .temp ≠ 0x80000000#32 ∧ s.get .filt = s.get .temp ∧ isFinite (s.get .alpha) = true ∧
      0 < real (s.get .alpha) ∧ real (s.get .alpha) < 1 := by decide +kernel

theorem witness_IirStaysBetween :
    let s := writes [(.temp, 0xFF7FFFFF#32), (.filt, 0x7F7FFFFF#32)] ex;
    s.status.fatal = false ∧ exec .iir s = .next (ran .iir s) ∧ (ran .iir s).status.fatal = false :=
  ⟨by decide, exec_ran _ _, by decide +kernel⟩

theorem witness_DutyInUnitInterval :
    let s := writes [(.vratio, 0x7F800000#32)] ex;
    s.status.fatal = false ∧ exec .dcmd s = .next (ran .dcmd s) ∧ (ran .dcmd s).status.fatal = false :=
  ⟨by decide, exec_ran _ _, by decide +kernel⟩

theorem witness_DutyClosedForm :
    ((0 : ℚ) ≤ 0 ∧ (0 : ℚ) < 1) ∧
      let s := writes [(.vratio, 0x3DCCCCCD#32)] ex;
      let s' := writes [(.vratio, 0x3F000000#32)] ex
      s.status.fatal = false ∧ s'.status.fatal = false ∧
        (∀ r ∈ [Reg.dcmVi, .dcmL, .dcmIo, .dcmT], s'.get r = s.get r) ∧ isFinite (s.get .vratio) = true ∧
        isFinite (s'.get .vratio) = true ∧ real (s.get .vratio) ≤ real (s'.get .vratio) ∧
        exec .dcmd s = .next (ran .dcmd s) ∧ exec .dcmd s' = .next (ran .dcmd s') ∧
        (ran .dcmd s).status.fatal = false ∧ (ran .dcmd s').status.fatal = false :=
  ⟨by decide +kernel, by decide, by decide, by decide, by decide, by decide, by decide +kernel, exec_ran _ _, exec_ran _ _,
    by decide +kernel, by decide +kernel⟩

theorem witness_RoundingIsMonotone :
    (1 / 3 : ℚ) ≤ 1 ∧ |((1 / 3 : ℚ) : ℝ)| < overflowBound ∧ |((1 : ℚ) : ℝ)| < overflowBound ∧
      isFinite 0x00000001#32 = true ∧ (0x00000001#32 : Word) ≠ 0x80000000#32 := by
  refine ⟨by norm_num, ?_, ?_, by decide, by decide⟩ <;> refine lt_trans ?_ overflowBound_pos <;> norm_num

/-! ## Witnesses: the host -/

/-- A fan evaluation about to happen. -/
def evaluating (p : Phase) (last filt ms : Word) : State :=
  let s := doing [.evalPhases ms] [(.filt, filt)];
  { s with host := { s.host with phase := p, lastChangeTimeMs := last } }

/-- The common hypotheses of the phase chains. -/
theorem witness_FanPhaseChains (p : Phase) (last ms : Word) :
    let s := evaluating p last 0x41F00000#32 ms;
    s.pending = .evalPhases ms :: [] ∧ s.host.config = some hostEx ∧ s.isValid .filt = true ∧
      isFinite (s.get .filt) = true ∧ s.host.phase = p := ⟨by rfl, by rfl, by show (writes [(.filt, 0x41F00000#32)] ex).isValid .filt = true; decide, by rfl, by rfl⟩

/-- Every clause of the phase chains at its boundary: 30 °C is the turn-on threshold, 25 °C the turn-off threshold, 1000 ms
the spin-up time. -/
theorem witness_FanPhaseChains_clauses :
    real 0x41EFFFFF#32 < real hostEx.tempMinC ∧ real hostEx.tempMinC ≤ real 0x41F00000#32 ∧
      hostEx.fanSpinupTimeMs ≠ 0 ∧ (HostConfig.fanSpinupTimeMs { hostEx with fanSpinupTimeMs := 0 }) = 0 ∧
      ¬real 0x41F00000#32 < real hostEx.tempMinC - real hostEx.tempHysteresisC ∧
      ¬real 0x41C80000#32 < real hostEx.tempMinC - real hostEx.tempHysteresisC ∧
      real 0x41C7FFFF#32 < real hostEx.tempMinC - real hostEx.tempHysteresisC ∧
      (2 ^ 32 + (1099#32 : Word).toNat - (100#32 : Word).toNat) % 2 ^ 32 < hostEx.fanSpinupTimeMs.toNat ∧
      hostEx.fanSpinupTimeMs.toNat ≤ (2 ^ 32 + (1100#32 : Word).toNat - (100#32 : Word).toNat) % 2 ^ 32 := by
  decide +kernel

theorem witness_InterpolationRule :
    hostEx.legal = true ∧ (30 : ℚ) ≤ 80 ∧ (30 : ℚ) ≤ real hostEx.tempMinC ∧ real hostEx.tempMaxC ≤ 80 := by
  decide +kernel

theorem witness_HysteresisOnlyTurnsOff :
    hostEx.legal = true ∧ HostConfig.legal { hostEx with tempHysteresisC := 0#32 } = true := by decide +kernel

theorem witness_ControlCycleExpands :
    (let s := doing [.controlCycle 0x800#32 5#32] [];
      s.host.config.isSome = true ∧ s.pending = .controlCycle 0x800#32 5#32 :: []) ∧
    (let s := doing [.fanVoltageRatio none 5#32] [];
      s.host.config.isSome = true ∧ s.pending = .fanVoltageRatio none 5#32 :: []) ∧
    (let s := doing [.fanVoltageRatio (some 7#32) 5#32] [(.temp, 7#32)];
      s.host.config.isSome = true ∧ s.pending = .fanVoltageRatio (some 7#32) 5#32 :: [] ∧ s.isValid .temp = true ∧
        s.get .temp = 7#32) ∧
    (let s := doing [.fanVoltageRatio (some 7#32) 5#32] [(.temp, 8#32)];
      s.host.config.isSome = true ∧ ¬(s.isValid .temp = true ∧ s.get .temp = 7#32)) ∧
    let s := doing [.fanVoltageRatio (some 0#32) 5#32] [];
    s.host.config.isSome = true ∧ ¬(s.isValid .temp = true ∧ s.get .temp = 0#32) := by decide

theorem witness_AbortOnFatal :
    (let s := doing [.checkFatal, .controlCycle 0#32 5#32] [];
      s.host.aborted = false ∧ s.pending = .checkFatal :: [.controlCycle 0#32 5#32] ∧ s.status.fatal = false) ∧
    (let s := faultEntry .cfgDcm 7#4 (doing [.checkFatal, .controlCycle 0#32 5#32] []);
      s.host.aborted = false ∧ s.status.fatal = true ∧ .reset ∉ [HostOp.controlCycle 0#32 5#32]) ∧
    let s := faultEntry .cfgDcm 7#4 (doing [.checkFatal, .writeRatio, .reset] []);
    s.host.aborted = false ∧ s.status.fatal = true ∧ s.pending = .checkFatal :: [.writeRatio, .reset] ∧
      .reset ∈ [HostOp.writeRatio, .reset] := by decide

theorem witness_LaunchRule :
    (let s : State := { ex with pending := [.launch hostEx] };
      s.pending = .launch hostEx :: [] ∧ s.host.config = none) ∧
    [hostEx.fanMinDutyCycle, hostEx.fanMaxDutyCycle, hostEx.fanSpinupDutyCycle, hostEx.tempMinC, hostEx.tempMaxC,
        hostEx.tempHysteresisC].all isFinite = true ∧
    real hostEx.fanMinDutyCycle ≤ real hostEx.fanMaxDutyCycle ∧ real hostEx.tempMinC < real hostEx.tempMaxC ∧
    0 ≤ real hostEx.tempHysteresisC ∧ ¬real hostEx.tempMinC < real 0x41F00000#32 := by decide +kernel

/-- EX as the values of the boot. -/
def bootEx : BlockConfig :=
  ⟨0x461C4000#32, 0x461C4000#32, 0x43951333#32, 0x4576E000#32, 0x3B000000#32, 0x41200000#32, 0x37D1B717#32,
    0x3DCCCCCD#32, 0x3727C5AC#32⟩

theorem witness_BootSetsConfigurationAndFilter :
    let s : State := { State.reset with pending := bootOps bootEx (.direct 0x41C80000#32) hostEx };
    s.pending = bootOps bootEx (.direct 0x41C80000#32) hostEx ++ [] ∧ s.host.config = none ∧ hostEx.legal = true := by
  decide +kernel

/-- The boot of program P1, whose conversion completes, and one whose conversion faults (CONV-13). -/
theorem witness_BootByConversionSeedsFilter :
    (let s : State := { State.reset with pending := bootOps bootEx (.conversion 0x800#32) hostEx };
      s.pending = bootOps bootEx (.conversion 0x800#32) hostEx ++ [] ∧ s.host.config = none ∧ hostEx.legal = true) ∧
    (ran .conv (writes [(.adcCode, 0x800#32)] ex)).status.fatal = false ∧
    (ran .conv (writes [(.adcCode, 0x800#32), (.rKnown, 0#32)] ex)).status.fatal = true := by decide +kernel

end Sys2Proof.Tests
end

section
/-! SUPPORT AND PROOFS. STATUS under a command and under a step, said once (spec/10_state.md R27 to R29), and the statements
about the state that follow: the fault fields, the frame of the clamp flags, and the reset state (R37). -/

namespace Sys2Proof.Machine

/-! ## The clamp flags under a command -/

/-- The five clamp flags (R27) are the same in both. -/
structure SameFlags (a b : Status) : Prop where
  rclLo : b.rclLo = a.rclLo
  rclHi : b.rclHi = a.rclHi
  rzero : b.rzero = a.rzero
  vcl : b.vcl = a.vcl
  dcl : b.dcl = a.dcl

theorem SameFlags.refl (a : Status) : SameFlags a a := ⟨rfl, rfl, rfl, rfl, rfl⟩

theorem faultEntry_sameFlags (c : Cause) (op : BitVec 4) (s : State) :
    SameFlags s.status (faultEntry c op s).status := ⟨rfl, rfl, rfl, rfl, rfl⟩

/-- A command that owns no flag leaves all five as they are when it completes (R28). -/
theorem Committed.sameFlags {i : Instr} {s t : State} (h : Committed i s t)
    (hi : i ∉ [Instr.norm, .rtot, .conv, .dcmd]) : SameFlags s.status t.status := by
  simp only [List.mem_cons, List.not_mem_nil, or_false, not_or] at hi
  obtain ⟨hnorm, hrtot, hconv, hdcmd⟩ := hi
  obtain ⟨hlo, hhi⟩ := h.ratioFlags (by simp [hnorm, hconv])
  obtain ⟨hv, hd⟩ := h.dutyFlags (by simp [hdcmd])
  exact ⟨hlo, hhi, h.zeroFlag (by simp [hrtot, hconv]), hv, hd⟩

/-- A command that ends in the faulted state writes no flag: it was ignored (R214) or has faulted (R212). One that ends in
any other state has completed. -/
theorem exec_sameFlags_or_committed {i : Instr} {s t : State} (h : exec i s = .next t) :
    (t.status.fatal = true ∧ SameFlags s.status t.status) ∨ (t.status.fatal = false ∧ Committed i s t) := by
  rcases exec_cases h with ⟨hs, rfl⟩ | ⟨hs, hb⟩ | ⟨-, c, -, rfl⟩
  · exact .inl ⟨hs, .refl _⟩
  · have hc := bodyOf_ok hb
    exact .inr ⟨hc.fatal.trans hs, hc⟩
  · exact .inl ⟨rfl, faultEntry_sameFlags _ _ _⟩

/-! ## STATUS under a step -/

/-- Everything a step can do to STATUS: reset it, leave it, enter a fault, or complete a command. -/
theorem step_status_cases {s t : State} (h : step s = .next t) :
    (∃ rest, s.pending = .reset :: rest) ∨ t.status = s.status ∨
      (s.status.fatal = false ∧ ∃ op rest c fop, s.pending = op :: rest ∧ t = faultEntry c fop { s with pending := rest }) ∨
      (s.status.fatal = false ∧ ∃ op rest i, s.pending = op :: rest ∧ bodyOf i { s with pending := rest } = .ok t ∧
        exec i { s with pending := rest } = .next t) := by
  rcases step_effect h with ⟨-, rfl⟩ | ⟨op, rest, hp, hop⟩
  · exact .inr (.inl rfl)
  · rcases hostStep_effect hop with ⟨-, hb | ⟨r, v, rfl⟩ | ⟨w, hw⟩⟩ | ⟨rfl, -⟩
    · exact .inr (.inl hb.status)
    · exact .inr (.inl rfl)
    · rcases writeCmd_next hw with rfl | ⟨hf, c, fop, -, ht⟩ | ⟨hf, i, hb, he⟩
      · exact .inr (.inl rfl)
      · exact .inr (.inr (.inl ⟨hf, op, rest, c, fop, hp, ht⟩))
      · exact .inr (.inr (.inr ⟨hf, op, rest, i, hp, hb, he⟩))
    · exact .inl ⟨rest, hp⟩

/-! ## The statements -/

/-- Settles O15: of the four things a step can do to STATUS, only a reset and a fault entry touch the fault fields. -/
theorem faultFieldsOnlyByEntryOrReset : Obligations.FaultFieldsOnlyByEntryOrReset := by
  intro s t h
  rcases step_status_cases h with hreset | hkept | hentry | ⟨-, op, rest, i, -, hb, -⟩
  · exact .inr (.inr hreset)
  · simp [hkept]
  · exact .inr (.inl hentry)
  · have hc := bodyOf_ok hb
    exact .inl ⟨hc.fatal, hc.cause, hc.fop⟩

/-- Settles O17: a command either writes no flag or completes, and then writes only those it owns; a step that is no reset
and changes a flag has completed a command, which must own one. -/
theorem flagsFrame : Obligations.FlagsFrame := by
  refine ⟨fun i s t h => ?_, fun s t h hreset hchange => ?_⟩
  · rcases exec_sameFlags_or_committed h with ⟨-, hk⟩ | ⟨hf, hc⟩
    · exact ⟨fun _ => ⟨hk.rclLo, hk.rclHi⟩, fun _ => hk.rzero, fun _ => ⟨hk.vcl, hk.dcl⟩⟩
    · exact ⟨fun hi => hc.ratioFlags (by simpa [hf] using hi), fun hi => hc.zeroFlag (by simpa [hf] using hi),
        fun hi => hc.dutyFlags (by simpa [hf] using hi)⟩
  · have hchanged : ¬ SameFlags s.status t.status := fun hk => by
      simp [hk.rclLo, hk.rclHi, hk.rzero, hk.vcl, hk.dcl] at hchange
    rcases step_status_cases h with ⟨rest, hp⟩ | hkept | ⟨-, op, rest, c, fop, -, rfl⟩ | ⟨hf, op, rest, i, hp, hb, he⟩
    · simp [hp] at hreset
    · exact absurd (hkept ▸ .refl _) hchanged
    · exact absurd (faultEntry_sameFlags c fop _) hchanged
    · have hc := bodyOf_ok hb
      have howner : i ∈ [Instr.norm, .rtot, .conv, .dcmd] := by
        by_contra hi
        exact hchanged (hc.sameFlags hi)
      exact ⟨i, howner, by rw [hp]; exact he, hc.fatal.trans hf⟩

/-- Settles O27: every field of the reset state is a literal, and an empty VALID word has no register's bit. -/
theorem resetState : Obligations.ResetState :=
  ⟨by decide, rfl, fun r => by simp [State.isValid, State.reset], rfl, rfl⟩

end Sys2Proof.Machine
end

section
/-! SUPPORT AND PROOFS. The register window (spec/20_memory.md R50 to R57): what a read returns at each offset, which writes
have no effect, which accesses are refused, and the statements about accesses that follow. -/

namespace Sys2Proof.Machine

/-! ## Offsets -/

/-- A word offset that is none of the named ones is reserved (R50, R54). -/
theorem portAt_reserved {off : Nat} (hcmd : off ≠ 0x00) (hstatus : off ≠ 0x04) (hvalid : off ≠ 0x08)
    (hreg : ∀ r : Reg, off ≠ r.offset) : portAt off = none := by
  cases hp : portAt off with
  | none => rfl
  | some p =>
    have hoff := portAt_some hp
    cases p with
    | cmd => exact absurd hoff hcmd
    | status => exact absurd hoff hstatus
    | valid => exact absurd hoff hvalid
    | reg r => exact absurd hoff (hreg r)

/-! ## The accesses the interface lacks -/

theorem accessRefusal_outside {off : Nat} (size : Nat) (h : 0x80 ≤ off) : accessRefusal off size = some .outsideWindow := by
  simp [accessRefusal, h]

theorem accessRefusal_size {off size : Nat} (h : off < 0x80) (hs : size ≠ 4) :
    accessRefusal off size = some .accessSize := by
  simp [accessRefusal, Nat.not_le.mpr h, hs]

theorem accessRefusal_misaligned {off : Nat} (h : off < 0x80) (ha : off % 4 ≠ 0) :
    accessRefusal off 4 = some .accessMisaligned := by
  simp [accessRefusal, Nat.not_le.mpr h, ha]

/-- An access that the interface lacks has no step, whether it reads or writes (R55). -/
theorem access_refused {off size : Nat} {e : Refusal} (h : accessRefusal off size = some e) (v : Word) (s : State) :
    memRead off size s = .refused e ∧ memWrite off size v s = .refused e := by
  simp [memRead, memWrite, h]

/-! ## What a read returns -/

@[simp] theorem readWord_cmd (s : State) : readWord 0x00 s = 0#32 := rfl
@[simp] theorem readWord_status (s : State) : readWord 0x04 s = s.status.word := rfl
@[simp] theorem readWord_valid (s : State) : readWord 0x08 s = s.valid := rfl
@[simp] theorem readDraws_cmd (s : State) : readDraws 0x00 s = false := rfl
@[simp] theorem readDraws_status (s : State) : readDraws 0x04 s = false := rfl
@[simp] theorem readDraws_valid (s : State) : readDraws 0x08 s = false := rfl

@[simp] theorem readWord_reg (r : Reg) (s : State) :
    readWord r.offset s = if s.isValid r then s.get r else Config.freeWord s.draws := by
  simp [readWord]

@[simp] theorem readDraws_reg (r : Reg) (s : State) : readDraws r.offset s = !s.isValid r := by
  simp [readDraws]

theorem readWord_reserved {off : Nat} (h : portAt off = none) (s : State) : readWord off s = 0#32 := by
  simp [readWord, h]

theorem readDraws_reserved {off : Nat} (h : portAt off = none) (s : State) : readDraws off s = false := by
  simp [readDraws, h]

theorem memRead_word {off : Nat} (ha : off % 4 = 0) (hoff : off ≤ 0x7C) (s : State) :
    memRead off 4 s = .next (afterRead off s) := by
  simp [memRead, accessRefusal_none (by omega : off < 0x80) ha]

/-- Whether a read answers does not depend on the state. -/
theorem memRead_next_of_next {off size : Nat} {s t : State} (h : memRead off size s = .next t) (s' : State) :
    memRead off size s' = .next (afterRead off s') := by
  cases hr : accessRefusal off size with
  | none => simp [memRead, hr]
  | some e => simp [memRead, hr] at h

/-- A read that used up no draw returns the same word again (R57). -/
theorem readWord_afterRead {off : Nat} {s : State} (h : ∀ r : Reg, off = r.offset → s.isValid r = true) :
    readWord off (afterRead off s) = readWord off s := by
  cases hp : portAt off with
  | none => simp [readWord_reserved hp]
  | some p =>
    obtain rfl := portAt_some hp
    cases p with
    | cmd | status | valid => rfl
    | reg r => simp [Port.offset, h r rfl]

/-! ## What a write does -/

@[simp] theorem writeCmd_encode (i : Instr) (s : State) : writeCmd (encode i) s = exec i s := by
  simp [writeCmd, decode_encode]

/-- `STATUS`, `VALID` and the reserved offsets ignore writes (R53, R54). -/
theorem memWrite_ignored {off : Nat} (ha : off % 4 = 0) (hoff : off ≤ 0x7C) (hcmd : off ≠ 0x00)
    (hreg : ∀ r : Reg, off ≠ r.offset) (v : Word) (s : State) : memWrite off 4 v s = .next s := by
  have hr := accessRefusal_none (by omega : off < 0x80) ha
  cases hp : portAt off with
  | none => simp [memWrite, hr, hp]
  | some p =>
    have hport := portAt_some hp
    cases p with
    | cmd => exact absurd hport hcmd
    | status | valid => simp [memWrite, hr, hp]
    | reg r => exact absurd hport (hreg r)

/-- A write to an offset other than `CMD` changes nothing or stores its value in a register (R53, R57). -/
theorem memWrite_of_not_cmd {off size : Nat} {v : Word} {s t : State} (hcmd : off ≠ 0x00)
    (h : memWrite off size v s = .next t) : t = s ∨ ∃ r : Reg, off = r.offset ∧ size = 4 ∧ t = s.setReg r v := by
  rcases memWrite_cases h with hsame | hstore | ⟨hoff, -⟩
  · exact .inl hsame
  · exact .inr hstore
  · exact absurd hoff hcmd

/-! ## A second IIR -/

/-- The effect of an IIR all of whose checks pass (spec/41_filter.md R131). -/
theorem exec_iir_completes {s : State} (hf : s.status.fatal = false) (hv : allValid [.temp, .filt, .alpha] s = true)
    (hfin : allFinite [.temp, .filt, .alpha] s = true) (ha : 0 < realOf s .alpha ∧ realOf s .alpha < 1) :
    exec .iir s = .next (s.setReg .filt (filterStage (s.get .temp) (s.get .filt) (s.get .alpha))) := by
  have hbody : iirBody s = .ok (s.setReg .filt (filterStage (s.get .temp) (s.get .filt) (s.get .alpha))) := by
    simp [iirBody, hv, hfin, ha]
  exact perform_ok hf hbody

/-- A block about to filter: TEMP is 1, ALPHA is 1/2 and FILT is given. -/
def halfwayToOne (filt : Word) : State :=
  ((State.reset.setReg .temp 0x3F800000#32).setReg .alpha 0x3F000000#32).setReg .filt filt

/-- One IIR moves FILT from 0 to 1/2, a second moves it on to 3/4. -/
theorem iir_halfwayToOne :
    exec .iir (halfwayToOne 0#32) = .next (halfwayToOne 0x3F000000#32) ∧
      exec .iir (halfwayToOne 0x3F000000#32) = .next (halfwayToOne 0x3F400000#32) := by
  constructor
  all_goals
    rw [exec_iir_completes (by decide) (by decide) (by decide) (by decide +kernel)]
    exact congrArg _ (by decide +kernel)

/-! ## The statements -/

/-- Settles O18: the read answers `afterRead`, whose word and draw the lemmas above give at each kind of offset. -/
theorem readReturns : Obligations.ReadReturns := by
  intro s off ha hoff
  refine ⟨readWord off s, (afterRead off s).draws, memRead_word ha hoff s, ?cmd, ?status, ?valid, ?held, ?unset, ?reserved⟩
  case cmd => rintro rfl; simp
  case status => rintro rfl; simp
  case valid => rintro rfl; simp
  case held => rintro r rfl hv; simp [hv]
  case unset => rintro r rfl hv; simp [hv]
  case reserved =>
    intro hcmd hstatus hvalid hreg
    have hp := portAt_reserved hcmd hstatus hvalid hreg
    simp [readWord_reserved hp, readDraws_reserved hp]

/-- Settles O19: a command's word decodes to that command, a register's offset stores, and every other offset ignores. -/
theorem writeEffects : Obligations.WriteEffects := by
  intro s off v ha hoff
  refine ⟨?command, ?store, fun hcmd hreg => memWrite_ignored ha hoff hcmd hreg v s⟩
  case command => rintro i rfl rfl; simp
  case store => rintro r rfl; exact memWrite_reg r v s

/-- Settles O22: the three refusals of the interface, each of which refuses a read and a write alike. -/
theorem refusedAccesses : Obligations.RefusedAccesses := by
  intro s off size v
  refine ⟨fun hout => ?_, fun hin hsize => ?_, ?_⟩
  · exact access_refused (accessRefusal_outside size hout) v s
  · exact access_refused (accessRefusal_size hin hsize) v s
  · rintro hin rfl halign
    exact access_refused (accessRefusal_misaligned hin halign) v s

/-- Settles O23: a read leaves the block and so returns its word again, a write but to `CMD` does nothing or stores one
register, which it may as well do twice; two IIRs move FILT to 1/2 and then to 3/4. -/
theorem accessesRepeat : Obligations.AccessesRepeat := by
  refine ⟨fun s t off size h => ?read, fun s t off size v hcmd h => ?write, ?iir⟩
  case read =>
    obtain rfl := memRead_next h
    refine ⟨rfl, rfl, rfl, fun hheld => ⟨_, memRead_next_of_next h _, ?_⟩⟩
    simp [readWord_afterRead hheld]
  case write =>
    rcases memWrite_of_not_cmd hcmd h with rfl | ⟨r, rfl, rfl, rfl⟩
    · exact ⟨h, rfl, fun r _ => ⟨rfl, rfl⟩⟩
    · refine ⟨by rw [memWrite_reg, State.setReg_setReg], rfl, fun r' hr' => ?_⟩
      have hne : r' ≠ r := fun e => hr' (e ▸ rfl)
      simp [hne]
  case iir =>
    obtain ⟨hfirst, hsecond⟩ := iir_halfwayToOne
    exact ⟨_, _, _, by simpa using hfirst, by simpa using hsecond, by decide⟩

end Sys2Proof.Machine
end

section
/-! SUPPORT AND PROOFS. The command word (spec/30_encoding.md R70 to R75): which words decode to which command, which words
are no command, and what a write of either to `CMD` does. -/

namespace Sys2Proof.Machine

/-! ## Which words are a command -/

@[simp] theorem rsvField_encode (i : Instr) : rsvField (encode i) = 0#28 := by cases i <;> rfl

@[simp] theorem opField_encode (i : Instr) : opField (encode i) = opcode i := by cases i <;> rfl

/-- The word of a command, by its two fields (R71). -/
theorem eq_encode_iff_fields {w : Word} {i : Instr} : w = encode i ↔ rsvField w = 0#28 ∧ opField w = opcode i := by
  constructor
  · rintro rfl
    simp
  · rintro ⟨hrsv, hop⟩
    calc w = rsvField w ++ opField w := word_fields w
      _ = 0#28 ++ opcode i := by rw [hrsv, hop]

theorem decode_eq_ok_iff {w : Word} {i : Instr} : decode w = .ok i ↔ w = encode i :=
  ⟨decode_ok, fun h => h ▸ decode_encode i⟩

/-- On a row of 32 bits the table decoder is the decoder (R75). -/
theorem decodeTableWord_eq_some_iff {w : Word} {i : Instr} : decodeTableWord 32 w.toNat = some i ↔ decode w = .ok i := by
  have hlt := w.isLt
  rw [decodeTableWord, Nat.mod_eq_of_lt hlt, if_pos hlt, BitVec.ofNat_toNat, BitVec.setWidth_eq]
  cases decode w <;> simp

/-! ## Which words are none -/

/-- The opcode map assigns the codes 0 to 7 and no other (R71). -/
theorem commandOf_eq_none_iff {op : BitVec 4} : commandOf op = none ↔ 8 ≤ op.toNat := by
  revert op
  decide

/-- The words that are no command (R72, R74). -/
theorem decode_error_iff {w : Word} :
    (∃ e, decode w = .error e) ↔ rsvField w ≠ 0#28 ∨ 8 ≤ (opField w).toNat := by
  rw [← commandOf_eq_none_iff, decode]
  by_cases hrsv : rsvField w = 0#28
  · cases commandOf (opField w) <;> simp [hrsv]
  · simp [hrsv]

/-! ## A write to CMD -/

/-- A word that is no command, written to a block that is not faulted, enters the fault `ILLEGAL_CMD` (R72). -/
theorem writeCmd_illegal {w : Word} {s : State} (hf : s.status.fatal = false)
    (hw : rsvField w ≠ 0#28 ∨ 8 ≤ (opField w).toNat) :
    writeCmd w s = .next (faultEntry .illegalCmd (opField w) s) := by
  obtain ⟨e, he⟩ := decode_error_iff.mpr hw
  rw [writeCmd, he]
  exact perform_error hf rfl

/-- A word with `RSV` = 0 and an assigned `OP` is the word of the command with that `OP`. -/
theorem exists_eq_encode {w : Word} (hrsv : rsvField w = 0#28) (hop : (opField w).toNat < 8) : ∃ i, w = encode i := by
  cases hd : decode w with
  | ok i => exact ⟨i, decode_ok hd⟩
  | error e =>
    rcases decode_error_iff.mp ⟨e, hd⟩ with hne | hge
    · exact absurd hrsv hne
    · exact absurd hop (Nat.not_lt.mpr hge)

/-! ## The statements -/

/-- Settles O1: each of the three conditions says that the word is the encoder's, by its fields or through the decoder. -/
theorem wordSelectsCommand : Obligations.WordSelectsCommand := by
  intro w i op
  have hop : op = opcode i := by cases i <;> rfl
  refine ⟨?fields, decode_eq_ok_iff, decodeTableWord_eq_some_iff.trans decode_eq_ok_iff⟩
  case fields =>
    rw [hop]
    exact decode_eq_ok_iff.trans eq_encode_iff_fields

/-- Settles O3: a faulted block ignores the write, a word that is no command faults, and any other is a command's word. -/
theorem cmdWriteRule : Obligations.CmdWriteRule := by
  intro w s
  refine ⟨writeCmd_fatal, writeCmd_illegal, fun _ hrsv hop => ?command⟩
  case command =>
    obtain ⟨i, rfl⟩ := exists_eq_encode hrsv hop
    exact ⟨i, (opField_encode i).symm, writeCmd_encode i s⟩

end Sys2Proof.Machine
end

section
/-! SUPPORT AND PROOFS. The thermistor commands (spec/40_thermistor.md R100 to R116): the operand checks with which their
bodies begin, what each stage answers, and the statements that give every outcome of NORM, BRIDGE, RTOT and CONV. -/

namespace Sys2Proof.Machine

open Sys2Proof.Laws

/-! ## The operand checks of a stage -/

/-- The checks that come before a stage's own, in the order of spec/60_exceptions.md R216: every register of `rs` holds a
value, each is finite, and those of `ps` are positive, or else the configuration fault `cfg`. -/
def checkOperands {α : Type} (rs ps : List Reg) (cfg : Cause) (s : State) (rest : Except Cause α) : Except Cause α :=
  if allValid rs s = false then .error .operandUnset
  else if allFinite rs s = false then .error .operandNonfinite
  else if allPositive ps s = false then .error cfg
  else rest

section
variable {α : Type} {rs ps : List Reg} {cfg : Cause} {s : State} {rest : Except Cause α}

theorem checkOperands_unset (hv : ¬ ∀ x ∈ rs, s.isValid x = true) :
    checkOperands rs ps cfg s rest = .error .operandUnset := by
  rw [← allValid_iff, Bool.not_eq_true] at hv
  simp [checkOperands, hv]

theorem checkOperands_nonfinite (hv : ∀ x ∈ rs, s.isValid x = true) (hfin : ¬ ∀ x ∈ rs, isFinite (s.get x) = true) :
    checkOperands rs ps cfg s rest = .error .operandNonfinite := by
  rw [← allValid_iff] at hv
  rw [← allFinite_iff, Bool.not_eq_true] at hfin
  simp [checkOperands, hv, hfin]

theorem checkOperands_illegal (hv : ∀ x ∈ rs, s.isValid x = true) (hfin : ∀ x ∈ rs, isFinite (s.get x) = true)
    (hpos : ¬ ∀ x ∈ ps, 0 < real (s.get x)) : checkOperands rs ps cfg s rest = .error cfg := by
  rw [← allValid_iff] at hv
  rw [← allFinite_iff] at hfin
  rw [← allPositive_iff, Bool.not_eq_true] at hpos
  simp [checkOperands, hv, hfin, hpos]

theorem checkOperands_pass (hv : ∀ x ∈ rs, s.isValid x = true) (hfin : ∀ x ∈ rs, isFinite (s.get x) = true)
    (hpos : ∀ x ∈ ps, 0 < real (s.get x)) : checkOperands rs ps cfg s rest = rest := by
  rw [← allValid_iff] at hv
  rw [← allFinite_iff] at hfin
  rw [← allPositive_iff] at hpos
  simp [checkOperands, hv, hfin, hpos]

end

theorem bridgeBody_eq_checkOperands (s : State) :
    bridgeBody s = checkOperands [.ratio, .rKnown] [.rKnown] .cfgKnown s
      (if ¬(0 < realOf s .ratio ∧ realOf s .ratio ≤ 1) then .error .ratioDomain
      else (bridgeStage (s.get .ratio) (s.get .rKnown)).map (s.setReg .res)) := by
  unfold bridgeBody checkOperands
  cases bridgeStage (s.get .ratio) (s.get .rKnown) <;> rfl

/-- The stage BETA on the calibration registers of a state (R109). -/
def calibratedStage (s : State) (res : Word) : Except Cause BetaOut :=
  betaStage res (s.get .nomOhms) (s.get .nomTempK) (s.get .beta)

/-- The one commit of RTOT: a register and a flag (R110). -/
def rtotCommit (s : State) (o : BetaOut) : State := (s.setReg .temp o.temp).setZeroFlag o.rzero

theorem rtotBody_eq_checkOperands (s : State) :
    rtotBody s = checkOperands (.res :: calibration) calibration .cfgTherm s
      (if realOf s .res < 0 ∨ resMax < realOf s .res then .error .resRange
      else (calibratedStage s (s.get .res)).map (rtotCommit s)) := by
  unfold rtotBody checkOperands calibratedStage
  cases betaStage (s.get .res) (s.get .nomOhms) (s.get .nomTempK) (s.get .beta) <;> rfl

theorem convBridge_eq_checkOperands (s : State) (ratio : Word) :
    convBridge s ratio = checkOperands [.rKnown] [.rKnown] .cfgKnown s (bridgeStage ratio (s.get .rKnown)) := rfl

theorem convBeta_eq_checkOperands (s : State) (res : Word) :
    convBeta s res = checkOperands calibration calibration .cfgTherm s (calibratedStage s res) := rfl

/-! ## What the stages answer -/

/-- The quotient of R100, with the mode and the divisor as the statements write them. -/
theorem normQuotient_eq (p : Params) (code : Word) :
    normQuotient p code = ((if p.normMode = .mask then code.toNat % 2 ^ 12 else code.toNat : ℕ) : ℚ) /
      (if p.fsDiv = .div4096 then 4096 else 4095) := by
  obtain ⟨mode, div, base⟩ := p
  cases mode <;> cases div <;> rfl

/-- The stage NORM with its clamp as a maximum and a minimum (R100). -/
theorem normStage_eq (p : Params) (code : Word) :
    normStage p code = ⟨rne32 (max (1 / 10000) (min (normQuotient p code) 1)), decide (normQuotient p code < 1 / 10000),
      decide (1 < normQuotient p code)⟩ := by
  rw [normStage, clampRat_eq (by norm_num [ratioFloor, ratioCeil])]
  rfl

theorem resMax_eq : resMax = 10 ^ 9 := by norm_num [resMax]

theorem bridgeStage_ok {r k : Word} (h : real k * (1 / real r - 1) ≤ 10 ^ 9) :
    bridgeStage r k = .ok (rne32 (real k * (1 / real r - 1))) :=
  if_neg (resMax_eq ▸ not_lt.mpr h)

theorem bridgeStage_resRange {r k : Word} (h : 10 ^ 9 < real k * (1 / real r - 1)) :
    bridgeStage r k = .error .resRange :=
  if_pos (resMax_eq ▸ h)

/-- 1/T at a resistance, under the calibration registers of a state (R109). -/
noncomputable def calibratedInverse (s : State) (res : Word) : ℝ :=
  inverseTempReal (real res) (real (s.get .nomOhms)) (real (s.get .nomTempK)) (real (s.get .beta))

/-- The exact temperature at a resistance, under the calibration registers of a state (R109). -/
noncomputable def calibratedTemp (s : State) (res : Word) : ℝ :=
  tempReal (real res) (real (s.get .nomOhms)) (real (s.get .nomTempK)) (real (s.get .beta))

theorem calibratedStage_zero {s : State} {res : Word} (h : real res = 0) :
    calibratedStage s res = .ok ⟨0xC3888000#32, true⟩ := betaStage_zero h

section
variable {s : State} {res : Word} (hfin : ∀ x ∈ calibration, isFinite (s.get x) = true)
  (hpos : ∀ x ∈ calibration, 0 < real (s.get x)) (fres : isFinite res = true) (pres : 0 < real res)
include hfin hpos fres pres

/-- Everything the BETA stage can answer on a positive resistance and a legal calibration; 1/T is not 0 there (R109). -/
theorem calibratedStage_cases : calibratedInverse s res ≠ 0 ∧
    ((|calibratedTemp s res| < overflowBound ∧ ∃ t, isFinite t = true ∧ IsRounded32 (calibratedTemp s res) t ∧
        calibratedStage s res = .ok ⟨t, false⟩) ∨
      (overflowBound ≤ |calibratedTemp s res| ∧ calibratedStage s res = .error .tempNonfinite)) := by
  have fin : isFinite (s.get .nomOhms) = true ∧ isFinite (s.get .nomTempK) = true ∧ isFinite (s.get .beta) = true := by
    simpa [calibration] using hfin
  have pos : 0 < real (s.get .nomOhms) ∧ 0 < real (s.get .nomTempK) ∧ 0 < real (s.get .beta) := by
    simpa [calibration] using hpos
  obtain ⟨f0, ft, fb⟩ := fin
  obtain ⟨p0, pt, pb⟩ := pos
  refine ⟨(betaRound_correct fres f0 ft fb pres p0 pt pb).1, ?_⟩
  rcases betaStage_spec fres f0 ft fb pres p0 pt pb with ⟨hlt, t, hok, htfin, hrne⟩ | herror
  · exact .inl ⟨hlt, t, htfin, hrne.toIsRounded32, hok⟩
  · exact .inr herror

/-- The BETA stage inside the number range. -/
theorem calibratedStage_ok (hlt : |calibratedTemp s res| < overflowBound) :
    ∃ t, isFinite t = true ∧ IsRounded32 (calibratedTemp s res) t ∧ calibratedStage s res = .ok ⟨t, false⟩ := by
  obtain ⟨-, ⟨-, hok⟩ | ⟨hge, -⟩⟩ := calibratedStage_cases hfin hpos fres pres
  · exact hok
  · exact absurd hlt (not_lt.mpr hge)

/-- The BETA stage at the pole, where no binary32 operands lie, or outside the number range. -/
theorem calibratedStage_tempNonfinite
    (hout : calibratedInverse s res = 0 ∨ overflowBound ≤ |calibratedTemp s res|) :
    calibratedStage s res = .error .tempNonfinite := by
  obtain ⟨hpole, ⟨hlt, -⟩ | ⟨-, herror⟩⟩ := calibratedStage_cases hfin hpos fres pres
  · exact absurd hlt (not_lt.mpr (hout.resolve_left hpole))
  · exact herror

end

/-! ## The sequence of CONV's stages -/

section
variable {s : State} {n : NormOut} {res : Word} {c : Cause}

theorem convBody_uncoded (hv : ¬ s.isValid .adcCode = true) : convBody s = .error .operandUnset := by
  simp [convBody, hv]

/-- A CONV whose BRIDGE stage faults. -/
theorem convBody_bridge_error (hn : normStage s.params (s.get .adcCode) = n) (hv : s.isValid .adcCode = true)
    (h : convBridge s n.ratio = .error c) : convBody s = .error c := by
  simp [convBody, hv, hn, h]

/-- A CONV whose BRIDGE stage completes and whose BETA stage faults. -/
theorem convBody_beta_error (hn : normStage s.params (s.get .adcCode) = n) (hv : s.isValid .adcCode = true)
    (hb : convBridge s n.ratio = .ok res) (h : convBeta s res = .error c) : convBody s = .error c := by
  simp [convBody, hv, hn, hb, h]

/-- A CONV all of whose stages complete. -/
theorem convBody_commit {o : BetaOut} (hn : normStage s.params (s.get .adcCode) = n) (hv : s.isValid .adcCode = true)
    (hb : convBridge s n.ratio = .ok res) (h : convBeta s res = .ok o) : convBody s = .ok (convCommit s n res o) := by
  simp [convBody, hv, hn, hb, h]

/-- The resistance that CONV hands to its BETA stage is finite and not negative, because the ratio is in (0, 1]. -/
theorem conv_resistance (hn : normStage s.params (s.get .adcCode) = n) (hk : 0 < real (s.get .rKnown))
    (hle : real (s.get .rKnown) * (1 / real n.ratio - 1) ≤ 10 ^ 9) :
    isFinite (rne32 (real (s.get .rKnown) * (1 / real n.ratio - 1))) = true ∧
      0 ≤ real (rne32 (real (s.get .rKnown) * (1 / real n.ratio - 1))) := by
  obtain ⟨-, hpos, hone⟩ := hn ▸ normStage_ratio s.params (s.get .adcCode)
  obtain ⟨hnonneg, -⟩ := bridgeStage_cases hpos hone hk
  obtain ⟨hfin, hres, -⟩ := rne32_resistance hnonneg (hle.trans_eq resMax_eq.symm)
  exact ⟨hfin, hres⟩

end

/-! ## The statements -/

/-- Settles O6: the stage NORM cannot fault, and its clamp is the maximum and minimum of the statement. -/
theorem normCompletesOrFaults : Obligations.NormCompletesOrFaults := by
  intro s hf k q
  have hq : normQuotient s.params (s.get .adcCode) = q := normQuotient_eq _ _
  refine ⟨fun hv => ⟨rne32 (max (1 / 10000) (min q 1)), (rne32_isRne32 _).toIsRounded32, ?completes⟩, fun hv => ?unset⟩
  case completes =>
    refine perform_ok hf ?_
    simp [normBody, hv, normStage_eq, hq]
  case unset => exact perform_error hf (by simp [normBody, hv])

/-- Settles O7: the operand checks in their order, then the domain of the ratio, then the range of the stage's result. -/
theorem bridgeCompletesOrFaults : Obligations.BridgeCompletesOrFaults := by
  intro s hf r known fails held finite legal inDomain
  have hfails {c : Cause} (h : bridgeBody s = .error c) : fails c := perform_error hf h
  have hlegal : legal → bridgeBody s = if ¬(0 < r ∧ r ≤ 1) then .error .ratioDomain
      else (bridgeStage (s.get .ratio) (s.get .rKnown)).map (s.setReg .res) := fun ⟨⟨hheld, hfin⟩, hpos⟩ =>
    (bridgeBody_eq_checkOperands s).trans (checkOperands_pass hheld hfin (List.forall_mem_singleton.mpr hpos))
  have hinDomain : inDomain → bridgeBody s = (bridgeStage (s.get .ratio) (s.get .rKnown)).map (s.setReg .res) :=
    fun ⟨hl, hr⟩ => (hlegal hl).trans (if_neg (not_not.mpr hr))
  refine ⟨fun hd hle => ⟨rne32 (known * (1 / r - 1)), (rne32_isRne32 _).toIsRounded32, ?completes⟩,
    fun hn => hfails ?unset, fun hheld hn => hfails ?nonfinite, fun hfinite hn => hfails ?cfgKnown,
    fun hl hn => hfails ?ratioDomain, fun hd hgt => hfails ?resRange⟩
  case completes => exact perform_ok hf (by rw [hinDomain hd, bridgeStage_ok hle]; rfl)
  case unset => rw [bridgeBody_eq_checkOperands, checkOperands_unset hn]
  case nonfinite => rw [bridgeBody_eq_checkOperands, checkOperands_nonfinite hheld fun h => hn ⟨hheld, h⟩]
  case cfgKnown =>
    obtain ⟨hheld, hfin⟩ := id hfinite
    rw [bridgeBody_eq_checkOperands, checkOperands_illegal hheld hfin]
    exact fun h => hn ⟨hfinite, h .rKnown (List.mem_singleton_self _)⟩
  case ratioDomain => rw [hlegal hl, if_pos fun h => hn ⟨hl, h⟩]
  case resRange => rw [hinDomain hd, bridgeStage_resRange hgt]; rfl

/-- Settles O8: the operand checks in their order, then the range of the resistance, then the Beta equation at 0, inside
the number range and outside it. -/
theorem rtotCompletesOrFaults : Obligations.RtotCompletesOrFaults := by
  intro s hf r invT temp fails held finite legal inDomain
  have hfails {c : Cause} (h : rtotBody s = .error c) : fails c := perform_error hf h
  have hrange : (r < 0 ∨ resMax < r) ↔ ¬(0 ≤ r ∧ r ≤ 10 ^ 9) := by
    rw [resMax_eq, not_and_or, not_le, not_le]
  have hlegal : legal → rtotBody s = if r < 0 ∨ resMax < r then .error .resRange
      else (calibratedStage s (s.get .res)).map (rtotCommit s) := fun ⟨⟨hheld, hfin⟩, hpos⟩ =>
    (rtotBody_eq_checkOperands s).trans (checkOperands_pass hheld hfin hpos)
  have hinDomain : inDomain → rtotBody s = (calibratedStage s (s.get .res)).map (rtotCommit s) :=
    fun ⟨hl, hr⟩ => (hlegal hl).trans (if_neg fun h => hrange.mp h hr)
  refine ⟨fun hd h0 => perform_ok hf ?zero, fun hd h0 _ hlt => ?completes, fun hn => hfails ?unset,
    fun hheld hn => hfails ?nonfinite, fun hfinite hn => hfails ?cfgTherm, fun hl hn => hfails ?resRange,
    fun hd h0 hout => hfails ?tempNonfinite⟩
  case zero => rw [hinDomain hd, calibratedStage_zero h0]; rfl
  case completes =>
    obtain ⟨⟨⟨-, hfin⟩, hpos⟩, hr, -⟩ := id hd
    obtain ⟨fres, fcal⟩ := List.forall_mem_cons.mp hfin
    obtain ⟨t, ft, ht, hok⟩ := calibratedStage_ok fcal hpos fres (hr.lt_of_ne' h0) hlt
    exact ⟨t, ft, ht, perform_ok hf (by rw [hinDomain hd, hok]; rfl)⟩
  case unset => rw [rtotBody_eq_checkOperands]; exact checkOperands_unset hn
  case nonfinite => rw [rtotBody_eq_checkOperands]; exact checkOperands_nonfinite hheld fun h => hn ⟨hheld, h⟩
  case cfgTherm =>
    obtain ⟨hheld, hfin⟩ := id hfinite
    rw [rtotBody_eq_checkOperands]; exact checkOperands_illegal hheld hfin fun h => hn ⟨hfinite, h⟩
  case resRange => rw [hlegal hl, if_pos (hrange.mpr fun h => hn ⟨hl, h⟩)]
  case tempNonfinite =>
    obtain ⟨⟨⟨-, hfin⟩, hpos⟩, hr, -⟩ := id hd
    obtain ⟨fres, fcal⟩ := List.forall_mem_cons.mp hfin
    rw [hinDomain hd, calibratedStage_tempNonfinite fcal hpos fres (hr.lt_of_ne' h0) hout]; rfl

/-- Settles O9: the checks of R116 stage by stage; the BETA stage reads a resistance that `conv_resistance` keeps in its
domain, and is then at 0, inside the number range or outside it. -/
theorem convCompletesOrFaults : Obligations.ConvCompletesOrFaults := by
  intro s hf k q ratio rx res invT temp done fails coded knownHeld knownFinite knownLegal bridged held finite legal
  have hn : normStage s.params (s.get .adcCode) = ⟨ratio, decide (q < 1 / 10000), decide (1 < q)⟩ := by
    rw [normStage_eq, show normQuotient s.params (s.get .adcCode) = q from normQuotient_eq _ _]
  have hfails {c : Cause} (h : convBody s = .error c) : fails c := perform_error hf h
  have hbridgeFault {c : Cause} (hc : coded) (h : convBridge s ratio = .error c) : fails c :=
    hfails (convBody_bridge_error hn hc h)
  have hknownLegal : knownLegal → convBridge s ratio = bridgeStage ratio (s.get .rKnown) :=
    fun ⟨⟨⟨_, hv⟩, hfin⟩, hpos⟩ => (convBridge_eq_checkOperands s ratio).trans (checkOperands_pass
      (List.forall_mem_singleton.mpr hv) (List.forall_mem_singleton.mpr hfin) (List.forall_mem_singleton.mpr hpos))
  have hbridged : bridged → coded ∧ convBridge s ratio = .ok res := fun ⟨hk, hle⟩ =>
    have ⟨⟨⟨hc, _⟩, _⟩, _⟩ := hk
    ⟨hc, (hknownLegal hk).trans (bridgeStage_ok hle)⟩
  have hbetaFault {c : Cause} (hb : bridged) (h : convBeta s res = .error c) : fails c :=
    have ⟨hc, hok⟩ := hbridged hb
    hfails (convBody_beta_error hn hc hok h)
  have hcommit {t : Word} {z : Bool} (hb : bridged) (h : convBeta s res = .ok ⟨t, z⟩) :
      exec .conv s = .next (done t z) := by
    obtain ⟨hc, hok⟩ := hbridged hb
    have hbody := convBody_commit hn hc hok h
    exact perform_ok hf hbody
  have hlegal : legal → convBeta s res = calibratedStage s res := fun ⟨⟨⟨_, hv⟩, hfin⟩, hpos⟩ =>
    (convBeta_eq_checkOperands s res).trans (checkOperands_pass hv hfin hpos)
  refine ⟨?zero, ?completes, fun hc => hfails (convBody_uncoded hc), ?knownUnset, ?knownNonfinite, ?cfgKnown, ?resRange,
    ?calibrationUnset, ?calibrationNonfinite, ?cfgTherm, ?tempNonfinite⟩
  case zero =>
    intro hl h0
    obtain ⟨⟨⟨hb, -⟩, -⟩, -⟩ := id hl
    exact hcommit hb ((hlegal hl).trans (calibratedStage_zero h0))
  case completes =>
    intro hl h0 _ hlt
    obtain ⟨⟨⟨hb, -⟩, hfin⟩, hpos⟩ := id hl
    obtain ⟨⟨-, hk⟩, hle⟩ := id hb
    obtain ⟨fres, hres⟩ := conv_resistance hn hk hle
    obtain ⟨t, ft, ht, hok⟩ := calibratedStage_ok hfin hpos fres (hres.lt_of_ne' h0) hlt
    exact ⟨t, ft, ht, hcommit hb ((hlegal hl).trans hok)⟩
  case knownUnset =>
    refine fun hc hu => hbridgeFault hc ?_
    rw [convBridge_eq_checkOperands, checkOperands_unset]
    exact fun h => hu ⟨hc, h .rKnown (List.mem_singleton_self _)⟩
  case knownNonfinite =>
    rintro ⟨hc, hv⟩ hu
    refine hbridgeFault hc ?_
    rw [convBridge_eq_checkOperands, checkOperands_nonfinite (List.forall_mem_singleton.mpr hv)]
    exact fun h => hu ⟨⟨hc, hv⟩, h .rKnown (List.mem_singleton_self _)⟩
  case cfgKnown =>
    rintro ⟨⟨hc, hv⟩, hfin⟩ hu
    refine hbridgeFault hc ?_
    rw [convBridge_eq_checkOperands, checkOperands_illegal (List.forall_mem_singleton.mpr hv)
      (List.forall_mem_singleton.mpr hfin)]
    exact fun h => hu ⟨⟨⟨hc, hv⟩, hfin⟩, h .rKnown (List.mem_singleton_self _)⟩
  case resRange =>
    intro hk hu
    obtain ⟨⟨⟨hc, -⟩, -⟩, -⟩ := id hk
    exact hbridgeFault hc ((hknownLegal hk).trans (bridgeStage_resRange (not_le.mp fun h => hu ⟨hk, h⟩)))
  case calibrationUnset =>
    refine fun hb hu => hbetaFault hb ?_
    rw [convBeta_eq_checkOperands]; exact checkOperands_unset fun h => hu ⟨hb, h⟩
  case calibrationNonfinite =>
    rintro ⟨hb, hv⟩ hu
    refine hbetaFault hb ?_
    rw [convBeta_eq_checkOperands]; exact checkOperands_nonfinite hv fun h => hu ⟨⟨hb, hv⟩, h⟩
  case cfgTherm =>
    rintro ⟨⟨hb, hv⟩, hfin⟩ hu
    refine hbetaFault hb ?_
    rw [convBeta_eq_checkOperands]; exact checkOperands_illegal hv hfin fun h => hu ⟨⟨⟨hb, hv⟩, hfin⟩, h⟩
  case tempNonfinite =>
    intro hl h0 hout
    obtain ⟨⟨⟨hb, -⟩, hfin⟩, hpos⟩ := id hl
    obtain ⟨⟨-, hk⟩, hle⟩ := id hb
    obtain ⟨fres, hres⟩ := conv_resistance hn hk hle
    exact hbetaFault hb
      ((hlegal hl).trans (calibratedStage_tempNonfinite hfin hpos fres (hres.lt_of_ne' h0) hout))

end Sys2Proof.Machine
end

section
/-! SUPPORT AND PROOFS. The filter (spec/41_filter.md R130 to R141): every outcome of IIR and SEED, which host operations can
change a register, and what follows for `FILT`. -/

namespace Sys2Proof.Machine

open Sys2Proof.Laws

/-! ## The checks of IIR -/

/-- No operand of IIR has to be positive; the one configuration check is the range of `ALPHA` (R131). -/
theorem iirBody_eq_checkOperands (s : State) :
    iirBody s = checkOperands [.temp, .filt, .alpha] [] .cfgAlpha s
      (if ¬(0 < realOf s .alpha ∧ realOf s .alpha < 1) then .error .cfgAlpha
      else .ok (s.setReg .filt (filterStage (s.get .temp) (s.get .filt) (s.get .alpha)))) := rfl

/-! ## What changes a register -/

/-- The content and the VALID bit of a register are the same in both. -/
def RegKept (r : Reg) (s t : State) : Prop := t.get r = s.get r ∧ t.isValid r = s.isValid r

theorem SameBlock.regKept {s t : State} (h : SameBlock s t) (r : Reg) : RegKept r s t :=
  ⟨congrArg (Regs.get · r) h.regs, congrArg (BitVec.getLsbD · r.validBit) h.valid⟩

theorem State.setReg_regKept {r r' : Reg} (h : r' ≠ r) (s : State) (v : Word) : RegKept r' s (s.setReg r v) := by
  simp [RegKept, h]

/-- Everything one host operation can do to a register that it does not keep: a reset, a write of that register, or a
command that completes and has it among its results. -/
theorem hostStep_changes_reg {op : HostOp} {r : Reg} {s t : State} (h : hostStep op s = .next t)
    (hchange : ¬ RegKept r s t) :
    (op = .reset ∧ t = resetDevice s) ∨
      (∃ v, (op = .write r.offset 4 v ∨ op = .writeAt (s.params.base + r.offset) 4 v ∨
        (op = .writeRatio ∧ r = .vratio ∧ v = s.host.ratio)) ∧ t = s.setReg r v) ∨
      ∃ i, (op = .write 0x00 4 (encode i) ∨ op = .writeAt (s.params.base + 0x00) 4 (encode i)) ∧ r ∈ resultsOf i ∧
        Committed i s t ∧ exec i s = .next t := by
  rcases hostStep_writes h with hreset | hsame | ⟨w, c, fop, -, rfl⟩ | ⟨r', v, hop, rfl⟩ | ⟨i, hop, -, hb, he⟩
  · exact .inl hreset
  · exact absurd (hsame.regKept r) hchange
  · exact absurd ⟨rfl, rfl⟩ hchange
  · obtain rfl : r = r' := by
      by_contra hne
      exact hchange (State.setReg_regKept hne s v)
    exact .inr (.inl ⟨v, hop, rfl⟩)
  · have hc := bodyOf_ok hb
    have hresult : r ∈ resultsOf i := by
      by_contra hr
      exact hchange (hc.kept r hr)
    exact .inr (.inr ⟨i, hop, hresult, hc, he⟩)

/-- The commands that write `FILT` (spec/30_encoding.md R73). -/
theorem filt_mem_resultsOf_iff {i : Instr} : Reg.filt ∈ resultsOf i ↔ i = .iir ∨ i = .seed := by
  cases i <;> decide

/-! ## The statements -/

/-- Settles O10: the operand checks in their order, then the range of `ALPHA`; the stage FILTER rounds the exact sum once. -/
theorem iirCompletesOrFaults : Obligations.IirCompletesOrFaults := by
  intro s hf a fails held finite legal
  have hfails {c : Cause} (h : iirBody s = .error c) : fails c := perform_error hf h
  refine ⟨fun ⟨⟨hheld, hfin⟩, ha⟩ => ⟨filterStage (s.get .temp) (s.get .filt) (s.get .alpha),
      (rne32_isRne32 _).toIsRounded32, ?completes⟩,
    fun hn => hfails ?unset, fun hheld hn => hfails ?nonfinite, fun hfinite hn => hfails ?cfgAlpha⟩
  case completes => exact exec_iir_completes hf ((allValid_iff _ s).mpr hheld) ((allFinite_iff _ s).mpr hfin) ha
  case unset => rw [iirBody_eq_checkOperands, checkOperands_unset hn]
  case nonfinite => rw [iirBody_eq_checkOperands, checkOperands_nonfinite hheld fun h => hn ⟨hheld, h⟩]
  case cfgAlpha =>
    obtain ⟨hheld, hfin⟩ := id hfinite
    rw [iirBody_eq_checkOperands, checkOperands_pass hheld hfin (List.forall_mem_nil _)]
    exact if_pos fun ha => hn ⟨hfinite, ha⟩

/-- Settles O11: the two operand checks; the commit of SEED is the store of a host write at the offset of `FILT`. -/
theorem seedCompletesOrFaults : Obligations.SeedCompletesOrFaults := by
  intro s hf
  refine ⟨fun hv hfin => ?completes, fun hv => perform_error hf ?unset, fun hv hfin => perform_error hf ?nonfinite⟩
  case completes =>
    have hseed : exec .seed s = .next (s.setReg .filt (s.get .temp)) :=
      perform_ok hf (by simp [seedBody, allValid, allFinite, hv, hfin])
    exact ⟨hseed, hseed.trans (memWrite_reg .filt (s.get .temp) s).symm⟩
  case unset => simp [seedBody, allValid, hv]
  case nonfinite => simp [seedBody, allValid, allFinite, hv, hfin]

/-- Settles O33: a step that does not keep `FILT` performs an operation that `hostStep_changes_reg` lists; the write of a
cycle stores `VRATIO`, and only IIR and SEED have `FILT` among their results. -/
theorem filterStateCarrier : Obligations.FilterStateCarrier := by
  intro s t h hchange
  rcases step_effect h with ⟨-, rfl⟩ | ⟨op, rest, hp, hop⟩
  · simp at hchange
  have hkept : ¬ RegKept .filt { s with pending := rest } t := not_and_or.mpr hchange
  rcases hostStep_changes_reg hop hkept with
    ⟨rfl, rfl⟩ | ⟨v, rfl | rfl | ⟨-, hvratio, -⟩, rfl⟩ | ⟨i, hcmd, hresult, hc, he⟩
  · exact .inl ⟨rest, hp, by simp⟩
  · exact .inr (.inl ⟨by simp, v, rest, hp, by simp⟩)
  · exact .inr (.inr (.inl ⟨by simp, v, rest, hp, by simp⟩))
  · cases hvratio
  · exact .inr (.inr (.inr ⟨hc.written _ hresult, i, op, rest, filt_mem_resultsOf_iff.mp hresult, hp, hcmd, he⟩))

end Sys2Proof.Machine
end

section
/-! SUPPORT AND PROOFS. The fan state machine (spec/42_host_fan_state_machine.md R154 to R160): what each phase answers on
each side of its threshold, the step that evaluates the phases, and the statements about the chains of one call. -/

namespace Sys2Proof.Machine

/-! ## What each phase answers -/

section

variable {c : HostConfig} {t : ℚ} {ms last : Word}

theorem evalOn_below (h : t < real c.tempMinC - real c.tempHysteresisC) : evalOn c t ms last = ⟨0, .off, ms⟩ := if_pos h

theorem evalOn_stays (h : ¬ t < real c.tempMinC - real c.tempHysteresisC) :
    evalOn c t ms last = ⟨interp c t, .on, last⟩ := if_neg h

theorem evalSpinup_running (h : (ms - last).toNat < c.fanSpinupTimeMs.toNat) :
    evalSpinup c t ms last = ⟨c.fanSpinupDutyCycle, .spinup, last⟩ := if_pos h

theorem evalSpinup_over (h : c.fanSpinupTimeMs.toNat ≤ (ms - last).toNat) :
    evalSpinup c t ms last = evalOn c t ms ms := if_neg h.not_gt

theorem evalOff_below (h : t < real c.tempMinC) : evalOff c t ms last = ⟨0, .off, last⟩ := if_neg h.not_ge

theorem evalOff_turnsOn (h : real c.tempMinC ≤ t) : evalOff c t ms last = evalSpinup c t ms ms := if_pos h

/-- In the call that enters SPINUP no time has elapsed, so any other spin-up time than 0 has still to run (R156). -/
theorem evalSpinup_entered (h : c.fanSpinupTimeMs ≠ 0) :
    evalSpinup c t ms ms = ⟨c.fanSpinupDutyCycle, .spinup, ms⟩ :=
  evalSpinup_running (by bv_omega)

/-- A spin-up time of 0 ends SPINUP in the call that entered it (R156). -/
theorem evalSpinup_skipped (h : c.fanSpinupTimeMs = 0) : evalSpinup c t ms ms = evalOn c t ms ms :=
  evalSpinup_over (by simp [h])

/-- A call from OFF under a hysteresis that is not negative: the chain never falls through ON to OFF, and what it answers
does not mention the hysteresis (R160). -/
theorem evalOff_eq (hhyst : 0 ≤ real c.tempHysteresisC) :
    evalOff c t ms last =
      if real c.tempMinC ≤ t then
        if c.fanSpinupTimeMs = 0 then ⟨interp c t, .on, ms⟩ else ⟨c.fanSpinupDutyCycle, .spinup, ms⟩
      else ⟨0, .off, last⟩ := by
  split
  case isTrue hon =>
    have hstays : ¬ t < real c.tempMinC - real c.tempHysteresisC := by linarith
    rw [evalOff_turnsOn hon]
    split
    case isTrue hskip => rw [evalSpinup_skipped hskip, evalOn_stays hstays]
    case isFalse hrun => exact evalSpinup_entered hrun
  case isFalse hoff => exact evalOff_below (not_le.mp hoff)

theorem evalOff_phase_ne_off_iff (hhyst : 0 ≤ real c.tempHysteresisC) :
    (evalOff c t ms last).phase ≠ .off ↔ real c.tempMinC ≤ t := by
  rw [evalOff_eq hhyst]
  split
  case isTrue hon => split <;> simp [hon]
  case isFalse hoff => simp [hoff]

end

/-- The host's elapsed time (R156), as a difference of numbers modulo 2^32. -/
theorem toNat_sub_eq_elapsed (ms last : Word) :
    (ms - last).toNat = (2 ^ 32 + ms.toNat - last.toNat) % 2 ^ 32 := by
  bv_omega

theorem HostConfig.legal_hysteresis {c : HostConfig} (h : c.legal = true) : 0 ≤ real c.tempHysteresisC := by
  simp only [HostConfig.legal, Bool.and_eq_true, decide_eq_true_eq] at h
  obtain ⟨-, hhyst⟩ := h
  exact hhyst

/-! ## The step that evaluates the phases -/

/-- The host's record once a fan call has answered (R154). -/
def HostState.answer (h : HostState) (o : FanOut) : HostState :=
  { h with phase := o.phase, lastChangeTimeMs := o.lastChangeTimeMs, ratio := o.ratio }

/-- The phase evaluation reads `FILT` and changes the host's record alone (R154, steps 2 to 4). -/
theorem hostEval_next {s : State} {c : HostConfig} (ms : Word) (hc : s.host.config = some c)
    (hv : s.isValid .filt = true) (hfin : isFinite (s.get .filt) = true) :
    hostEval ms s = .next { afterRead (Reg.offset .filt) s with
      host := s.host.answer (evalPhase c s.host.phase (real (s.get .filt)) ms s.host.lastChangeTimeMs) } := by
  simp [hostEval, hc, hv, hfin, HostState.answer]

theorem step_evalPhases {s : State} {ms : Word} {rest : List HostOp} (hp : s.pending = .evalPhases ms :: rest) :
    step s = hostEval ms { s with pending := rest } := by
  simp only [step, hp, hostStep]

/-! ## The statements -/

/-- Settles O45: the step records what `evalPhase` answers, and each chain is the equations of the phases it visits. -/
theorem fanPhaseChains : Obligations.FanPhaseChains := by
  intro s c ms rest hp hc hv hfin t last elapsed ends off
  have hends {p : Phase} {l ratio : Word} (h : evalPhase c s.host.phase t ms last = ⟨ratio, p, l⟩) : ends p l ratio := by
    have hstep := (step_evalPhases hp).trans (hostEval_next ms hc hv hfin)
    exact ⟨_, hstep, congrArg FanOut.phase h, congrArg FanOut.lastChangeTimeMs h, congrArg FanOut.ratio h,
      rfl, rfl, rfl, rfl⟩
  have helapsed : (ms - last).toNat = elapsed := toNat_sub_eq_elapsed ms last
  refine ⟨fun hphase hlt => hends ?_, fun hphase hle hrun => hends ?_, fun hphase hle hskip hon => hends ?_,
    fun hphase hlt => hends ?_, fun hphase hle hon => hends ?_, fun hphase hle hoff => hends ?_,
    fun hphase hon => hends ?_, fun hphase hoff => hends ?_⟩ <;> rw [hphase]
  · exact evalOff_below hlt
  · exact (evalOff_turnsOn hle).trans (evalSpinup_entered hrun)
  · exact (evalOff_turnsOn hle).trans ((evalSpinup_skipped hskip).trans (evalOn_stays hon))
  · exact evalSpinup_running (helapsed ▸ hlt)
  · exact (evalSpinup_over (helapsed ▸ hle)).trans (evalOn_stays hon)
  · exact (evalSpinup_over (helapsed ▸ hle)).trans (evalOn_below hoff)
  · exact evalOn_stays hon
  · exact evalOn_below hoff

/-- Settles O47: both calls have the closed form of `evalOff_eq`, in which no hysteresis stands. -/
theorem hysteresisOnlyTurnsOff : Obligations.HysteresisOnlyTurnsOff := by
  intro c h t ms last hlegal hlegal'
  have hhyst := HostConfig.legal_hysteresis hlegal
  refine ⟨?same, evalOff_phase_ne_off_iff hhyst⟩
  case same => exact (evalOff_eq (HostConfig.legal_hysteresis hlegal')).trans (evalOff_eq hhyst).symm

end Sys2Proof.Machine
end

section
/-! SUPPORT AND PROOFS. The DCM command (spec/43_dcm_duty.md R180, R181): what the stage DUTY answers on checked operands,
and every outcome of DCMD. -/

namespace Sys2Proof.Machine

open Sys2Proof.Laws

/-! ## The stage -/

theorem dec32_ne_nan {b : Word} (h : isNaN b = false) : dec32 b ≠ .nan := by
  cases hfin : isFinite b <;> simp [dec32, h, hfin]

/-- The answer of the stage DUTY as R180 says it: the clamp of the input, then the limit where the denominator is 0, and
the clamped exact formula, rounded once, elsewhere. -/
theorem dcmStage_spec {v : Value} {vi l io t : ℚ} (hv : v ≠ .nan) (hi : 0 < vi) (hl : 0 < l) (ho : 0 < io) (ht : 0 < t) :
    ∃ (vr : ℚ) (vcl dcl : Bool) (d : Word), IsClampedRatio v vr vcl ∧
      (dutyDen2 vr vi t = 0 → d = 0x3F800000#32 ∧ dcl = true) ∧
      (dutyDen2 vr vi t ≠ 0 →
        IsRounded32 (min (dutyReal vr vi l io t) 1) d ∧ (dcl = true ↔ 1 < dutyReal vr vi l io t)) ∧
      dcmStage v vi l io t = ⟨d, vcl, dcl⟩ := by
  rcases dcmStage_cases v hi hl ho ht with ⟨hzero, hstage⟩ | ⟨hpos, d, dcl, hstage, hround, hdcl⟩
  · exact ⟨clampRatio v, ratioClamped v, true, 0x3F800000#32, clampRatio_spec hv, fun _ => ⟨rfl, rfl⟩,
      fun hne => absurd hzero hne, hstage⟩
  · exact ⟨clampRatio v, ratioClamped v, dcl, d, clampRatio_spec hv, fun h => absurd h hpos,
      fun _ => ⟨hround.toIsRounded32, hdcl⟩, hstage⟩

/-! ## The checks of DCMD -/

/-- The stage DUTY on the registers of a state (R181). -/
def dcmdOut (s : State) : DutyOut :=
  dcmStage (dec32 (s.get .vratio)) (real (s.get .dcmVi)) (real (s.get .dcmL)) (real (s.get .dcmIo)) (real (s.get .dcmT))

/-- The one commit of DCMD: a register and two flags (R181). -/
def dcmdCommit (s : State) (o : DutyOut) : State := (s.setReg .duty o.duty).setDutyFlags o.vcl o.dcl

theorem dcmdBody_unset {s : State} (hv : ¬ ∀ x ∈ Reg.vratio :: dcmConstants, s.isValid x = true) :
    dcmdBody s = .error .operandUnset := by
  rw [← allValid_iff, Bool.not_eq_true] at hv
  simp [dcmdBody, hv]

theorem dcmdBody_nan {s : State} (hv : ∀ x ∈ Reg.vratio :: dcmConstants, s.isValid x = true)
    (hnan : isNaN (s.get .vratio) = true) : dcmdBody s = .error .operandNonfinite := by
  rw [← allValid_iff] at hv
  simp [dcmdBody, hv, hnan]

/-- Once `VRATIO` has passed its own check, which lets the infinities through, the common checks of the four constants are
left (R181). -/
theorem dcmdBody_eq_checkOperands {s : State} (hv : ∀ x ∈ Reg.vratio :: dcmConstants, s.isValid x = true)
    (hnan : isNaN (s.get .vratio) = false) :
    dcmdBody s = checkOperands dcmConstants dcmConstants .cfgDcm s (.ok (dcmdCommit s (dcmdOut s))) := by
  have hconst : allValid dcmConstants s = true := (allValid_iff _ s).mpr (List.forall_mem_cons.mp hv).2
  rw [← allValid_iff] at hv
  simp only [dcmdBody, checkOperands, hv, hnan, hconst, Bool.true_eq_false, Bool.false_eq_true, if_false]
  rfl

/-! ## The statement -/

/-- Settles O12: the check that the operands hold values, then that of `VRATIO`, then those of the constants; what a DCMD
that passes them commits is the answer of the stage DUTY. -/
theorem dcmdCompletesOrFaults : Obligations.DcmdCompletesOrFaults := by
  intro s hf vi l io t fails held finite legal
  have hfails {c : Cause} (h : dcmdBody s = .error c) : fails c := perform_error hf h
  refine ⟨fun hlegal => ?completes, fun hn => hfails (dcmdBody_unset hn), fun hheld hn => hfails ?nonfinite,
    fun hfinite hn => hfails ?cfgDcm⟩
  case completes =>
    obtain ⟨⟨hheld, hnan, hfin⟩, hpos⟩ := hlegal
    obtain ⟨vr, vcl, dcl, d, hclamp, hzero, hformula, hstage⟩ := dcmStage_spec (dec32_ne_nan hnan)
      (hpos .dcmVi (by decide)) (hpos .dcmL (by decide)) (hpos .dcmIo (by decide)) (hpos .dcmT (by decide))
    have hbody : dcmdBody s = .ok (dcmdCommit s ⟨d, vcl, dcl⟩) := by
      rw [dcmdBody_eq_checkOperands hheld hnan, dcmdOut, hstage]
      exact checkOperands_pass (List.forall_mem_cons.mp hheld).2 hfin hpos
    exact ⟨vr, vcl, dcl, d, hclamp, hzero, hformula, perform_ok hf hbody⟩
  case nonfinite =>
    cases hnan : isNaN (s.get .vratio) with
    | true => exact dcmdBody_nan hheld hnan
    | false =>
      rw [dcmdBody_eq_checkOperands hheld hnan]
      exact checkOperands_nonfinite (List.forall_mem_cons.mp hheld).2 fun hfin => hn ⟨hheld, hnan, hfin⟩
  case cfgDcm =>
    obtain ⟨hheld, hnan, hfin⟩ := id hfinite
    rw [dcmdBody_eq_checkOperands hheld hnan]
    exact checkOperands_illegal (List.forall_mem_cons.mp hheld).2 hfin fun hpos => hn ⟨hfinite, hpos⟩

end Sys2Proof.Machine
end

section
/-! SUPPORT AND PROOFS. The command NOP (spec/44_control.md R200): it answers the state it is given, and no word but 0 with
`OP` = 0 is NOP. -/

namespace Sys2Proof.Machine

/-- A faulted block ignores NOP, and elsewhere NOP commits nothing, so the state is the same in either case (R200). -/
theorem exec_nop (s : State) : exec .nop s = .next s := by
  cases hf : s.status.fatal with
  | true => exact exec_fatal hf
  | false => exact (exec_eq .nop s).trans (perform_ok hf rfl)

/-- The word of NOP is the word 0 (R200), so among the words with `OP` = 0 the others are those with a bit in `RSV`. -/
theorem rsvField_ne_zero_of_ne_zero {w : Word} (hop : opField w = 0#4) (hw : w ≠ 0#32) : rsvField w ≠ 0#28 :=
  fun hrsv => hw (eq_encode_iff_fields (i := .nop) |>.mpr ⟨hrsv, hop⟩)

/-- Settles O5: word 0 is the encoder's word of NOP, and any other word with `OP` = 0 has a bit in `RSV`, so it is
illegal. -/
theorem nopChangesNothing : Obligations.NopChangesNothing := by
  refine ⟨decode_encode .nop, exec_nop, fun w s hf hop hw => ?illegal⟩
  case illegal =>
    have hillegal := writeCmd_illegal hf (.inl (rsvField_ne_zero_of_ne_zero hop hw))
    rwa [show opField w = 0#4 from hop, ← memWrite_cmd] at hillegal

end Sys2Proof.Machine
end

section
/-! SUPPORT AND PROOFS. Faults (spec/60_exceptions.md R212 to R215): the state in which a write to `CMD` enters a fault, and
what the faulted state lets a host operation do to STATUS. -/

namespace Sys2Proof.Machine

/-- A write to `CMD` that sets `FATAL` is the fault entry of its word: the command's own, or `ILLEGAL_CMD` (R212). -/
theorem writeCmd_faultEntry {w : Word} {s t : State} (hs : s.status.fatal = false) (h : writeCmd w s = .next t)
    (ht : t.status.fatal = true) : ∃ c, causeRaisedBy c (opField w) = true ∧ t = faultEntry c (opField w) s := by
  rcases writeCmd_cases h with ⟨i, hd, he⟩ | ⟨-, -, ⟨hfatal, -⟩ | ⟨-, hentry⟩⟩
  · obtain rfl := decode_ok hd
    rw [opField_encode]
    rcases exec_cases he.symm with ⟨hfatal, -⟩ | ⟨-, hok⟩ | ⟨-, c, herror, hentry⟩
    · simp [hs] at hfatal
    · have hkept := (bodyOf_ok hok).fatal
      simp [hs, ht] at hkept
    · exact ⟨c, bodyOf_error herror, hentry⟩
  · simp [hs] at hfatal
  · cases hentry
    exact ⟨.illegalCmd, rfl, rfl⟩

/-- In the faulted state no operation but a reset changes STATUS: no other one writes it except through `CMD`, and those
writes are ignored (R214, R215). -/
theorem hostStep_status_of_fatal {op : HostOp} {s t : State} (hs : s.status.fatal = true) (hop : op ≠ .reset)
    (h : hostStep op s = .next t) : t.status = s.status := by
  rcases hostStep_effect h with ⟨-, hsame | ⟨r, v, rfl⟩ | ⟨w, hw⟩⟩ | ⟨hreset, -⟩
  · exact hsame.status
  · rfl
  · rw [writeCmd_fatal hs] at hw
    cases hw
    rfl
  · exact absurd hreset hop

/-! ## The statements -/

/-- Settles O13: `faultEntry` is the change of the three fields that the statement writes out. -/
theorem faultEntryIsPrecise : Obligations.FaultEntryIsPrecise :=
  fun _ _ _ hs h ht => writeCmd_faultEntry hs h ht

/-- Settles O14: `CMD` writes are ignored, the window's reads and register writes do not ask for `FATAL`, and the fault
fields stay because STATUS does. -/
theorem faultedStateRule : Obligations.FaultedStateRule := by
  intro s hs
  refine ⟨fun w => writeCmd_fatal hs, fun off ha hoff => memRead_word ha hoff s, fun r v => memWrite_reg r v s,
    fun op t hop h => ?fields⟩
  case fields => simp [hostStep_status_of_fatal hs hop h, hs]

end Sys2Proof.Machine
end

section
/-! SUPPORT AND PROOFS. The invariant of the machine (spec/10_state.md R27, R33, spec/60_exceptions.md R211,
spec/42_host_fan_state_machine.md R151, R162): each of its four parts is kept by every host operation. -/

namespace Sys2Proof.Machine

/-! ## STATUS -/

theorem Status.reset_consistent : Status.reset.Consistent := ⟨fun _ => ⟨rfl, rfl⟩, fun h => by cases h⟩

theorem Status.Consistent.congr {a b : Status} (h : a.Consistent) (hfatal : b.fatal = a.fatal) (hcause : b.cause = a.cause)
    (hfop : b.fop = a.fop) : b.Consistent := by
  unfold Status.Consistent
  rwa [hfatal, hcause, hfop]

theorem faultEntry_consistent {c : Cause} {fop : BitVec 4} (h : causeRaisedBy c fop = true) (s : State) :
    (faultEntry c fop s).status.Consistent :=
  ⟨fun hf => by simp at hf, fun _ => ⟨c, rfl, h⟩⟩

/-- STATUS changes by a reset, by the entry of a fault that the table of R211 lists, or in the flags alone. -/
theorem hostStep_keeps_consistent {op : HostOp} {s t : State} (h : hostStep op s = .next t)
    (hs : s.status.Consistent) : t.status.Consistent := by
  rcases hostStep_effect h with ⟨-, hsame | ⟨r, v, rfl⟩ | ⟨w, hw⟩⟩ | ⟨-, rfl⟩
  · rwa [hsame.status]
  · exact hs
  · rcases writeCmd_next hw with rfl | ⟨-, c, fop, hraised, rfl⟩ | ⟨-, i, hbody, -⟩
    · exact hs
    · exact faultEntry_consistent hraised s
    · have hc := bodyOf_ok hbody
      exact hs.congr hc.fatal hc.cause hc.fop
  · exact Status.reset_consistent

/-! ## VALID -/

theorem Reg.validBit_unreserved (r : Reg) : r.validBit ≤ 16 ∧ r.validBit ≠ 7 := by cases r <;> decide

theorem State.setReg_keeps_validReserved {s : State} (h : validReserved s.valid) (r : Reg) (v : Word) :
    validReserved (s.setReg r v).valid := by
  intro k hk
  obtain ⟨hle, hne⟩ := r.validBit_unreserved
  have hkr : ¬ k - r.validBit = 0 ∨ k < r.validBit := by omega
  rw [State.setReg_valid, BitVec.getLsbD_or, h k hk, Bool.false_or, BitVec.getLsbD_shiftLeft, BitVec.getLsbD_one]
  rcases hkr with hkr | hkr <;> simp [hkr]

/-- A command that completes makes one of the commits of its kind. -/
theorem bodyOf_ok_isCommit {i : Instr} {s t : State} (h : bodyOf i s = .ok t) : ∃ f, IsCommit i f ∧ t = f s := by
  rcases bodyOf_congr (i := i) (s := s) (s' := s) rfl rfl ⟨fun _ _ => rfl, fun _ _ _ => rfl⟩ with
    ⟨c, herror, -⟩ | ⟨f, hf, hok, -⟩
  · rw [herror] at h; cases h
  · rw [hok] at h; cases h
    exact ⟨f, hf, rfl⟩

/-- A relation that every register write and every flag write keeps, when both states make it, is kept by every commit. -/
theorem IsCommit.induction {R : State → State → Prop}
    (setReg : ∀ {s t} r v, R s t → R (s.setReg r v) (t.setReg r v))
    (ratioFlags : ∀ {s t} lo hi, R s t → R (s.setRatioFlags lo hi) (t.setRatioFlags lo hi))
    (zeroFlag : ∀ {s t} z, R s t → R (s.setZeroFlag z) (t.setZeroFlag z))
    (dutyFlags : ∀ {s t} v d, R s t → R (s.setDutyFlags v d) (t.setDutyFlags v d))
    {i : Instr} {f : State → State} (hf : IsCommit i f) {s t : State} (h : R s t) : R (f s) (f t) := by
  cases i with
  | nop => cases hf; exact h
  | norm => obtain ⟨v, lo, hi, rfl⟩ := hf; exact ratioFlags _ _ (setReg _ _ h)
  | bridge => obtain ⟨v, rfl⟩ := hf; exact setReg _ _ h
  | rtot => obtain ⟨v, z, rfl⟩ := hf; exact zeroFlag _ (setReg _ _ h)
  | conv =>
    obtain ⟨n, res, o, rfl⟩ := hf
    exact zeroFlag _ (ratioFlags _ _ (setReg _ _ (setReg _ _ (setReg _ _ h))))
  | iir => obtain ⟨v, rfl⟩ := hf; exact setReg _ _ h
  | seed => obtain ⟨v, rfl⟩ := hf; exact setReg _ _ h
  | dcmd => obtain ⟨v, vcl, dcl, rfl⟩ := hf; exact dutyFlags _ _ (setReg _ _ h)

/-- Every write of VALID sets a register's bit or clears the word (R33). -/
theorem hostStep_keeps_validReserved {op : HostOp} {s t : State} (h : hostStep op s = .next t)
    (hs : validReserved s.valid) : validReserved t.valid := by
  rcases hostStep_writes h with ⟨-, rfl⟩ | hsame | ⟨w, c, fop, -, rfl⟩ | ⟨r, v, -, rfl⟩ | ⟨i, -, -, hbody, -⟩
  · exact fun k _ => by simp
  · rwa [hsame.valid]
  · exact hs
  · exact State.setReg_keeps_validReserved hs r v
  · obtain ⟨f, hf, rfl⟩ := bodyOf_ok_isCommit hbody
    exact hf.induction (R := fun u _ => validReserved u.valid) (t := s) (fun r v hu => State.setReg_keeps_validReserved hu r v)
      (fun _ _ hu => hu) (fun _ hu => hu) (fun _ _ hu => hu) hs

/-! ## The host's record -/

/-- A host operation keeps the loaded `Config`, resets the device, or loads a legal one where there was none (R151). -/
theorem hostStep_config {op : HostOp} {s t : State} (h : hostStep op s = .next t) :
    t.host.config = s.host.config ∨ op = .reset ∧ t.host.config = none ∨
      ∃ c, s.host.config = none ∧ c.legal = true ∧ t.host.config = some c := by
  rcases hostStep_outside h with
    hsame | ⟨hreset, rfl⟩ | ⟨c, hnone, hlegal, rfl⟩ | ⟨ops, rfl⟩ | ⟨-, hhost, -⟩ | ⟨-, -, p, l, r, hhost⟩
  · exact .inl (by rw [hsame.host])
  · exact .inr (.inl ⟨hreset, rfl⟩)
  · exact .inr (.inr ⟨c, hnone, hlegal, rfl⟩)
  · exact .inl rfl
  · exact .inl (by rw [hhost])
  · exact .inl (by rw [hhost])

/-- The operations that an abort leaves are none, or begin with the reset it waits for (R162). -/
theorem dropWhile_isReset (ops : List HostOp) :
    (ops.dropWhile fun op => !op.isReset) = [] ∨ ∃ rest, (ops.dropWhile fun op => !op.isReset) = .reset :: rest := by
  induction ops with
  | nil => exact .inl rfl
  | cons op ops ih =>
    cases op with
    | reset => exact .inr ⟨ops, rfl⟩
    | _ => exact ih

/-- A host that was not aborted before the operation is not aborted after it, or waits for a reset. -/
theorem hostStep_aborted {op : HostOp} {s t : State} (h : hostStep op s = .next t) (hs : s.host.aborted = false) :
    t.host.aborted = false ∨ t.pending = [] ∨ ∃ rest, t.pending = .reset :: rest := by
  rcases hostStep_outside h with
    hsame | ⟨-, rfl⟩ | ⟨c, -, -, rfl⟩ | ⟨ops, rfl⟩ | ⟨-, -, hpending⟩ | ⟨-, -, p, l, r, hhost⟩
  · exact .inl (by rw [hsame.host, hs])
  · exact .inl rfl
  · exact .inl rfl
  · exact .inl hs
  · exact .inr (hpending ▸ dropWhile_isReset _)
  · exact .inl (by rw [hhost, hs])

/-! ## The statements -/

/-- Settles O30: the four parts of the invariant, each by its lemma; an aborted host can perform a reset alone, and a reset
ends the abort. -/
theorem stepKeepsInvariant : Obligations.StepKeepsInvariant := by
  intro s t hs h
  rcases step_effect h with ⟨-, rfl⟩ | ⟨op, rest, hp, hop⟩
  · exact hs
  refine ⟨hostStep_keeps_consistent hop hs.status, hostStep_keeps_validReserved hop hs.valid, fun c hc => ?config,
    fun ha => ?aborted⟩
  case config =>
    rcases hostStep_config hop with hkept | ⟨-, hnone⟩ | ⟨c', -, hlegal, hloaded⟩
    · exact hs.config c (hkept ▸ hc)
    · simp [hnone] at hc
    · cases hloaded.symm.trans hc
      exact hlegal
  case aborted =>
    cases hbefore : s.host.aborted with
    | false => simpa [ha] using hostStep_aborted hop hbefore
    | true =>
      obtain ⟨later, hreset⟩ := (hs.aborted hbefore).resolve_left (by simp [hp])
      obtain ⟨rfl, -⟩ : op = .reset ∧ rest = later := by simpa [hp] using hreset
      cases hop
      simp [HostState.startup] at ha

/-- Settles O31: no field of the reset state names a fault, a value, a `Config` or an abort. -/
theorem resetMeetsInvariant : Obligations.ResetMeetsInvariant :=
  ⟨Status.reset_consistent, fun _ _ => BitVec.getLsbD_zero, fun _ h => (Option.some_ne_none _ h.symm).elim,
    fun h => (Bool.false_ne_true h).elim⟩

/-- Settles O32: no host operation writes the parameters, and only a reset or a launch writes the `Config`; a launch needs
that none is loaded. -/
theorem configurationIsImmutable : Obligations.ConfigurationIsImmutable := by
  intro s t h
  rcases step_effect h with ⟨-, rfl⟩ | ⟨op, rest, hp, hop⟩
  · exact ⟨rfl, fun c hc => .inl hc⟩
  refine ⟨?params, fun c hc => ?config⟩
  case params =>
    rcases hostStep_outside hop with
      hsame | ⟨-, rfl⟩ | ⟨c, -, -, rfl⟩ | ⟨ops, rfl⟩ | ⟨hparams, -, -⟩ | ⟨hparams, -, -⟩
    · exact hsame.params
    · rfl
    · rfl
    · rfl
    · exact hparams
    · exact hparams
  case config =>
    rcases hostStep_config hop with hkept | ⟨rfl, -⟩ | ⟨c', hnone, -, -⟩
    · exact .inl (hkept.trans hc)
    · exact .inr ⟨rest, hp⟩
    · cases hnone.symm.trans hc

end Sys2Proof.Machine
end

section
/-! SUPPORT AND PROOFS. Noninterference: what stands in a register that holds no value (spec/10_state.md R34), the clamp
flags (R27) and BASE (spec/20_memory.md R50) decide nothing that a command or a host operation does. -/

namespace Sys2Proof.Machine

/-! ## States that differ in contents without a value -/

/-- Two outcomes that show no difference but in contents without a value: one stop, or two such next states. -/
def AlikeOutcomes : Host.Outcome State Fault Refusal → Host.Outcome State Fault Refusal → Prop
  | .next s, .next t => SameButUnset s t
  | .fault f, .fault g => f = g
  | .refused r, .refused q => r = q
  | _, _ => False

section
variable {o : Host.Outcome State Fault Refusal}

theorem AlikeOutcomes.exists_next {s : State} (h : AlikeOutcomes (.next s) o) : ∃ t, o = .next t ∧ SameButUnset s t := by
  cases o with
  | next t => exact ⟨t, rfl, h⟩
  | fault | refused => exact h.elim

theorem AlikeOutcomes.eq_fault {f : Fault} (h : AlikeOutcomes (.fault f) o) : o = .fault f := by
  cases o with
  | fault g => exact congrArg _ (Eq.symm h)
  | next | refused => exact h.elim

theorem AlikeOutcomes.eq_refused {r : Refusal} (h : AlikeOutcomes (.refused r) o) : o = .refused r := by
  cases o with
  | refused q => exact congrArg _ (Eq.symm h)
  | next | fault => exact h.elim

end

namespace SameButUnset

variable {s t : State}

theorem refl (s : State) : SameButUnset s s := ⟨fun _ _ => rfl, rfl, rfl, rfl, rfl, rfl, rfl, rfl⟩

theorem isValid (h : SameButUnset s t) (r : Reg) : t.isValid r = s.isValid r :=
  congrArg (BitVec.getLsbD · r.validBit) h.valid.symm

theorem sameOperands (h : SameButUnset s t) (rs : List Reg) : SameOperands rs s t :=
  ⟨fun r _ => h.isValid r, fun r _ hv => (h.regs r hv).symm⟩

/-! ### Updates -/

theorem setPending (h : SameButUnset s t) (ops : List HostOp) :
    SameButUnset { s with pending := ops } { t with pending := ops } := { h with pending := rfl }

theorem setHost (h : SameButUnset s t) (host : HostState) :
    SameButUnset { s with host := host } { t with host := host } := { h with host := rfl }

/-- A write takes a difference away and makes none. -/
theorem setReg (h : SameButUnset s t) (r : Reg) (v : Word) : SameButUnset (s.setReg r v) (t.setReg r v) where
  __ := h
  regs r' hv' := by
    by_cases hr : r' = r
    · simp [hr]
    · simpa [hr] using h.regs r' (by simpa [hr] using hv')
  valid := by simp [h.valid]

theorem setRatioFlags (h : SameButUnset s t) (lo hi : Bool) :
    SameButUnset (s.setRatioFlags lo hi) (t.setRatioFlags lo hi) where
  __ := h
  status := by simp [State.setRatioFlags, h.status]

theorem setZeroFlag (h : SameButUnset s t) (z : Bool) : SameButUnset (s.setZeroFlag z) (t.setZeroFlag z) where
  __ := h
  status := by simp [State.setZeroFlag, h.status]

theorem setDutyFlags (h : SameButUnset s t) (v d : Bool) : SameButUnset (s.setDutyFlags v d) (t.setDutyFlags v d) where
  __ := h
  status := by simp [State.setDutyFlags, h.status]

theorem faultEntry (h : SameButUnset s t) (c : Cause) (fop : BitVec 4) :
    SameButUnset (faultEntry c fop s) (faultEntry c fop t) where
  __ := h
  status := by simp [Machine.faultEntry, h.status]

theorem commit {i : Instr} {f : State → State} (hf : IsCommit i f) (h : SameButUnset s t) : SameButUnset (f s) (f t) :=
  hf.induction (fun r v h => h.setReg r v) (fun lo hi h => h.setRatioFlags lo hi) (fun z h => h.setZeroFlag z)
    (fun v d h => h.setDutyFlags v d) h

theorem resetDevice (h : SameButUnset s t) : SameButUnset (resetDevice s) (resetDevice t) where
  __ := h
  regs _ _ := by simp
  valid := rfl
  status := rfl
  host := rfl

/-! ### Accesses and commands -/

/-- A read shows the content of a register only while the register holds a value (R34). -/
theorem readWord (h : SameButUnset s t) (off : Nat) : readWord off t = readWord off s := by
  cases hp : portAt off with
  | none => rw [readWord_reserved hp, readWord_reserved hp]
  | some p =>
    obtain rfl := portAt_some hp
    cases p with
    | cmd => rfl
    | status => exact congrArg Status.word h.status.symm
    | valid => exact h.valid.symm
    | reg r =>
      simp only [Port.offset, readWord_reg, h.isValid, h.draws]
      split
      · next hv => exact (h.regs r hv).symm
      · rfl

theorem readDraws (h : SameButUnset s t) (off : Nat) : readDraws off t = readDraws off s := by
  unfold Machine.readDraws
  split
  · rw [h.isValid]
  · rfl

theorem afterRead (h : SameButUnset s t) (off : Nat) : SameButUnset (afterRead off s) (afterRead off t) where
  __ := h
  reads := by simp [h.readWord, h.reads]
  draws := by simp [h.readDraws, h.draws]

theorem memRead (h : SameButUnset s t) (off size : Nat) : AlikeOutcomes (memRead off size s) (memRead off size t) := by
  unfold Machine.memRead
  cases accessRefusal off size with
  | none => exact h.afterRead off
  | some e => rfl

theorem exec (h : SameButUnset s t) (i : Instr) : AlikeOutcomes (exec i s) (exec i t) := by
  obtain ⟨u, hu⟩ := exec_total i s
  rcases exec_congr (congrArg Status.fatal h.status.symm) (congrArg Params.normMode h.params.symm)
    (congrArg Params.fsDiv h.params.symm) (h.sameOperands _) hu with ⟨rfl, ht⟩ | ⟨c, rfl, ht⟩ | ⟨f, hf, rfl, ht⟩
  · rw [hu, ht]; exact h
  · rw [hu, ht]; exact h.faultEntry c _
  · rw [hu, ht]; exact h.commit hf

theorem writeCmd (h : SameButUnset s t) (w : Word) : AlikeOutcomes (writeCmd w s) (writeCmd w t) := by
  unfold Machine.writeCmd
  cases decode w with
  | ok i => exact h.exec i
  | error e =>
    cases hf : s.status.fatal with
    | true => rw [perform_fatal hf, perform_fatal (h.status ▸ hf)]; exact h
    | false => rw [perform_error hf rfl, perform_error (h.status ▸ hf) rfl]; exact h.faultEntry _ _

theorem memWrite (h : SameButUnset s t) (off size : Nat) (v : Word) :
    AlikeOutcomes (memWrite off size v s) (memWrite off size v t) := by
  unfold Machine.memWrite
  cases accessRefusal off size with
  | some e => rfl
  | none =>
    cases portAt off with
    | none => exact h
    | some p =>
      cases p with
      | cmd => exact h.writeCmd v
      | status => exact h
      | valid => exact h
      | reg r => exact h.setReg r v

theorem busRead (h : SameButUnset s t) (addr size : Nat) : AlikeOutcomes (busRead addr size s) (busRead addr size t) := by
  unfold Machine.busRead
  rw [h.params]
  cases windowOffset t.params addr with
  | none => rfl
  | some off => exact h.memRead off size

theorem busWrite (h : SameButUnset s t) (addr size : Nat) (v : Word) :
    AlikeOutcomes (busWrite addr size v s) (busWrite addr size v t) := by
  unfold Machine.busWrite
  rw [h.params]
  cases windowOffset t.params addr with
  | none => rfl
  | some off => exact h.memWrite off size v

/-! ### The host's own operations -/

theorem configLoaded (h : SameButUnset s t) : s.host.config.isSome = t.host.config.isSome := by rw [h.host]

theorem hostLaunch (h : SameButUnset s t) (c : HostConfig) : AlikeOutcomes (hostLaunch c s) (hostLaunch c t) := by
  unfold Machine.hostLaunch
  rw [h.host]
  split
  · rfl
  · split
    · exact h.setHost _
    · rfl

/-- Whether a fan call writes TEMP depends on the content of TEMP only while TEMP holds a value (R154). -/
theorem fanCallOps (h : SameButUnset s t) (newTempC : Option Word) (ms : Word) :
    fanCallOps newTempC ms t = fanCallOps newTempC ms s := by
  unfold Machine.fanCallOps
  cases newTempC with
  | none => rfl
  | some temp =>
    cases hv : s.isValid .temp with
    | false => simp [h.isValid, hv]
    | true => simp [h.isValid, hv, h.regs .temp hv]

theorem hostFanCall (h : SameButUnset s t) (newTempC : Option Word) (ms : Word) :
    AlikeOutcomes (hostFanCall newTempC ms s) (hostFanCall newTempC ms t) := by
  unfold Machine.hostFanCall
  rw [h.fanCallOps, ← h.pending, ← h.configLoaded]
  split
  · exact h.setPending _
  · rfl

theorem hostCycle (h : SameButUnset s t) (code ms : Word) : AlikeOutcomes (hostCycle code ms s) (hostCycle code ms t) := by
  unfold Machine.hostCycle
  rw [← h.pending, ← h.configLoaded]
  split
  · exact h.setPending _
  · rfl

theorem hostAbort (h : SameButUnset s t) : SameButUnset (hostAbort s) (hostAbort t) where
  __ := h
  host := by simp [Machine.hostAbort, h.host]
  pending := by simp [Machine.hostAbort, h.pending]

theorem hostCheck (h : SameButUnset s t) : AlikeOutcomes (hostCheck s) (hostCheck t) := by
  unfold Machine.hostCheck
  rw [h.readWord]
  split
  · exact (h.afterRead _).hostAbort
  · exact h.afterRead _

theorem hostEval (h : SameButUnset s t) (ms : Word) : AlikeOutcomes (hostEval ms s) (hostEval ms t) := by
  unfold Machine.hostEval
  rw [h.host, h.readWord]
  cases t.host.config with
  | none => rfl
  | some c =>
    dsimp only
    split
    · exact (h.afterRead _).setHost _
    · rfl

theorem hostStep (h : SameButUnset s t) (op : HostOp) : AlikeOutcomes (hostStep op s) (hostStep op t) := by
  cases op with
  | read off size => exact h.memRead off size
  | write off size v => exact h.memWrite off size v
  | readAt addr size => exact h.busRead addr size
  | writeAt addr size v => exact h.busWrite addr size v
  | reset => exact h.resetDevice
  | launch c => exact h.hostLaunch c
  | fanVoltageRatio newTempC ms => exact h.hostFanCall newTempC ms
  | controlCycle code ms => exact h.hostCycle code ms
  | checkFatal => exact h.hostCheck
  | evalPhases ms => exact h.hostEval ms
  | writeRatio =>
    unfold Machine.hostStep
    rw [h.host]
    exact h.memWrite _ _ _

theorem idle (h : SameButUnset s t) : AlikeOutcomes (idle s) (idle t) := by
  unfold Machine.idle
  rw [h.host]
  split
  · rfl
  · exact h

theorem step (h : SameButUnset s t) : AlikeOutcomes (step s) (step t) := by
  unfold Machine.step
  rw [h.pending]
  cases t.pending with
  | nil => exact h.idle
  | cons op rest => exact (h.setPending rest).hostStep op

end SameButUnset

/-- Settles O34: every part of a step takes two such states to alike outcomes, and alike outcomes are what the statement
asks for. -/
theorem unsetContentsNeverMatter : Obligations.UnsetContentsNeverMatter := by
  intro s t h
  have halike := h.step
  exact ⟨fun s' hs => (hs ▸ halike).exists_next, fun f hs => (hs ▸ halike).eq_fault, fun r hs => (hs ▸ halike).eq_refused⟩

/-! ## BASE -/

/-- The state with its register window at another address. -/
def State.withBase (s : State) (b : Nat) : State := { s with params := { s.params with base := b } }

theorem IsCommit.withBase {i : Instr} {f : State → State} (hf : IsCommit i f) (s : State) (b : Nat) :
    f (s.withBase b) = (f s).withBase b :=
  hf.induction (R := fun u u' => u' = u.withBase b) (fun _ _ h => h ▸ rfl) (fun _ _ h => h ▸ rfl) (fun _ h => h ▸ rfl)
    (fun _ _ h => h ▸ rfl) rfl

/-- Settles O25: BASE is no operand, so the command does on the moved state what it does on the state, and neither a fault
entry nor a commit touches BASE. -/
theorem baseIsInvisible : Obligations.BaseIsInvisible := by
  intro i s t b h
  have hsame : SameOperands (operandsOf i) s (s.withBase b) := ⟨fun _ _ => rfl, fun _ _ _ => rfl⟩
  rcases exec_congr (s := s) (s' := s.withBase b) rfl rfl rfl hsame h with ⟨rfl, he⟩ | ⟨c, rfl, he⟩ | ⟨f, hf, rfl, he⟩
  · exact he
  · exact he
  · exact he.trans (congrArg _ (hf.withBase s b))

/-! ## The clamp flags -/

/-- The same registers, VALID bits and fault fields: everything of the block but the clamp flags. -/
structure SameButFlags (s t : State) : Prop where
  regs : t.regs = s.regs
  valid : t.valid = s.valid
  fatal : t.status.fatal = s.status.fatal
  cause : t.status.cause = s.status.cause
  fop : t.status.fop = s.status.fop

namespace SameButFlags

variable {s t : State}

theorem setReg (h : SameButFlags s t) (r : Reg) (v : Word) : SameButFlags (s.setReg r v) (t.setReg r v) where
  __ := h
  regs := by simp [h.regs]
  valid := by simp [h.valid]

theorem setRatioFlags (h : SameButFlags s t) (lo hi : Bool) :
    SameButFlags (s.setRatioFlags lo hi) (t.setRatioFlags lo hi) := { h with }

theorem setZeroFlag (h : SameButFlags s t) (z : Bool) : SameButFlags (s.setZeroFlag z) (t.setZeroFlag z) := { h with }

theorem setDutyFlags (h : SameButFlags s t) (v d : Bool) : SameButFlags (s.setDutyFlags v d) (t.setDutyFlags v d) :=
  { h with }

theorem faultEntry (h : SameButFlags s t) (c : Cause) (fop : BitVec 4) :
    SameButFlags (faultEntry c fop s) (faultEntry c fop t) := { h with fatal := rfl, cause := rfl, fop := rfl }

theorem commit {i : Instr} {f : State → State} (hf : IsCommit i f) (h : SameButFlags s t) : SameButFlags (f s) (f t) :=
  hf.induction (fun r v h => h.setReg r v) (fun lo hi h => h.setRatioFlags lo hi) (fun z h => h.setZeroFlag z)
    (fun v d h => h.setDutyFlags v d) h

end SameButFlags

/-- Settles O35: no flag is an operand, so the command takes the same one of its three ways on both states, and each way
keeps them equal but for the flags. -/
theorem flagsAreNeverRead : Obligations.FlagsAreNeverRead := by
  intro i s t a b c d e h
  let s' : State := { s with status := { s.status with rclLo := a, rclHi := b, rzero := c, vcl := d, dcl := e } }
  have hs : SameButFlags s s' := ⟨rfl, rfl, rfl, rfl, rfl⟩
  have hoperands : SameOperands (operandsOf i) s s' := ⟨fun _ _ => rfl, fun _ _ _ => rfl⟩
  obtain ⟨t', he, ht⟩ : ∃ t', exec i s' = .next t' ∧ SameButFlags t t' := by
    rcases exec_congr (s := s) (s' := s') rfl rfl rfl hoperands h with ⟨rfl, he⟩ | ⟨c, rfl, he⟩ | ⟨f, hf, rfl, he⟩
    · exact ⟨_, he, hs⟩
    · exact ⟨_, he, hs.faultEntry _ _⟩
    · exact ⟨_, he, hs.commit hf⟩
  exact ⟨t', he, ht.regs, ht.valid, ht.fatal, ht.cause, ht.fop⟩

end Sys2Proof.Machine
end

section
/-! SUPPORT AND PROOFS. What a command and a register write leave unchanged (spec/00_scope.md R13, spec/30_encoding.md R73,
spec/10_state.md R33), the map of the window (R22, R24, R50), the STATUS word (R27), the reset, and the step of a command
word. -/

namespace Sys2Proof.Machine

/-! ## The frame of a command -/

/-- A command, whether it is ignored, faults or completes, keeps every register that is no result of it (R73, R212, R214). -/
theorem exec_regKept {i : Instr} {r : Reg} {s t : State} (h : exec i s = .next t) (hr : r ∉ resultsOf i) :
    RegKept r s t := by
  rcases exec_cases h with ⟨-, rfl⟩ | ⟨-, hbody⟩ | ⟨-, c, -, rfl⟩
  · exact ⟨rfl, rfl⟩
  · exact (bodyOf_ok hbody).kept r hr
  · exact ⟨rfl, rfl⟩

/-- A command is no read: it returns nothing to the host and uses up no draw. -/
theorem exec_reads_draws {i : Instr} {s t : State} (h : exec i s = .next t) : t.reads = s.reads ∧ t.draws = s.draws := by
  rcases exec_cases h with ⟨-, rfl⟩ | ⟨-, hbody⟩ | ⟨-, c, -, rfl⟩
  · exact ⟨rfl, rfl⟩
  · exact ⟨(bodyOf_ok hbody).reads, (bodyOf_ok hbody).draws⟩
  · exact ⟨rfl, rfl⟩

theorem readWord_of_regKept {r : Reg} {s t : State} (h : RegKept r s t) (hdraws : t.draws = s.draws) :
    readWord r.offset t = readWord r.offset s := by
  obtain ⟨hget, hvalid⟩ := h
  simp [hget, hvalid, hdraws]

/-- A command that changed a register was not ignored. -/
theorem exec_fatal_of_not_regKept {i : Instr} {r : Reg} {s t : State} (h : exec i s = .next t)
    (hchange : ¬ RegKept r s t) : s.status.fatal = false := by
  rcases exec_cases h with ⟨-, rfl⟩ | ⟨hf, -⟩ | ⟨hf, -⟩
  · exact absurd ⟨rfl, rfl⟩ hchange
  · exact hf
  · exact hf

/-- Settles O16: the registers by `exec_regKept`, the rest by the frame lemmas; a word of the window depends on nothing
else. -/
theorem commandFrame : Obligations.CommandFrame := by
  intro i s t h
  have houtside := exec_outside h
  obtain ⟨hreads, hdraws⟩ := exec_reads_draws h
  refine ⟨fun r hr => exec_regKept h hr, houtside.params, houtside.host, houtside.pending, hreads, hdraws,
    fun off hstatus hvalid hresults => ?window⟩
  case window =>
    cases hp : portAt off with
    | none => rw [readWord_reserved hp, readWord_reserved hp]
    | some p =>
      obtain rfl := portAt_some hp
      cases p with
      | cmd => rfl
      | status => exact absurd rfl hstatus
      | valid => exact absurd rfl hvalid
      | reg r => exact readWord_of_regKept (exec_regKept h fun hr => hresults r hr rfl) hdraws

/-- Settles O29: what changes a register is a reset, a write of it or a command that completes; the last two leave its
VALID bit at 1. -/
theorem validBitsOnlyClearedByReset : Obligations.ValidBitsOnlyClearedByReset := by
  intro s t r h
  rcases step_effect h with ⟨-, rfl⟩ | ⟨op, rest, hp, hop⟩
  · exact ⟨fun h1 h0 => by simp [h1] at h0, fun h0 h1 => by simp [h1] at h0⟩
  by_cases hkept : RegKept r { s with pending := rest } t
  · have hvalid : t.isValid r = s.isValid r := hkept.2
    exact ⟨fun h1 h0 => by simp [hvalid, h1] at h0, fun h0 h1 => by simp [hvalid, h0] at h1⟩
  rcases hostStep_changes_reg hop hkept with ⟨rfl, rfl⟩ | ⟨v, hwrite, rfl⟩ | ⟨i, hcmd, hresult, hc, he⟩
  · exact ⟨fun _ _ => ⟨rest, hp⟩, fun _ h1 => by simp at h1⟩
  · exact ⟨fun _ h0 => by simp at h0, fun _ _ => ⟨op, rest, hp, .inl ⟨v, hwrite, rfl⟩⟩⟩
  · have hf : t.status.fatal = false := hc.fatal.trans (exec_fatal_of_not_regKept he hkept)
    exact ⟨fun _ h0 => by simp [hc.written r hresult] at h0, fun _ _ => ⟨op, rest, hp, .inr ⟨i, hcmd, hresult, he, hf⟩⟩⟩

/-! ## Registers and their places in the window -/

/-- Settles O20: the laws of a register write; the bus write is that write, and the read after it finds the value held. -/
theorem registerWriteStores : Obligations.RegisterWriteStores := by
  intro s r v
  refine ⟨by simp, by simp, fun r' hne => by simp [hne], rfl, s.setReg r v, afterRead r.offset (s.setReg r v),
    memWrite_reg r v s, memRead_reg r _, ?_⟩
  simp

theorem Reg.offset_inj {r r' : Reg} (h : r.offset = r'.offset) : r = r' := by
  have hport := portAt_reg r
  rw [h, portAt_reg] at hport
  cases hport
  rfl

theorem Reg.offset_bounds (r : Reg) : 0x10 ≤ r.offset ∧ r.offset ≤ 0x60 := by cases r <;> decide

/-- A read of a register that holds a value hands it to the host and changes nothing else. -/
theorem memRead_reg_of_isValid {r : Reg} {s : State} (h : s.isValid r = true) :
    memRead r.offset 4 s = .next { s with reads := s.get r :: s.reads } := by
  simp [afterRead, h]

/-- Settles O21: the rows of the table are the offset and the VALID bit of the model, at which the accesses are known. -/
theorem registerMapIsInjective : Obligations.RegisterMapIsInjective := by
  unfold Obligations.RegisterMapIsInjective
  intro map
  have hrow : ∀ r off bit, (r, off, bit) ∈ map → r.offset = off ∧ r.validBit = bit := by
    have hall : ∀ row ∈ map, row.1.offset = row.2.1 ∧ row.1.validBit = row.2.2 := by decide
    exact fun r off bit h => hall _ h
  refine ⟨fun r => by cases r <;> decide, fun r off bit hmem => ?row, fun r r' => ?distinct⟩
  case row =>
    obtain ⟨rfl, rfl⟩ := hrow r off bit hmem
    exact ⟨rfl, rfl, fun s v => ⟨rfl, memWrite_reg r v s, memRead_reg_of_isValid⟩⟩
  case distinct =>
    obtain ⟨hlow, hhigh⟩ := r.offset_bounds
    obtain ⟨hbit, hne⟩ := r.validBit_unreserved
    exact ⟨Reg.offset_inj, Reg.validBit_inj, r.offset_mod, hlow, hhigh, hbit, hne⟩

/-- Settles O24: the two branches of the window's place. -/
theorem platformAddress : Obligations.PlatformAddress := by
  intro s addr size v
  refine ⟨fun hlow hhigh => ?inside, fun hout => ?outside⟩
  case inside =>
    have ho : windowOffset s.params addr = some (addr - s.params.base) := if_pos ⟨hlow, hhigh⟩
    simp [busRead, busWrite, ho]
  case outside =>
    have ho : windowOffset s.params addr = none := if_neg (by omega)
    simp [busRead, busWrite, ho]

/-! ## The STATUS word -/

/-- One bit of a 4-bit field that stands at bit `j` of a word. -/
theorem field_getLsbD (x : BitVec 4) {j : Nat} (k : Nat) (hj : j ≤ 28) :
    (x.zeroExtend 32 <<< j).getLsbD k = (decide (j ≤ k) && x.getLsbD (k - j)) := by
  by_cases hk : k < 32
  · by_cases hjk : j ≤ k
    · simp [hk, hjk]
    · simp [hjk, show k < j by omega]
  · have hx : x.getLsbD (k - j) = false := BitVec.getLsbD_of_ge _ _ (by omega)
    simp [hk, hx]

/-- Each bit of STATUS, from the places of R27 at which the fields stand. -/
theorem Status.word_getLsbD (t : Status) (k : Nat) : t.word.getLsbD k =
    (t.fatal && decide (k = 0) || decide (4 ≤ k) && (causeField t.cause).getLsbD (k - 4) ||
      decide (8 ≤ k) && t.fop.getLsbD (k - 8) || t.rclLo && decide (k = 16) || t.rclHi && decide (k = 17) ||
      t.rzero && decide (k = 18) || t.vcl && decide (k = 19) || t.dcl && decide (k = 20)) := by
  simp only [Status.word, BitVec.getLsbD_or, field_getLsbD _ _ (by decide : 4 ≤ 28), field_getLsbD _ _ (by decide : 8 ≤ 28),
    flagBit_getLsbD _ _ _ (by decide : 0 < 32), flagBit_getLsbD _ _ _ (by decide : 16 < 32),
    flagBit_getLsbD _ _ _ (by decide : 17 < 32), flagBit_getLsbD _ _ _ (by decide : 18 < 32),
    flagBit_getLsbD _ _ _ (by decide : 19 < 32), flagBit_getLsbD _ _ _ (by decide : 20 < 32)]

/-- A field of the STATUS word is what its bits are. -/
theorem Status.word_extract {t : Status} {start len : Nat} {x : BitVec len}
    (h : ∀ k < len, t.word.getLsbD (start + k) = x.getLsbD k) : t.word.extractLsb' start len = x :=
  BitVec.eq_of_getLsbD_eq fun k hk => by simp [hk, h k hk]

/-- Settles O26: each bit by `Status.word_getLsbD`; between the fields all the places of R27 are elsewhere. -/
theorem statusWordLayout : Obligations.StatusWordLayout := by
  intro t cause
  have hcause : causeField t.cause = cause := by
    obtain ⟨-, _ | c, -⟩ := t
    · rfl
    · cases c <;> rfl
  refine ⟨t.word_getLsbD_zero, Status.word_extract fun k hk => ?cause, Status.word_extract fun k hk => ?fop, ?rclLo, ?rclHi,
    ?rzero, ?vcl, ?dcl, Status.word_extract fun k hk => ?low, Status.word_extract fun k hk => ?middle,
    Status.word_extract fun k hk => ?high⟩
  all_goals rw [Status.word_getLsbD]
  case cause => interval_cases k <;> simp [hcause]
  case fop => interval_cases k <;> simp
  case low | middle | high => interval_cases k <;> simp
  case rclLo | rclHi | rzero | vcl | dcl => simp

end Sys2Proof.Machine
end

section
/-! SUPPORT AND PROOFS. Steps of a host whose next operation is known (spec/70_reset_and_hazards.md R240 to R243,
spec/42_host_fan_state_machine.md R151 to R162): a command word, a reset, a launch, a control cycle, a CHECK, and the two
boots. -/

namespace Sys2Proof.Machine

/-! ## One operation -/

/-- A step performs the oldest pending operation. -/
theorem step_of_pending {s : State} {op : HostOp} {rest : List HostOp} (h : s.pending = op :: rest) :
    step s = hostStep op { s with pending := rest } := by
  simp only [step, h]

/-- Settles O2: each word is the encoder's, so it decodes to its command. -/
theorem opcodeMapWords : Obligations.OpcodeMapWords :=
  ⟨decode_encode .nop, decode_encode .norm, decode_encode .bridge, decode_encode .rtot, decode_encode .conv,
    decode_encode .iir, decode_encode .seed, decode_encode .dcmd⟩

/-- Settles O4: the word is the encoder's, so both steps are the step of the command's own operation. -/
theorem stepRunsTheCommand : Obligations.StepRunsTheCommand := by
  intro s w i rest hd
  obtain rfl := decode_ok hd
  refine ⟨fun hp => step_command hp, ?fetched⟩
  case fetched =>
    have hword : BitVec.ofNat 32 ((encode i).toNat % 2 ^ 32) = encode i := by
      rw [Nat.mod_eq_of_lt (encode i).isLt, BitVec.ofNat_toNat, BitVec.setWidth_eq]
    have hp : (s.withFetchWord 32 (encode i).toNat).pending = cmdOp i :: s.pending := by
      rw [State.withFetchWord, hword]
      rfl
    exact step_command hp

theorem step_reset {s : State} {rest : List HostOp} (h : s.pending = .reset :: rest) :
    step s = .next (resetDevice { s with pending := rest }) := step_of_pending h

/-- Settles O28: the step is `resetDevice`. -/
theorem resetOperation : Obligations.ResetOperation :=
  fun _ _ hp => ⟨_, step_reset hp, rfl, rfl, fun _ => ⟨resetDevice_isValid _ _, rfl⟩, rfl, rfl⟩

theorem HostConfig.legal_iff {c : HostConfig} : c.legal = true ↔
    (∀ b ∈ [c.fanMinDutyCycle, c.fanMaxDutyCycle, c.fanSpinupDutyCycle, c.tempMinC, c.tempMaxC, c.tempHysteresisC],
        isFinite b = true) ∧
      real c.fanMinDutyCycle ≤ real c.fanMaxDutyCycle ∧ real c.tempMinC < real c.tempMaxC ∧
      0 ≤ real c.tempHysteresisC := by
  simp only [HostConfig.legal, Bool.and_eq_true, decide_eq_true_eq, List.all_eq_true, and_assoc]

/-- Settles O50: the six checks of the statement are those of the launch, which writes the host's record alone. -/
theorem launchRule : Obligations.LaunchRule := by
  intro s c rest hp hnone legal
  refine ⟨fun hl => ⟨_, step_launch hp hnone (HostConfig.legal_iff.mpr hl), rfl, rfl, rfl, rfl, rfl, rfl, rfl⟩,
    fun hl => ?refused⟩
  case refused =>
    have hillegal : ¬ c.legal = true := fun h => hl (HostConfig.legal_iff.mp h)
    rw [step_of_pending hp]
    simp [hostStep, hostLaunch, hnone, hillegal]

theorem fanCallOps_none (ms : Word) (s : State) : fanCallOps none ms s = [cmdOp .iir, .checkFatal, .evalPhases ms] := rfl

theorem fanCallOps_held {s : State} {temp : Word} (ms : Word) (h : s.isValid .temp = true ∧ s.get .temp = temp) :
    fanCallOps (some temp) ms s = [cmdOp .iir, .checkFatal, .evalPhases ms] := by
  simp [fanCallOps, h]

theorem fanCallOps_new {s : State} {temp : Word} (ms : Word) (h : ¬(s.isValid .temp = true ∧ s.get .temp = temp)) :
    fanCallOps (some temp) ms s = [wrOp .temp temp, cmdOp .iir, .checkFatal, .evalPhases ms] := by
  simp [fanCallOps, h]

theorem step_fanCall {s : State} {newTempC : Option Word} {ms : Word} {rest : List HostOp}
    (hp : s.pending = .fanVoltageRatio newTempC ms :: rest) (hc : s.host.config.isSome = true) :
    step s = .next { s with pending := fanCallOps newTempC ms s ++ rest } := by
  rw [step_of_pending hp]
  exact if_pos hc

/-- Settles O48: a cycle and a call queue their operations; those of a call depend on what TEMP holds. -/
theorem controlCycleExpands : Obligations.ControlCycleExpands := by
  intro s code ms newTempC rest hc
  refine ⟨fun hp => ?cycle, fun hp => ?call, fun hp hv ht => ?held, fun hp hnew => ?new⟩
  case cycle => rw [step_of_pending hp]; exact if_pos hc
  case call => rw [step_fanCall hp hc, fanCallOps_none]; rfl
  case held => rw [step_fanCall hp hc, fanCallOps_held ms ⟨hv, ht⟩]; rfl
  case new => rw [step_fanCall hp hc, fanCallOps_new ms hnew]; rfl

/-! ## CHECK -/

theorem hostCheck_eq (s : State) : hostCheck s =
    .next (if s.status.fatal then hostAbort (afterRead 0x04 s) else afterRead 0x04 s) := by
  have hbit : (readWord (Port.offset .status) s).getLsbD 0 = s.status.fatal := s.status.word_getLsbD_zero
  rw [hostCheck, hbit]
  cases s.status.fatal <;> rfl

theorem dropWhile_of_not_mem_reset {ops : List HostOp} (h : HostOp.reset ∉ ops) :
    (ops.dropWhile fun op => !op.isReset) = [] := by
  refine List.dropWhile_eq_nil_iff.mpr fun op hop => ?_
  cases op with
  | reset => exact absurd hop h
  | _ => rfl

theorem dropWhile_of_mem_reset {ops : List HostOp} (h : HostOp.reset ∈ ops) :
    ∃ later, (ops.dropWhile fun op => !op.isReset) = .reset :: later := by
  refine (dropWhile_isReset ops).resolve_left fun hnil => ?_
  have hfalse := List.dropWhile_eq_nil_iff.mp hnil .reset h
  cases hfalse

/-- Settles O49: CHECK aborts as FATAL says; the abort leaves nothing, where the host is stuck, or the reset that ends
it. -/
theorem abortOnFatal : Obligations.AbortOnFatal := by
  intro s rest hactive hp
  have hstep : step s = .next _ := (step_of_pending hp).trans (hostCheck_eq _)
  cases hf : s.status.fatal with
  | false =>
    simp only [hf, Bool.false_eq_true, if_false] at hstep
    exact ⟨_, hstep, by simp [hactive], rfl, fun _ => rfl, nofun, nofun⟩
  | true =>
    simp only [hf, if_true] at hstep
    refine ⟨_, hstep, rfl, rfl, nofun, fun _ hno => ?stuck, fun _ hreset => ?restarts⟩
    case stuck =>
      refine ⟨dropWhile_of_not_mem_reset hno, ?_⟩
      simp [step, hostAbort, dropWhile_of_not_mem_reset hno, idle]
    case restarts =>
      obtain ⟨later, hlater⟩ := dropWhile_of_mem_reset hreset
      exact ⟨later, _, hlater, step_reset hlater, rfl, rfl⟩

end Sys2Proof.Machine
end

section
/-! SUPPORT AND PROOFS. Rounding (spec/00_scope.md R10): it is monotone and keeps binary32 values; and the interpolation of
the fan curve (spec/42_host_fan_state_machine.md R158), which is rounded once. -/

namespace Sys2Proof.Machine

open Sys2Proof.Laws

/-! ## Rounding is monotone -/

/-- A larger real has no smaller rounding: were it smaller, each of the two would lie on its own side of the middle of both
roundings, the larger real on the lower side. -/
theorem IsRne32.mono {x y : ℝ} {a b : Word} (ha : IsRne32 x a) (hb : IsRne32 y b) (hxy : x ≤ y)
    (hx : |x| < overflowBound) (hy : |y| < overflowBound) : real a ≤ real b := by
  rcases hxy.eq_or_lt with rfl | hlt
  · rw [Laws.IsRne32.unique ha hb]
  by_contra hab
  have hba : (real b : ℝ) < real a := by exact_mod_cast not_le.mp hab
  have hnearX := sq_le_sq.mpr (ha.nearest hx b (hb.finite hy))
  have hnearY := sq_le_sq.mpr (hb.nearest hy a (ha.finite hx))
  nlinarith [mul_pos (sub_pos.mpr hlt) (sub_pos.mpr hba)]

theorem rne32_mono {x y : ℚ} (hxy : x ≤ y) (hx : |(x : ℝ)| < overflowBound) (hy : |(y : ℝ)| < overflowBound) :
    real (rne32 x) ≤ real (rne32 y) :=
  (rne32_isRne32 x).mono (rne32_isRne32 y) (by exact_mod_cast hxy) hx hy

/-- What lies between two binary32 values does not overflow. -/
theorem abs_lt_overflowBound {x : ℚ} {c d : Word} (fc : isFinite c = true) (fd : isFinite d = true) (hc : real c ≤ x)
    (hd : x ≤ real d) : |(x : ℝ)| < overflowBound := by
  have hcR : (real c : ℝ) ≤ x := by exact_mod_cast hc
  have hdR : (x : ℝ) ≤ real d := by exact_mod_cast hd
  exact abs_lt.mpr ⟨(abs_lt.mp (abs_real_lt fc)).1.trans_le hcR, hdR.trans_lt (abs_lt.mp (abs_real_lt fd)).2⟩

/-! ## Rounding keeps binary32 values -/

/-- Only the two zeros have no magnitude. -/
theorem magnitude_eq_zero {b : Word} (h : magnitude b = 0) : b = 0#32 ∨ b = 0x80000000#32 := by
  unfold magnitude at h
  bv_omega

theorem real_negZero : real (0x80000000#32) = 0 := by decide +kernel

theorem magVal_pos {m : ℕ} (h : m ≠ 0) : 0 < magVal m := by
  rw [← magVal_zero]
  exact magVal_strictMono (Nat.pos_of_ne_zero h)

/-- The sign bit of a finite pattern but -0 is the sign of its value. -/
theorem sign_iff_real_neg {b : Word} (hfin : isFinite b = true) (hneg : b ≠ 0x80000000#32) :
    b.getLsbD 31 = true ↔ (real b : ℝ) < 0 := by
  rw [real_eq hfin]
  cases hs : b.getLsbD 31 with
  | false => simp [magVal_nonneg]
  | true =>
    have hm : magnitude b ≠ 0 := fun h => by
      rcases magnitude_eq_zero h with rfl | rfl
      · simp at hs
      · exact hneg rfl
    simp [magVal_pos hm]

/-- A finite pattern but -0 is the rounding of its value: nothing is nearer, or as near, to it. -/
theorem isRne32_real {b : Word} (hfin : isFinite b = true) (hneg : b ≠ 0x80000000#32) : IsRne32 (real b : ℝ) b := by
  have hlt := abs_real_lt hfin
  refine isRne32_of (fun hzero => ?zero) (fun hle => absurd hle (not_le.mpr hlt)) (fun _ => hfin)
    (fun _ => sign_iff_real_neg hfin hneg) (fun _ c _ => by simp) (fun _ c _ hne heq => ?even)
  case zero =>
    have hm : magnitude b = 0 := by
      by_contra h
      have hpos := magVal_pos h
      rw [← abs_real hfin, hzero, abs_zero] at hpos
      exact hpos.false
    exact (magnitude_eq_zero hm).resolve_right hneg
  case even =>
    rw [sub_self, abs_zero, abs_eq_zero, sub_eq_zero] at heq
    exact absurd (by exact_mod_cast heq) hne

theorem rne32_real {b : Word} (hfin : isFinite b = true) (hneg : b ≠ 0x80000000#32) : rne32 (real b) = b :=
  Laws.IsRne32.unique (rne32_isRne32 _) (isRne32_real hfin hneg)

/-- Rounding the value of any finite pattern keeps the value; -0 becomes +0. -/
theorem real_rne32_real {b : Word} (hfin : isFinite b = true) : real (rne32 (real b)) = real b := by
  by_cases hneg : b = 0x80000000#32
  · subst hneg
    rw [real_negZero]
    decide +kernel
  · rw [rne32_real hfin hneg]

/-- Settles O44: rounding is monotone by `rne32_mono` and keeps the pattern of a value by `rne32_real`; -0 has the value 0. -/
theorem roundingIsMonotone : Obligations.RoundingIsMonotone :=
  ⟨fun _ _ hxy hx hy => rne32_mono hxy hx hy, fun _ hfin hneg => rne32_real hfin hneg, by rw [real_negZero]; rfl⟩

/-! ## The interpolation of the fan curve -/

/-- The bounds of R151 on a launched `Config`. -/
structure HostConfig.Ordered (c : HostConfig) : Prop where
  minFinite : isFinite c.fanMinDutyCycle = true
  maxFinite : isFinite c.fanMaxDutyCycle = true
  duties : real c.fanMinDutyCycle ≤ real c.fanMaxDutyCycle
  temps : real c.tempMinC < real c.tempMaxC

namespace HostConfig.Ordered

variable {c : HostConfig} (h : c.Ordered)
include h

/-- The exact interpolation, with its clamp as a maximum and a minimum. -/
theorem interpExact_eq (t : ℚ) : interpExact c t =
    real c.fanMinDutyCycle + (max (real c.tempMinC) (min t (real c.tempMaxC)) - real c.tempMinC) *
      (real c.fanMaxDutyCycle - real c.fanMinDutyCycle) / (real c.tempMaxC - real c.tempMinC) := by
  rw [interpExact, clampRat_eq h.temps.le]

theorem interpExact_mono {t u : ℚ} (htu : t ≤ u) : interpExact c t ≤ interpExact c u := by
  have hduties := sub_nonneg.mpr h.duties
  have htemps := sub_nonneg.mpr h.temps.le
  rw [h.interpExact_eq, h.interpExact_eq]
  gcongr

theorem interpExact_low {t : ℚ} (ht : t ≤ real c.tempMinC) : interpExact c t = real c.fanMinDutyCycle := by
  rw [h.interpExact_eq, max_eq_left (min_le_of_left_le ht)]
  ring

theorem interpExact_high {t : ℚ} (ht : real c.tempMaxC ≤ t) : interpExact c t = real c.fanMaxDutyCycle := by
  have htemps := sub_pos.mpr h.temps
  rw [h.interpExact_eq, min_eq_right ht, max_eq_right h.temps.le]
  field_simp
  ring

theorem interpExact_mem (t : ℚ) : real c.fanMinDutyCycle ≤ interpExact c t ∧ interpExact c t ≤ real c.fanMaxDutyCycle := by
  constructor
  · rw [← h.interpExact_low (min_le_right t _)]
    exact h.interpExact_mono (min_le_left _ _)
  · rw [← h.interpExact_high (le_max_right t _)]
    exact h.interpExact_mono (le_max_left _ _)

theorem interpExact_abs_lt (t : ℚ) : |(interpExact c t : ℝ)| < overflowBound :=
  abs_lt_overflowBound h.minFinite h.maxFinite (h.interpExact_mem t).1 (h.interpExact_mem t).2

end HostConfig.Ordered

/-- Settles O46: the rounding of an exact interpolation that is monotone and takes the values of the two ends there. -/
theorem interpolationRule : Obligations.InterpolationRule := by
  intro c t u hlegal
  obtain ⟨hfinite, hduties, htemps, -⟩ := HostConfig.legal_iff.mp hlegal
  have h : c.Ordered := ⟨hfinite _ (by simp), hfinite _ (by simp), hduties, htemps⟩
  refine ⟨?rounded, fun htu => rne32_mono (h.interpExact_mono htu) (h.interpExact_abs_lt t) (h.interpExact_abs_lt u),
    fun ht => ?low, fun ht => ?high⟩
  case rounded =>
    rw [← h.interpExact_eq]
    exact (rne32_isRne32 _).toIsRounded32
  case low => rw [interp, h.interpExact_low ht, real_rne32_real h.minFinite]
  case high => rw [interp, h.interpExact_high ht, real_rne32_real h.maxFinite]

end Sys2Proof.Machine
end

section
/-! SUPPORT AND PROOFS. Properties of the thermistor commands (spec/40_thermistor.md R100, R116, R119, R120): CONV as its
three stages in a row, its independence of the high bits of the code, the range of the ratio, and the monotonicity of
BRIDGE and RTOT. -/

namespace Sys2Proof.Machine

open Sys2Proof.Laws

/-! ## Commands that complete -/

/-- A command that ends with FATAL at 0 is one whose body completes. -/
theorem exec_eq_next_iff {i : Instr} {s t : State} (ht : t.status.fatal = false) :
    exec i s = .next t ↔ s.status.fatal = false ∧ bodyOf i s = .ok t := by
  constructor
  · intro h
    rcases exec_cases h with ⟨hf, rfl⟩ | hok | ⟨-, c, -, rfl⟩
    · simp [hf] at ht
    · exact hok
    · simp at ht
  · rintro ⟨hs, hok⟩
    rw [exec_eq]
    exact perform_ok hs hok

/-- Checks that let a result through have all passed. -/
theorem checkOperands_ok {α : Type} {rs ps : List Reg} {cfg : Cause} {s : State} {rest : Except Cause α} {x : α}
    (h : checkOperands rs ps cfg s rest = .ok x) : (∀ r ∈ rs, s.isValid r = true) ∧
      (∀ r ∈ rs, isFinite (s.get r) = true) ∧ (∀ r ∈ ps, 0 < real (s.get r)) ∧ rest = .ok x := by
  unfold checkOperands at h
  split at h
  · cases h
  next hv =>
    split at h
    · cases h
    next hfin =>
      split at h
      · cases h
      next hpos =>
        exact ⟨(allValid_iff _ s).mp (by simpa using hv), (allFinite_iff _ s).mp (by simpa using hfin),
          (allPositive_iff _ s).mp (by simpa using hpos), h⟩

/-- A BRIDGE that completes has rounded a resistance from 0 to 10^9 that its operands give (R104, R105). -/
theorem bridgeBody_completes {s t : State} (h : bridgeBody s = .ok t) :
    (0 < real (s.get .ratio) ∧ real (s.get .ratio) ≤ 1) ∧ 0 < real (s.get .rKnown) ∧
      real (s.get .rKnown) * (1 / real (s.get .ratio) - 1) ≤ resMax ∧
      t = s.setReg .res (rne32 (real (s.get .rKnown) * (1 / real (s.get .ratio) - 1))) := by
  rw [bridgeBody_eq_checkOperands] at h
  obtain ⟨-, -, hpos, hrest⟩ := checkOperands_ok h
  have hk : 0 < real (s.get .rKnown) := hpos .rKnown (List.mem_singleton_self _)
  split at hrest
  · cases hrest
  next hr =>
    obtain ⟨h0, h1⟩ := not_not.mp hr
    obtain ⟨-, ⟨-, herror⟩ | ⟨hle, hok⟩⟩ := bridgeStage_cases h0 h1 hk
    · rw [herror] at hrest; cases hrest
    · rw [hok] at hrest; cases hrest
      exact ⟨⟨h0, h1⟩, hk, hle, rfl⟩

/-- An RTOT that completes has passed its checks and committed what the BETA stage answers (R110). -/
theorem rtotBody_completes {s t : State} (h : rtotBody s = .ok t) :
    (∀ r ∈ Reg.res :: calibration, isFinite (s.get r) = true) ∧ (∀ r ∈ calibration, 0 < real (s.get r)) ∧
      ∃ o, calibratedStage s (s.get .res) = .ok o ∧ t = rtotCommit s o := by
  rw [rtotBody_eq_checkOperands] at h
  obtain ⟨-, hfin, hpos, hrest⟩ := checkOperands_ok h
  refine ⟨hfin, hpos, ?_⟩
  split at hrest
  · cases hrest
  · cases ho : calibratedStage s (s.get .res) with
    | error c => rw [ho] at hrest; cases hrest
    | ok o => rw [ho] at hrest; cases hrest; exact ⟨o, rfl, rfl⟩

/-! ## CONV and its stages -/

theorem checkOperands_map {α β : Type} {rs ps : List Reg} {cfg : Cause} {s : State} {rest : Except Cause α} (f : α → β) :
    checkOperands rs ps cfg s (rest.map f) = (checkOperands rs ps cfg s rest).map f := by
  simp only [checkOperands, apply_ite (Except.map f)]
  rfl

/-- The one commit of NORM: a register and two flags (R101). -/
def normCommit (s : State) (n : NormOut) : State := (s.setReg .ratio n.ratio).setRatioFlags n.lo n.hi

theorem normBody_ok_iff {s t : State} : normBody s = .ok t ↔
    s.isValid .adcCode = true ∧ t = normCommit s (normStage s.params (s.get .adcCode)) := by
  refine ⟨normBody_ok, ?_⟩
  rintro ⟨hv, rfl⟩
  simp [normBody, hv, normCommit]

/-- After NORM the checks of BRIDGE are those of the BRIDGE stage of CONV, because the ratio is in its domain (R100). -/
theorem bridgeBody_normCommit (s : State) (p : Params) (code : Word) :
    bridgeBody (normCommit s (normStage p code)) =
      (convBridge s (normStage p code).ratio).map ((normCommit s (normStage p code)).setReg .res) := by
  obtain ⟨hfin, h0, h1⟩ := normStage_ratio p code
  generalize normStage p code = n at *
  have hdomain : 0 < realOf (normCommit s n) .ratio ∧ realOf (normCommit s n) .ratio ≤ 1 := by
    simpa [realOf, normCommit] using ⟨h0, h1⟩
  have hratio : (normCommit s n).get .ratio = n.ratio := by simp [normCommit]
  have hknown : (normCommit s n).get .rKnown = s.get .rKnown := by simp [normCommit]
  rw [bridgeBody_eq_checkOperands, if_neg (not_not.mpr hdomain), hratio, hknown, convBridge_eq_checkOperands,
    ← checkOperands_map]
  simp [checkOperands, allValid, allFinite, allPositive, normCommit, hfin]

/-- After BRIDGE the checks of RTOT are those of the BETA stage of CONV, because the resistance is in its range (R104). -/
theorem rtotBody_setReg_res (s : State) {res : Word} (hfin : isFinite res = true) (h0 : 0 ≤ real res)
    (h1 : real res ≤ resMax) :
    rtotBody (s.setReg .res res) = (convBeta s res).map (rtotCommit (s.setReg .res res)) := by
  have hrange : ¬(realOf (s.setReg .res res) .res < 0 ∨ resMax < realOf (s.setReg .res res) .res) := by
    simpa [realOf, not_or] using ⟨h0, h1⟩
  have hres : (s.setReg .res res).get .res = res := by simp
  have hstage : calibratedStage (s.setReg .res res) res = calibratedStage s res := by simp [calibratedStage]
  rw [rtotBody_eq_checkOperands, if_neg hrange, hres, hstage, convBeta_eq_checkOperands, ← checkOperands_map]
  simp [checkOperands, allValid, allFinite, allPositive, calibration, hfin]

/-- The BETA stage of CONV reads none of the results of the stages before it. -/
theorem convBeta_normCommit (s : State) (n : NormOut) (res : Word) : convBeta (normCommit s n) res = convBeta s res :=
  convBeta_congr ⟨by simp [calibration, normCommit], by simp [calibration, normCommit]⟩

/-- The BRIDGE stage of CONV answers a finite resistance from 0 to 10^9 (R104). -/
theorem convBridge_ok {s : State} {p : Params} {code res : Word} (h : convBridge s (normStage p code).ratio = .ok res) :
    isFinite res = true ∧ 0 ≤ real res ∧ real res ≤ resMax := by
  obtain ⟨-, h0, h1⟩ := normStage_ratio p code
  rw [convBridge_eq_checkOperands] at h
  obtain ⟨-, -, hpos, hstage⟩ := checkOperands_ok h
  obtain ⟨hnonneg, ⟨-, herror⟩ | ⟨hle, hok⟩⟩ := bridgeStage_cases h0 h1 (hpos .rKnown (List.mem_singleton_self _))
  · rw [herror] at hstage; cases hstage
  · rw [hok] at hstage; cases hstage
    exact rne32_resistance hnonneg hle

theorem map_eq_ok_iff {ε α β : Type} {f : α → β} {e : Except ε α} {b : β} :
    e.map f = .ok b ↔ ∃ a, e = .ok a ∧ b = f a := by
  cases e with
  | error e => simp [Except.map]
  | ok a => simp [Except.map, eq_comm]

/-- CONV's body completes exactly as the bodies of its three stages do in a row (R116). -/
theorem convBody_ok_iff {s t : State} : convBody s = .ok t ↔
    ∃ t1 t2, normBody s = .ok t1 ∧ bridgeBody t1 = .ok t2 ∧ rtotBody t2 = .ok t := by
  constructor
  · intro h
    obtain ⟨hv, res, o, hbridge, hbeta, rfl⟩ := convBody_ok h
    obtain ⟨hfin, h0, h1⟩ := convBridge_ok hbridge
    refine ⟨_, _, normBody_ok_iff.mpr ⟨hv, rfl⟩, (bridgeBody_normCommit _ _ _).trans (by rw [hbridge]; rfl), ?_⟩
    rw [rtotBody_setReg_res _ hfin h0 h1, convBeta_normCommit, hbeta]
    rfl
  · rintro ⟨t1, t2, hnorm, hbridge, hrtot⟩
    obtain ⟨hv, rfl⟩ := normBody_ok_iff.mp hnorm
    rw [bridgeBody_normCommit, map_eq_ok_iff] at hbridge
    obtain ⟨res, hbridge, rfl⟩ := hbridge
    obtain ⟨hfin, h0, h1⟩ := convBridge_ok hbridge
    rw [rtotBody_setReg_res _ hfin h0 h1, convBeta_normCommit, map_eq_ok_iff] at hrtot
    obtain ⟨o, hbeta, rfl⟩ := hrtot
    exact convBody_commit rfl hv hbridge hbeta

/-- Settles O36: on states without a fault a command is its body; and a state with a fault in between would stay as it
is. -/
theorem convIsNormBridgeRtot : Obligations.ConvIsNormBridgeRtot := by
  intro s t hs
  constructor
  · rintro ⟨h, ht⟩
    obtain ⟨-, hconv⟩ := (exec_eq_next_iff ht).mp h
    obtain ⟨t1, t2, hnorm, hbridge, hrtot⟩ := convBody_ok_iff.mp hconv
    have ht1 : t1.status.fatal = false := (bodyOf_ok (i := .norm) hnorm).fatal.trans hs
    have ht2 : t2.status.fatal = false := (bodyOf_ok (i := .bridge) hbridge).fatal.trans ht1
    exact ⟨t1, t2, perform_ok hs hnorm, perform_ok ht1 hbridge, perform_ok ht2 hrtot, ht⟩
  · rintro ⟨t1, t2, hnorm, hbridge, hrtot, ht⟩
    obtain ⟨ht2, hrtot⟩ := (exec_eq_next_iff ht).mp hrtot
    obtain ⟨ht1, hbridge⟩ := (exec_eq_next_iff ht2).mp hbridge
    obtain ⟨-, hnorm⟩ := (exec_eq_next_iff ht1).mp hnorm
    exact ⟨perform_ok hs (convBody_ok_iff.mpr ⟨t1, t2, hnorm, hbridge, hrtot⟩), ht⟩

/-! ## CONV under MASK -/

theorem betaStage_finite {r r0 t0 b : Word} {o : BetaOut} (h : betaStage r r0 t0 b = .ok o) : isFinite o.temp = true := by
  unfold betaStage at h
  split at h
  · cases h
    decide
  · split at h
    · cases h
    · split at h
      next hfin => cases h; exact hfin
      · cases h

/-- A CONV that completes has written a finite TEMP (R119). -/
theorem convBody_temp_finite {s t : State} (h : convBody s = .ok t) :
    t.isValid .temp = true ∧ isFinite (t.get .temp) = true := by
  obtain ⟨-, res, o, -, hbeta, rfl⟩ := convBody_ok h
  rw [convBeta_eq_checkOperands] at hbeta
  obtain ⟨-, -, -, hstage⟩ := checkOperands_ok hbeta
  exact ⟨by simp [convCommit], by simpa [convCommit] using betaStage_finite hstage⟩

/-- Under MASK the NORM stage reads the low 12 bits of the code (R100). -/
theorem normStage_congr_mask {p : Params} {code code' : Word} (hp : p.normMode = .mask)
    (h : code.extractLsb' 0 12 = code'.extractLsb' 0 12) : normStage p code = normStage p code' := by
  have hnat : code.toNat % 2 ^ 12 = code'.toNat % 2 ^ 12 := by
    simpa using congrArg BitVec.toNat h
  have hq : normQuotient p code = normQuotient p code' := by
    rw [normQuotient_eq, normQuotient_eq, if_pos hp, if_pos hp, hnat]
  simp [normStage, hq]

/-- The state with another ADC code, held or not. -/
def State.withCode (s : State) (code : Word) : State := { s with regs := s.regs.set .adcCode code }

theorem State.withCode_get {r : Reg} (h : r ≠ .adcCode) (s : State) (code : Word) :
    (s.withCode code).get r = s.get r := by
  simp [State.withCode, State.get, h]

theorem convBody_withCode {s : State} {code : Word}
    (hn : normStage s.params code = normStage s.params (s.get .adcCode)) :
    convBody (s.withCode code) = (convBody s).map (·.withCode code) := by
  have hbridge (ratio : Word) : convBridge (s.withCode code) ratio = convBridge s ratio :=
    convBridge_congr ⟨fun _ _ => rfl, by simp [State.withCode_get]⟩
  have hbeta (res : Word) : convBeta (s.withCode code) res = convBeta s res :=
    convBeta_congr ⟨fun _ _ => rfl, by simp [calibration, State.withCode_get]⟩
  have hcode : (s.withCode code).get .adcCode = code := rfl
  have hvalid : (s.withCode code).isValid .adcCode = s.isValid .adcCode := rfl
  have hparams : (s.withCode code).params = s.params := rfl
  unfold convBody
  rw [hvalid, hcode, hparams, hn, hbridge]
  cases s.isValid .adcCode with
  | false => rfl
  | true =>
    cases convBridge s (normStage s.params (s.get .adcCode)).ratio with
    | error c => rfl
    | ok res =>
      simp only [hbeta]
      cases convBeta s res <;> rfl

/-- Settles O37: a CONV that completes writes a finite temperature; and with the same low 12 bits the NORM stage, and so the
whole body, answers the same. -/
theorem convUsesTwelveBits : Obligations.ConvUsesTwelveBits := by
  intro s t code hmask h
  refine ⟨fun _ ht => ?finite, fun hbits => ?code⟩
  case finite =>
    obtain ⟨-, hconv⟩ := (exec_eq_next_iff ht).mp h
    exact (convBody_temp_finite hconv).2
  case code =>
    have hbody := convBody_withCode (normStage_congr_mask hmask hbits)
    change exec .conv (s.withCode code) = .next (t.withCode code)
    rcases exec_cases h with ⟨hf, rfl⟩ | ⟨hf, hok⟩ | ⟨hf, c, herror, rfl⟩
    · exact exec_fatal hf
    · exact perform_ok hf (hbody.trans (congrArg _ hok))
    · exact perform_error hf (hbody.trans (congrArg _ herror))

/-! ## The range of the ratio -/

theorem rne32_ratioFloor : rne32 (1 / 10000) = 0x38D1B717#32 := by decide +kernel

theorem rne32_one : rne32 1 = 0x3F800000#32 := by decide +kernel

theorem one_lt_overflowBound : 1 < overflowBound := by unfold overflowBound; norm_num

/-- Settles O38: the clamped quotient lies between 1/10000 and 1, whose roundings are the two ends. -/
theorem ratioRange : Obligations.RatioRange := by
  intro s t hs hv h
  have hcommit : t = normCommit s (normStage s.params (s.get .adcCode)) := by
    have hnorm : exec .norm s = .next _ := perform_ok hs (normBody_ok_iff.mpr ⟨hv, rfl⟩)
    injection h.symm.trans hnorm
  have hratio : t.get .ratio = rne32 (max (1 / 10000) (min (normQuotient s.params (s.get .adcCode)) 1)) := by
    rw [hcommit, normStage_eq]
    simp [normCommit]
  rw [hratio]
  generalize hq : max (1 / 10000) (min (normQuotient s.params (s.get .adcCode)) 1) = q
  have hlow : 1 / 10000 ≤ q := hq ▸ le_max_left _ _
  have hhigh : q ≤ 1 := hq ▸ max_le (by norm_num) (min_le_right _ _)
  have habs {x : ℚ} (h0 : 0 ≤ x) (h1 : x ≤ 1) : |(x : ℝ)| < overflowBound := by
    rw [abs_of_nonneg (by exact_mod_cast h0)]
    exact lt_of_le_of_lt (by exact_mod_cast h1) one_lt_overflowBound
  have hqabs := habs (le_trans (by norm_num) hlow) hhigh
  refine ⟨(rne32_isRne32 q).finite hqabs, ?_, ?_⟩
  · rw [← rne32_ratioFloor]
    exact rne32_mono hlow (habs (by norm_num) (by norm_num)) hqabs
  · rw [← real_one, ← rne32_one]
    exact rne32_mono hhigh hqabs (habs (by norm_num) le_rfl)

/-! ## Monotonicity -/

/-- A larger ratio, at most 1, stands for a smaller resistance (R104). -/
theorem bridge_resistance_antitone {k r r' : ℚ} (hk : 0 < k) (hr : 0 < r) (hle : r ≤ r') (h1 : r' ≤ 1) :
    0 ≤ k * (1 / r' - 1) ∧ k * (1 / r' - 1) ≤ k * (1 / r - 1) := by
  have hr' : 0 < r' := hr.trans_le hle
  have hone : 1 ≤ 1 / r' := (one_le_div hr').mpr h1
  have hinv : 1 / r' ≤ 1 / r := one_div_le_one_div_of_le hr hle
  exact ⟨mul_nonneg hk.le (by linarith), mul_le_mul_of_nonneg_left (by linarith) hk.le⟩

/-- Resistances up to 10^9 do not overflow. -/
theorem resistance_abs_lt {x : ℚ} (h0 : 0 ≤ x) (h1 : x ≤ resMax) : |(x : ℝ)| < overflowBound :=
  abs_lt_overflowBound (c := 0#32) (d := 0x4E6E6B28#32) (by decide) (by decide) (real_zero ▸ h0) (real_resMax ▸ h1)

/-- An RTOT that completes on a positive resistance has rounded the exact temperature (R109). -/
theorem rtotBody_rounds {s t : State} (h : rtotBody s = .ok t) (hres : 0 < real (s.get .res)) :
    |calibratedTemp s (s.get .res)| < overflowBound ∧ IsRne32 (calibratedTemp s (s.get .res)) (t.get .temp) := by
  obtain ⟨hfin, hpos, o, ho, rfl⟩ := rtotBody_completes h
  rcases betaStage_spec (hfin .res (by simp)) (hfin .nomOhms (by simp [calibration])) (hfin .nomTempK (by simp [calibration]))
    (hfin .beta (by simp [calibration])) hres (hpos .nomOhms (by simp [calibration]))
    (hpos .nomTempK (by simp [calibration])) (hpos .beta (by simp [calibration])) with
    ⟨hlt, temp, hok, -, hround⟩ | ⟨-, herror⟩
  · cases hok.symm.trans ho
    exact ⟨hlt, by simpa [rtotCommit, calibratedTemp] using hround⟩
  · cases herror.symm.trans ho

/-- Above the pole a larger resistance stands for a lower temperature: ln, and with it 1/T, is monotone (R109). -/
theorem tempReal_antitone {r r' r0 t0 b : ℚ} (hr : 0 < r) (hle : r ≤ r') (hr0 : 0 < r0) (hb : 0 < b)
    (hpole : 0 < inverseTempReal r r0 t0 b) : tempReal r' r0 t0 b ≤ tempReal r r0 t0 b := by
  have hrR : (0 : ℝ) < r := by exact_mod_cast hr
  have hleR : (r : ℝ) ≤ r' := by exact_mod_cast hle
  have hr0R : (0 : ℝ) < r0 := by exact_mod_cast hr0
  have hbR : (0 : ℝ) < b := by exact_mod_cast hb
  have hinv : inverseTempReal r r0 t0 b ≤ inverseTempReal r' r0 t0 b := by
    unfold inverseTempReal
    gcongr
  exact sub_le_sub_right (one_div_le_one_div_of_le hpole hinv) 273

/-- Settles O39: the exact results are ordered, so their roundings are. -/
theorem temperatureIsMonotone : Obligations.TemperatureIsMonotone := by
  intro s s' t t' hs hs' hsame ht ht'
  refine ⟨fun h h' hle => ?bridge, fun h h' hres hle hpole => ?rtot⟩
  case bridge =>
    obtain ⟨-, hbody⟩ := (exec_eq_next_iff ht).mp h
    obtain ⟨-, hbody'⟩ := (exec_eq_next_iff ht').mp h'
    obtain ⟨⟨hr, -⟩, hk, hmax, rfl⟩ := bridgeBody_completes hbody
    obtain ⟨⟨-, hr1⟩, -, hmax', rfl⟩ := bridgeBody_completes hbody'
    rw [hsame .rKnown (by simp)] at hmax' ⊢
    obtain ⟨hnonneg, hanti⟩ := bridge_resistance_antitone hk hr hle hr1
    simpa using rne32_mono hanti (resistance_abs_lt hnonneg hmax') (resistance_abs_lt (hnonneg.trans hanti) hmax)
  case rtot =>
    obtain ⟨-, hbody⟩ := (exec_eq_next_iff ht).mp h
    obtain ⟨-, hbody'⟩ := (exec_eq_next_iff ht').mp h'
    obtain ⟨-, hpos, -⟩ := rtotBody_completes hbody
    obtain ⟨hlt, hround⟩ := rtotBody_rounds hbody hres
    obtain ⟨hlt', hround'⟩ := rtotBody_rounds hbody' (hres.trans_le hle)
    simp only [calibratedTemp, hsame .nomOhms (by simp), hsame .nomTempK (by simp), hsame .beta (by simp)] at hlt' hround'
    have hanti := tempReal_antitone hres hle (hpos .nomOhms (by simp [calibration])) (hpos .beta (by simp [calibration])) hpole
    exact hround'.mono hround hanti hlt' hlt

end Sys2Proof.Machine
end

section
/-! SUPPORT AND PROOFS. Properties of the filter (spec/41_filter.md R130, R138) and of the duty (spec/43_dcm_duty.md R183,
R184). -/

namespace Sys2Proof.Machine

open Sys2Proof.Laws

/-! ## The filter -/

/-- An IIR that completes has passed its checks (R131). -/
theorem iirBody_completes {s t : State} (h : iirBody s = .ok t) :
    isFinite (s.get .temp) = true ∧ isFinite (s.get .filt) = true ∧
      (0 < real (s.get .alpha) ∧ real (s.get .alpha) < 1) ∧
      t = s.setReg .filt (filterStage (s.get .temp) (s.get .filt) (s.get .alpha)) := by
  rw [iirBody_eq_checkOperands] at h
  obtain ⟨-, hfin, -, hrest⟩ := checkOperands_ok h
  split at hrest
  · cases hrest
  next ha =>
    cases hrest
    exact ⟨hfin .temp (by simp), hfin .filt (by simp), not_not.mp ha, rfl⟩

/-- A mean with weights `a` and `1 - a` lies between its two values. -/
theorem weightedMean_mem {a x y : ℚ} (h0 : 0 ≤ a) (h1 : a ≤ 1) :
    min x y ≤ a * x + (1 - a) * y ∧ a * x + (1 - a) * y ≤ max x y := by
  have hb : 0 ≤ 1 - a := by linarith
  have hxmin := mul_le_mul_of_nonneg_left (min_le_left x y) h0
  have hymin := mul_le_mul_of_nonneg_left (min_le_right x y) hb
  have hxmax := mul_le_mul_of_nonneg_left (le_max_left x y) h0
  have hymax := mul_le_mul_of_nonneg_left (le_max_right x y) hb
  constructor <;> linarith

/-- What lies between the values of two finite patterns rounds to something between them (R10). -/
theorem rne32_mem {x : ℚ} {c d : Word} (fc : isFinite c = true) (fd : isFinite d = true)
    (hmin : min (real c) (real d) ≤ x) (hmax : x ≤ max (real c) (real d)) :
    isFinite (rne32 x) = true ∧ min (real c) (real d) ≤ real (rne32 x) ∧ real (rne32 x) ≤ max (real c) (real d) := by
  have hround := (rne32_isRne32 x).toIsRounded32
  rcases le_total (real c) (real d) with hle | hle
  · rw [min_eq_left hle, max_eq_right hle] at *
    exact rounded_between hround fc fd (by exact_mod_cast hmin) (by exact_mod_cast hmax)
  · rw [min_eq_right hle, max_eq_left hle] at *
    exact rounded_between hround fd fc (by exact_mod_cast hmin) (by exact_mod_cast hmax)

/-- Settles O41: the exact sum is a weighted mean of the two values, and rounding keeps it between them. -/
theorem iirStaysBetween : Obligations.IirStaysBetween := by
  intro s t _ h ht
  obtain ⟨-, hbody⟩ := (exec_eq_next_iff ht).mp h
  obtain ⟨ftemp, ffilt, ⟨h0, h1⟩, rfl⟩ := iirBody_completes hbody
  obtain ⟨hmin, hmax⟩ := weightedMean_mem (x := real (s.get .temp)) (y := real (s.get .filt)) h0.le h1.le
  simpa [filterStage] using rne32_mem ftemp ffilt hmin hmax

/-- The filter of a value with itself is the value (R138). -/
theorem filterStage_self {x a : Word} (hfin : isFinite x = true) (hneg : x ≠ 0x80000000#32) : filterStage x x a = x := by
  have hmean : real a * real x + (1 - real a) * real x = real x := by ring
  rw [filterStage, hmean, rne32_real hfin hneg]

/-- To write to a register the value it holds changes nothing. -/
theorem State.setReg_get_self {s : State} {r : Reg} (h : s.isValid r = true) : s.setReg r (s.get r) = s := by
  have hregs : s.regs.set r (s.get r) = s.regs := Regs.ext_get fun r' => by
    rw [Regs.get_set]
    split
    next hr => rw [hr]; rfl
    · rfl
  have hvalid : s.valid ||| (1#32 <<< r.validBit) = s.valid := BitVec.eq_of_getLsbD_eq fun k hk => by
    rw [BitVec.getLsbD_or, BitVec.getLsbD_shiftLeft, BitVec.getLsbD_one]
    by_cases hkr : k = r.validBit
    · subst hkr
      simp [show s.valid.getLsbD r.validBit = true from h]
    · simp; omega
  rw [State.setReg, hregs, hvalid]

/-- Settles O40: IIR completes and writes to FILT the value it holds. -/
theorem iirFixedPoint : Obligations.IirFixedPoint := by
  intro s hs hheld htemp hneg hsame halpha h0 h1
  have hfin : allFinite [.temp, .filt, .alpha] s = true := by simp [allFinite, hsame, htemp, halpha]
  rw [exec_iir_completes hs ((allValid_iff _ s).mpr hheld) hfin ⟨h0, h1⟩, hsame, filterStage_self htemp hneg, ← hsame,
    State.setReg_get_self (hheld .filt (by simp [operandsOf]))]

/-! ## The duty -/

/-- A DCMD that completes has passed its checks and committed what the DUTY stage answers (R181). -/
theorem dcmdBody_completes {s t : State} (h : dcmdBody s = .ok t) :
    (∀ r ∈ dcmConstants, 0 < real (s.get r)) ∧ t = dcmdCommit s (dcmdOut s) := by
  have hv : ∀ r ∈ Reg.vratio :: dcmConstants, s.isValid r = true := by
    by_contra hv
    cases (dcmdBody_unset hv).symm.trans h
  have hnan : isNaN (s.get .vratio) = false := by
    by_contra hnan
    cases (dcmdBody_nan hv (by simpa using hnan)).symm.trans h
  rw [dcmdBody_eq_checkOperands hv hnan] at h
  obtain ⟨-, -, hpos, hrest⟩ := checkOperands_ok h
  cases hrest
  exact ⟨hpos, rfl⟩

/-- The exact duty at a ratio `vr`, with the limit 1 where the denominator is 0 (R180, D10). -/
noncomputable def clampedDuty (vr vi l io t : ℚ) : ℝ := if vr = 1 then 1 else min (dutyReal vr vi l io t) 1

theorem clampedDuty_mem (vr vi l io t : ℚ) : 0 ≤ clampedDuty vr vi l io t ∧ clampedDuty vr vi l io t ≤ 1 := by
  unfold clampedDuty
  split
  · exact ⟨zero_le_one, le_rfl⟩
  · refine ⟨le_min ?_ zero_le_one, min_le_right _ _⟩
    rw [dutyReal_eq]
    positivity

theorem clampedDuty_abs_lt (vr vi l io t : ℚ) : |clampedDuty vr vi l io t| < overflowBound := by
  obtain ⟨h0, h1⟩ := clampedDuty_mem vr vi l io t
  exact (abs_of_nonneg h0).trans_lt (h1.trans_lt one_lt_overflowBound)

theorem dutyDen2_eq_zero_iff {vr vi t : ℚ} (hi : 0 < vi) (ht : 0 < t) : dutyDen2 vr vi t = 0 ↔ vr = 1 := by
  have hfactor : dutyDen2 vr vi t = vi * vi * t * (1 - vr) := by unfold dutyDen2; ring
  rw [hfactor, mul_eq_zero, or_iff_right (by positivity), sub_eq_zero, eq_comm]

section
variable {vi l io t : ℚ} (hi : 0 < vi) (hl : 0 < l) (ho : 0 < io) (ht : 0 < t)
include hi hl ho ht

/-- The DUTY stage rounds the clamped duty, at every input (R180). -/
theorem dcmStage_rounds (v : Value) :
    IsRne32 (clampedDuty (clampRatio v) vi l io t) (dcmStage v vi l io t).duty := by
  rcases dcmStage_cases v hi hl ho ht with ⟨hzero, hstage⟩ | ⟨hne, d, dcl, hstage, hround, -⟩
  · rw [hstage, clampedDuty, if_pos ((dutyDen2_eq_zero_iff hi ht).mp hzero)]
    have hone := rne32_isRne32 1
    rwa [rne32_one, Rat.cast_one] at hone
  · rw [hstage, clampedDuty, if_neg fun h => hne ((dutyDen2_eq_zero_iff hi ht).mpr h)]
    exact hround

/-- The closed form of R184. -/
theorem dutyReal_closed {vr : ℚ} (h0 : 0 ≤ vr) (h1 : vr < 1) :
    dutyReal vr vi l io t = Real.sqrt ((2 * l * io / (vi * t) * (vr / (1 - vr)) : ℚ) : ℝ) := by
  have hone : 1 - vr ≠ 0 := by linarith
  have hden : vi * vi * t - vi * (vr * vi) * t ≠ 0 := by
    have hfactor : vi * vi * t - vi * (vr * vi) * t = vi * vi * t * (1 - vr) := by ring
    rw [hfactor]
    positivity
  rw [dutyReal_sqrt h0 hi hl ho]
  congr 2
  unfold dutyNum2 dutyDen2
  field_simp

/-- A larger ratio has no smaller duty: vr/(1 - vr) grows up to the limit at 1 (R184). -/
theorem clampedDuty_mono {vr vr' : ℚ} (h0 : 0 ≤ vr) (hle : vr ≤ vr') (h1 : vr' ≤ 1) :
    clampedDuty vr vi l io t ≤ clampedDuty vr' vi l io t := by
  rcases h1.eq_or_lt with rfl | hlt
  · exact (clampedDuty_mem vr vi l io t).2.trans (by simp [clampedDuty])
  · have hquot : vr / (1 - vr) ≤ vr' / (1 - vr') :=
      div_le_div₀ (h0.trans hle) hle (by linarith) (by linarith)
    have hexact : 2 * l * io / (vi * t) * (vr / (1 - vr)) ≤ 2 * l * io / (vi * t) * (vr' / (1 - vr')) :=
      mul_le_mul_of_nonneg_left hquot (by positivity)
    have hduty : dutyReal vr vi l io t ≤ dutyReal vr' vi l io t := by
      rw [dutyReal_closed hi hl ho ht h0 (hle.trans_lt hlt), dutyReal_closed hi hl ho ht (h0.trans hle) hlt]
      exact Real.sqrt_le_sqrt (by exact_mod_cast hexact)
    rw [clampedDuty, clampedDuty, if_neg (hle.trans_lt hlt).ne, if_neg hlt.ne]
    exact min_le_min_right 1 hduty

end

/-- A DCMD that completes has rounded the clamped duty of its operands, whose constants are positive. -/
theorem exec_dcmd_rounds {s t : State} (h : exec .dcmd s = .next t) (ht : t.status.fatal = false) :
    (0 < real (s.get .dcmVi) ∧ 0 < real (s.get .dcmL) ∧ 0 < real (s.get .dcmIo) ∧ 0 < real (s.get .dcmT)) ∧
      IsRne32 (clampedDuty (clampRatio (dec32 (s.get .vratio))) (real (s.get .dcmVi)) (real (s.get .dcmL))
        (real (s.get .dcmIo)) (real (s.get .dcmT))) (t.get .duty) := by
  obtain ⟨-, hbody⟩ := (exec_eq_next_iff ht).mp h
  obtain ⟨hpos, rfl⟩ := dcmdBody_completes hbody
  obtain ⟨hi, hl, ho, hT⟩ : 0 < real (s.get .dcmVi) ∧ 0 < real (s.get .dcmL) ∧ 0 < real (s.get .dcmIo) ∧
    0 < real (s.get .dcmT) := by simpa [dcmConstants] using hpos
  exact ⟨⟨hi, hl, ho, hT⟩, by simpa [dcmdCommit, dcmdOut] using dcmStage_rounds hi hl ho hT _⟩

/-- Settles O42: the duty is the rounding of a real from 0 to 1. -/
theorem dutyInUnitInterval : Obligations.DutyInUnitInterval := by
  intro s t _ h ht
  obtain ⟨-, hround⟩ := exec_dcmd_rounds h ht
  have hmem := rounded_between hround.toIsRounded32 (c := 0#32) (d := 0x3F800000#32) (by decide) (by decide)
    (by rw [real_zero, Rat.cast_zero]; exact (clampedDuty_mem _ _ _ _ _).1)
    (by rw [real_one, Rat.cast_one]; exact (clampedDuty_mem _ _ _ _ _).2)
  rwa [real_zero, real_one] at hmem

theorem dec32_of_finite {b : Word} (h : isFinite b = true) : dec32 b = .fin (real b) := by
  have hnan : isNaN b = false := by
    rw [isFinite_iff] at h
    simp [isNaN, h.le]
  simp [real, dec32, hnan, h]

/-- The clamp of a ratio is monotone (R12). -/
theorem clampRatio_mono {x y : ℚ} (h : x ≤ y) : clampRatio (.fin x) ≤ clampRatio (.fin y) := by
  simp only [clampRatio, clampRat_eq zero_le_one]
  exact max_le_max_left 0 (min_le_min_right 1 h)

/-- Settles O43: the closed form, and the monotone roundings of duties that it orders. -/
theorem dutyClosedForm : Obligations.DutyClosedForm := by
  refine ⟨fun vr vi l io t h0 h1 hi hl ho ht => dutyReal_closed hi hl ho ht h0 h1, ?_⟩
  intro s s' t t' _ _ hsame hfin hfin' hle h h' ht ht'
  obtain ⟨⟨hi, hl, ho, hT⟩, hround⟩ := exec_dcmd_rounds h ht
  obtain ⟨-, hround'⟩ := exec_dcmd_rounds h' ht'
  rw [hsame .dcmVi (by simp), hsame .dcmL (by simp), hsame .dcmIo (by simp), hsame .dcmT (by simp),
    dec32_of_finite hfin'] at hround'
  rw [dec32_of_finite hfin] at hround
  have hmono := clampedDuty_mono hi hl ho hT (clampRatio_mem _).1 (clampRatio_mono hle) (clampRatio_mem _).2
  exact hround.mono hround' hmono (clampedDuty_abs_lt _ _ _ _ _) (clampedDuty_abs_lt _ _ _ _ _)

end Sys2Proof.Machine
end

section
/-! SUPPORT AND PROOFS. The two boots (spec/70_reset_and_hazards.md R243): what a run of register writes leaves, the launch
after it, and the conversion and SEED between them. -/

namespace Sys2Proof.Machine

/-! ## A run of register writes -/

theorem RegKept.trans {r : Reg} {s t u : State} (h : RegKept r s t) (h' : RegKept r t u) : RegKept r s u := by
  obtain ⟨hget, hvalid⟩ := h
  obtain ⟨hget', hvalid'⟩ := h'
  exact ⟨hget'.trans hget, hvalid'.trans hvalid⟩

/-- The state after writes of registers, in the order of the list. -/
def State.writeRegs (s : State) (ws : List (Reg × Word)) : State := ws.foldl (fun u w => u.setReg w.1 w.2) s

/-- The bus accesses of such writes (spec/30_encoding.md R76). -/
def writeOps (ws : List (Reg × Word)) : List HostOp := ws.map fun w => wrOp w.1 w.2

theorem run_writeRegs (ws : List (Reg × Word)) {s : State} {rest : List HostOp} (h : s.pending = writeOps ws ++ rest) :
    Sys2Proof.core.run ws.length s = .next (({ s with pending := rest } : State).writeRegs ws) := by
  induction ws generalizing s with
  | nil => rw [show rest = s.pending from h.symm]; rfl
  | cons w ws ih => exact (run_write ws.length h).trans (ih rfl)

/-- Register writes change nothing but the registers and VALID. -/
theorem State.writeRegs_eq (s : State) (ws : List (Reg × Word)) :
    s.writeRegs ws = { s with regs := (s.writeRegs ws).regs, valid := (s.writeRegs ws).valid } := by
  induction ws generalizing s with
  | nil => rfl
  | cons w ws ih => exact ih (s.setReg w.1 w.2)

theorem State.writeRegs_regKept {r : Reg} (ws : List (Reg × Word)) (hr : ∀ w ∈ ws, r ≠ w.1) (s : State) :
    RegKept r s (s.writeRegs ws) := by
  induction ws generalizing s with
  | nil => exact ⟨rfl, rfl⟩
  | cons w ws ih =>
    obtain ⟨hw, hws⟩ := List.forall_mem_cons.mp hr
    exact (State.setReg_regKept hw s w.2).trans (ih hws (s.setReg w.1 w.2))

/-- The state has each register of the list at the value that the list gives it. -/
def State.Holds (s : State) (ws : List (Reg × Word)) : Prop := ∀ w ∈ ws, s.isValid w.1 = true ∧ s.get w.1 = w.2

theorem State.Holds.of_regKept {ws : List (Reg × Word)} {s t : State} (h : s.Holds ws)
    (hkept : ∀ w ∈ ws, RegKept w.1 s t) : t.Holds ws := fun w hw => by
  obtain ⟨hvalid, hget⟩ := h w hw
  obtain ⟨hkget, hkvalid⟩ := hkept w hw
  exact ⟨hkvalid.trans hvalid, hkget.trans hget⟩

/-- Writes of different registers leave each at its value. -/
theorem State.writeRegs_holds (ws : List (Reg × Word)) (hnodup : (ws.map Prod.fst).Nodup) (s : State) :
    (s.writeRegs ws).Holds ws := by
  induction ws generalizing s with
  | nil => nofun
  | cons w ws ih =>
    obtain ⟨hw, hws⟩ := List.nodup_cons.mp hnodup
    have hother : ∀ w' ∈ ws, w.1 ≠ w'.1 := fun w' hw' he => hw (he ▸ List.mem_map_of_mem hw')
    obtain ⟨hget, hvalid⟩ := State.writeRegs_regKept ws hother (s.setReg w.1 w.2)
    exact List.forall_mem_cons.mpr ⟨⟨hvalid.trans (by simp), hget.trans (by simp)⟩, ih hws _⟩

/-! ## The boot with a written FILT -/

/-- The writes of step 1 of the boot (R243). -/
def BlockConfig.writes (c : BlockConfig) : List (Reg × Word) :=
  [(.rKnown, c.rKnown), (.nomOhms, c.nomOhms), (.nomTempK, c.nomTempK), (.beta, c.beta), (.alpha, c.alpha),
    (.dcmVi, c.dcmVi), (.dcmL, c.dcmL), (.dcmIo, c.dcmIo), (.dcmT, c.dcmT)]

/-- The configuration writes, then one more register, are ten different registers. -/
theorem BlockConfig.writes_nodup (c : BlockConfig) {r : Reg} (hr : r = .adcCode ∨ r = .filt) (v : Word) :
    ((c.writes ++ [(r, v)]).map Prod.fst).Nodup := by
  rcases hr with rfl | rfl <;> simp [BlockConfig.writes]

theorem BlockConfig.holds_iff {c : BlockConfig} {r : Reg} {v : Word} {s : State} : s.Holds (c.writes ++ [(r, v)]) ↔
    (∀ x, x = r ∨ x ∈ [.rKnown, .nomOhms, .nomTempK, .beta, .alpha, .dcmVi, .dcmL, .dcmIo, .dcmT] → s.isValid x = true) ∧
      s.get r = v ∧ s.get .rKnown = c.rKnown ∧ s.get .nomOhms = c.nomOhms ∧ s.get .nomTempK = c.nomTempK ∧
      s.get .beta = c.beta ∧ s.get .alpha = c.alpha ∧ s.get .dcmVi = c.dcmVi ∧ s.get .dcmL = c.dcmL ∧
      s.get .dcmIo = c.dcmIo ∧ s.get .dcmT = c.dcmT := by
  simp only [State.Holds, BlockConfig.writes, List.forall_mem_append, List.forall_mem_cons, forall_eq_or_imp]
  simp
  tauto

/-- Ten steps of a boot: the configuration is written, and one more register; nothing else changes. -/
theorem run_boot_writes {s : State} (c : BlockConfig) {r : Reg} (hr : r = .adcCode ∨ r = .filt) (v : Word)
    {rest : List HostOp} (hp : s.pending = writeOps (c.writes ++ [(r, v)]) ++ rest) :
    ∃ u, Sys2Proof.core.run 10 s = .next u ∧ u.Holds (c.writes ++ [(r, v)]) ∧
      (∀ x, (∀ w ∈ c.writes ++ [(r, v)], x ≠ w.1) → RegKept x s u) ∧
      u = { s with pending := rest, regs := u.regs, valid := u.valid } :=
  ⟨({ s with pending := rest } : State).writeRegs (c.writes ++ [(r, v)]), run_writeRegs _ hp,
    State.writeRegs_holds _ (c.writes_nodup hr v) _, fun _ hx => State.writeRegs_regKept _ hx _, State.writeRegs_eq _ _⟩

/-- The state after a launch, which leaves the block as it is (R150, R151). -/
def State.launched (s : State) (h : HostConfig) (rest : List HostOp) : State :=
  { s with pending := rest, host := { HostState.startup with config := some h } }

@[simp] theorem State.launched_get (s : State) (h : HostConfig) (rest : List HostOp) (r : Reg) :
    (s.launched h rest).get r = s.get r := rfl
@[simp] theorem State.launched_isValid (s : State) (h : HostConfig) (rest : List HostOp) (r : Reg) :
    (s.launched h rest).isValid r = s.isValid r := rfl

theorem bootOps_direct (c : BlockConfig) (v : Word) (h : HostConfig) (rest : List HostOp) :
    bootOps c (.direct v) h ++ rest = writeOps (c.writes ++ [(.filt, v)]) ++ .launch h :: rest := rfl

/-- Settles O51: ten writes, whose registers keep their values through the launch. -/
theorem bootSetsConfigurationAndFilter : Obligations.BootSetsConfigurationAndFilter := by
  intro s c seed h rest hp hnone hlegal
  obtain ⟨u, hwrites, hholds, -, hu⟩ := run_boot_writes c (.inr rfl) seed (hp.trans (bootOps_direct c seed h rest))
  obtain ⟨hvalid, hfilt, hgets⟩ := BlockConfig.holds_iff.mp hholds
  have hlaunch : step u = .next (u.launched h rest) := by
    rw [hu]
    exact step_launch rfl hnone hlegal
  have hstatus : u.status = s.status := by rw [hu]
  obtain ⟨h1, h2, h3, h4, h5, h6, h7, h8, h9⟩ := hgets
  exact ⟨u.launched h rest, (run_add 1 hwrites).trans (run_succ 0 hlaunch), fun x hx => hvalid x (by simp at hx ⊢; tauto),
    h1, h2, h3, h4, h5, h6, h7, h8, h9, hfilt, rfl, rfl, rfl, hstatus, rfl⟩

/-! ## The boot with a conversion -/

theorem bootOps_conversion (c : BlockConfig) (code : Word) (h : HostConfig) (rest : List HostOp) :
    bootOps c (.conversion code) h ++ rest =
      writeOps (c.writes ++ [(.adcCode, code)]) ++ cmdOp .conv :: cmdOp .seed :: .launch h :: rest := rfl

/-- The three steps after the writes: CONV, SEED on what it leaves, and the launch. -/
theorem run_conv_seed_launch {u done : State} {h : HostConfig} {rest : List HostOp}
    (hp : u.pending = cmdOp .conv :: cmdOp .seed :: .launch h :: rest) (hnone : u.host.config = none)
    (hlegal : h.legal = true) (hconv : exec .conv { u with pending := u.pending.tail } = .next done) :
    ∃ v, exec .seed { done with pending := .launch h :: rest } = .next v ∧
      Sys2Proof.core.run 3 u = .next (v.launched h rest) := by
  obtain ⟨v, hseed⟩ := exec_total .seed { done with pending := .launch h :: rest }
  have hdone := exec_outside hconv
  have hv := exec_outside hseed
  have hstep1 : step u = .next done := by
    rw [← hconv, hp]
    exact step_command hp
  have hstep2 : step done = .next v := (step_command (hdone.pending.trans (by rw [hp]; rfl))).trans hseed
  have hstep3 : step v = .next (v.launched h rest) :=
    step_launch hv.pending (by rw [hv.host, hdone.host]; exact hnone) hlegal
  exact ⟨v, hseed, (run_succ 2 hstep1).trans ((run_succ 1 hstep2).trans (run_succ 0 hstep3))⟩

/-- SEED copies the finite temperature of a CONV that completed, and is ignored after one that faulted. -/
theorem exec_seed_after_conv {u done v : State} {ops : List HostOp} (hconv : exec .conv u = .next done)
    (hseed : exec .seed { done with pending := ops } = .next v) :
    (done.status.fatal = false → isFinite (done.get .temp) = true ∧
        v = ({ done with pending := ops } : State).setReg .filt (done.get .temp)) ∧
      (done.status.fatal = true → v = { done with pending := ops }) := by
  refine ⟨fun hf => ?completed, fun hf => ?faulted⟩
  case completed =>
    obtain ⟨-, hbody⟩ := (exec_eq_next_iff hf).mp hconv
    obtain ⟨hvalid, hfin⟩ := convBody_temp_finite hbody
    obtain ⟨hcopy, -⟩ := (seedCompletesOrFaults { done with pending := ops } hf).1 hvalid hfin
    rw [hcopy] at hseed
    cases hseed
    exact ⟨hfin, rfl⟩
  case faulted =>
    have hignored : exec .seed { done with pending := ops } = .next { done with pending := ops } := exec_fatal hf
    cases hignored.symm.trans hseed
    rfl

/-- A command that ends in the faulted state keeps every register. -/
theorem exec_regKept_of_fatal {i : Instr} {s t : State} (h : exec i s = .next t) (ht : t.status.fatal = true) (r : Reg) :
    RegKept r s t := by
  rcases exec_cases h with ⟨-, rfl⟩ | ⟨hf, hbody⟩ | ⟨-, c, -, rfl⟩
  · exact ⟨rfl, rfl⟩
  · simp [(bodyOf_ok hbody).fatal, hf] at ht
  · exact ⟨rfl, rfl⟩

/-- The registers that the writes of a boot are to. -/
theorem BlockConfig.mem_writes {c : BlockConfig} {r : Reg} {v : Word} {w : Reg × Word} (hw : w ∈ c.writes ++ [(r, v)]) :
    w.1 ∈ [Reg.rKnown, .nomOhms, .nomTempK, .beta, .alpha, .dcmVi, .dcmL, .dcmIo, .dcmT, r] :=
  List.mem_map_of_mem (f := Prod.fst) hw

/-- Settles O52: ten writes, then CONV, SEED and the launch; CONV and SEED write none of the ten registers. -/
theorem bootByConversionSeedsFilter : Obligations.BootByConversionSeedsFilter := by
  intro s c code h rest hp hnone hlegal
  obtain ⟨u, hwrites, hholds, hkept, hu⟩ :=
    run_boot_writes c (.inl rfl) code (hp.trans (bootOps_conversion c code h rest))
  have hpending : u.pending = cmdOp .conv :: cmdOp .seed :: .launch h :: rest := by rw [hu]
  have hstatus : u.status = s.status := by rw [hu]
  have hparams : u.params = s.params := by rw [hu]
  have hunloaded : u.host.config = none := by rw [hu]; exact hnone
  obtain ⟨done, hconv⟩ := exec_total .conv { u with pending := u.pending.tail }
  obtain ⟨v, hseed, hlast⟩ := run_conv_seed_launch hpending hunloaded hlegal hconv
  obtain ⟨hcompleted, hfaulted⟩ := exec_seed_after_conv hconv hseed
  have hdisjoint : ∀ r ∈ [Reg.ratio, .res, .temp, .filt, .vratio, .duty],
      ∀ x ∈ [Reg.rKnown, .nomOhms, .nomTempK, .beta, .alpha, .dcmVi, .dcmL, .dcmIo, .dcmT, .adcCode], r ≠ x := by decide
  have hunwritten : ∀ r ∈ [Reg.ratio, .res, .temp, .filt, .vratio, .duty], RegKept r s u := fun r hr =>
    hkept r fun w hw => hdisjoint r hr w.1 (BlockConfig.mem_writes hw)
  have hholds' : (v.launched h rest).Holds (c.writes ++ [(.adcCode, code)]) := by
    refine hholds.of_regKept fun w hw => ?_
    have hne (r : Reg) (hr : r ∈ [Reg.ratio, .res, .temp, .filt, .vratio, .duty]) : w.1 ≠ r :=
      (hdisjoint r hr w.1 (BlockConfig.mem_writes hw)).symm
    have hconvKept := exec_regKept (r := w.1) hconv (by simp [resultsOf, hne])
    have hseedKept := exec_regKept (r := w.1) hseed (by simp [resultsOf, hne])
    exact hconvKept.trans hseedKept
  have hstatus' : v.status = done.status := by
    cases hf : done.status.fatal with
    | false => rw [(hcompleted hf).2]; rfl
    | true => rw [hfaulted hf]
  refine ⟨u, done, v.launched h rest, hwrites, hpending, hconv, (run_add 3 hwrites).trans hlast, hstatus, hparams, hunwritten,
    fun x hx => ?ten, hstatus', rfl, rfl, rfl, rfl, fun hf => ?completes, fun hf r hr => ?faults⟩
  case ten =>
    have hxholds : x.Holds (c.writes ++ [(.adcCode, code)]) := by
      rcases List.mem_pair.mp hx with rfl | rfl
      · exact hholds
      · exact hholds'
    obtain ⟨hvalid, hgets⟩ := BlockConfig.holds_iff.mp hxholds
    exact ⟨fun r hr => hvalid r (List.mem_cons.mp hr), hgets⟩
  case completes =>
    obtain ⟨-, hbody⟩ := (exec_eq_next_iff hf).mp hconv
    obtain ⟨hfin, rfl⟩ := hcompleted hf
    refine ⟨fun r hr => ?_, by simp, by simp, by simpa using hfin⟩
    have hne : r ≠ .filt := by rintro rfl; simp at hr
    have hwritten := (bodyOf_ok hbody).written r hr
    simp [hne, hwritten]
  case faults =>
    obtain rfl := hfaulted hf
    obtain ⟨hget, hvalid⟩ := (hunwritten r (by simp at hr ⊢; tauto)).trans (exec_regKept_of_fatal hconv hf r)
    exact ⟨hvalid, hget⟩

end Sys2Proof.Machine
end
